-- ==== Sys2Proof/Word.lean ====
section
/-! DEFINITION. The two word widths of the core: a stream word and a binary64 bit pattern. -/

namespace Sys2Proof

/-- A 32-bit word of the command or the response stream (R51, 20_memory.md). -/
abbrev Word := BitVec 32

/-- A 64-bit binary64 bit pattern: bit 63 sign, bits 62:52 biased exponent, bits 51:0 fraction (R8, 00_scope.md).
Registers, operands and results hold it bit for bit (R55, 20_memory.md). -/
abbrev F64 := BitVec 64

/-- A byte of a byte transport of the streams (R54, 20_memory.md). -/
abbrev Byte := BitVec 8

end Sys2Proof
end

