-- ==== Sys2Proof/Syntax.lean ====
section
/-! DEFINITION. The commands of the core as syntax: one constructor of `Instr` per row of spec/opcode_table.json, and the
names the spec gives to topologies, algorithms and registers. -/

namespace Sys2Proof

/-- The four realization topologies, TOPO's four legal values (R26, R76). -/
inductive Topology
  | direct
  | canonical
  | transposeDirect
  | transposeCanonical
  deriving DecidableEq, Repr, Inhabited

/-- The 29 recognized algorithms, in the order of their codes 0 to 28 (R77, 30_encoding.md). -/
inductive Algorithm
  | lpf1p | lpf1 | hpf1 | lpf2 | hpf2 | bpf2 | bsf2
  | butterLpf2 | butterHpf2 | butterBpf2 | butterBsf2
  | mmaLpf2 | mmaLpf2b
  | lowShelf | hiShelf | ncqParaEq | cqParaEq
  | lwrLpf2 | lwrHpf2
  | apf1 | apf2 | resonA | resonB
  | matchLp2a | matchLp2b | matchBp2a | matchBp2b
  | impInvLp1 | impInvLp2
  deriving DecidableEq, Repr, Inhabited

/-- The registers that have a number (R36, 10_state.md). -/
inductive RegName
  | a0 | a1 | a2 | b1 | b2 | c0 | d0
  | s1 | s2 | s3 | s4
  | alg | fc | q | gain | fs
  | topo | status
  deriving DecidableEq, Repr, Inhabited

/-- One command with its operands, one constructor per row of spec/opcode_table.json (R75, 30_encoding.md). An operand field
is what the command uses of its words: RSV and unused IMM8 bits are dropped by the decoder (R71, R72). -/
inductive Instr
  /-- NOP (R200) -/
  | nop
  /-- BQ.RESET (R90) -/
  | bqReset
  /-- BQ.SETCOEF (R91) -/
  | bqSetcoef (a0 a1 a2 b1 b2 c0 d0 : F64)
  /-- BQ.SETTOPO (R92) -/
  | bqSettopo (t : Topology)
  /-- BQ.PROCESS (R93) -/
  | bqProcess (x : F64)
  /-- FLT.PREPARE (R123) -/
  | fltPrepare (fs : F64)
  /-- FLT.RESET (R124) -/
  | fltReset
  /-- FLT.SETALG (R125); every code 0 to 255 is an operand -/
  | fltSetalg (code : BitVec 8)
  /-- FLT.SETFC (R126) -/
  | fltSetfc (v : F64)
  /-- FLT.SETQ (R127) -/
  | fltSetq (v : F64)
  /-- FLT.SETGAIN (R128) -/
  | fltSetgain (v : F64)
  /-- FLT.PROCESS (R129) -/
  | fltProcess (x : F64)
  /-- RD.REG (R202); every number 0 to 255 is an operand -/
  | rdReg (n : BitVec 8)
  /-- ERR.CLR (R203) -/
  | errClr
  deriving DecidableEq, Repr, Inhabited

/-- The assigned opcodes, by name (R75). -/
inductive Opcode
  | nop | bqReset | bqSetcoef | bqSettopo | bqProcess
  | fltPrepare | fltReset | fltSetalg | fltSetfc | fltSetq | fltSetgain | fltProcess
  | rdReg | errClr
  deriving DecidableEq, Repr, Inhabited

end Sys2Proof
end

