-- ==== Sys2Proof/Decode.lean ====
section
/-! DEFINITION. The encoding (30_encoding.md): the code tables, the decoder from stream words to commands, the encoder, and
the byte transport of the streams. -/

namespace Sys2Proof

/-! ### Code tables -/

/-- OPC of each command (R75). -/
def Opcode.code : Opcode → BitVec 8
  | .nop => 0x00
  | .bqReset => 0x01
  | .bqSetcoef => 0x02
  | .bqSettopo => 0x03
  | .bqProcess => 0x04
  | .fltPrepare => 0x10
  | .fltReset => 0x11
  | .fltSetalg => 0x12
  | .fltSetfc => 0x13
  | .fltSetq => 0x14
  | .fltSetgain => 0x15
  | .fltProcess => 0x16
  | .rdReg => 0x20
  | .errClr => 0x21

/-- `N`, the number of binary64 operands that follow the command word (R75). -/
def Opcode.operands : Opcode → Nat
  | .bqSetcoef => 7
  | .bqProcess | .fltPrepare | .fltSetfc | .fltSetq | .fltSetgain | .fltProcess => 1
  | .nop | .bqReset | .bqSettopo | .fltReset | .fltSetalg | .rdReg | .errClr => 0

/-- The bits of IMM8 that the command uses (R72). -/
def Opcode.immMask : Opcode → BitVec 8
  | .bqSettopo => 0x03
  | .fltSetalg | .rdReg => 0xFF
  | .nop | .bqReset | .bqSetcoef | .bqProcess | .fltPrepare | .fltReset | .fltSetfc | .fltSetq | .fltSetgain | .fltProcess
  | .errClr => 0x00

/-- The opcode map is complete: every value of OPC not listed is unassigned (R75, R78). -/
def Opcode.all : List Opcode :=
  [.nop, .bqReset, .bqSetcoef, .bqSettopo, .bqProcess, .fltPrepare, .fltReset, .fltSetalg, .fltSetfc, .fltSetq, .fltSetgain,
    .fltProcess, .rdReg, .errClr]

/-- The command an OPC value selects, none for an unassigned one (R75, R78). -/
def Opcode.ofCode? (c : BitVec 8) : Option Opcode :=
  Opcode.all.find? fun o => o.code == c

/-- The length in words of a command with this opcode, `1 + 2·N` (R73). -/
def Opcode.length (o : Opcode) : Nat := 1 + 2 * o.operands

/-- Topology codes, IMM8[1:0] of BQ.SETTOPO and the TOPO register (R76). -/
def Topology.code : Topology → BitVec 2
  | .direct => 0
  | .canonical => 1
  | .transposeDirect => 2
  | .transposeCanonical => 3

/-- The topology a 2-bit code selects: all four codes are legal (R26, R76). -/
def Topology.ofCode (c : BitVec 2) : Topology :=
  if c == 0 then .direct else if c == 1 then .canonical else if c == 2 then .transposeDirect else .transposeCanonical

/-- Algorithm codes (R77). -/
def Algorithm.code : Algorithm → BitVec 8
  | .lpf1p => 0
  | .lpf1 => 1
  | .hpf1 => 2
  | .lpf2 => 3
  | .hpf2 => 4
  | .bpf2 => 5
  | .bsf2 => 6
  | .butterLpf2 => 7
  | .butterHpf2 => 8
  | .butterBpf2 => 9
  | .butterBsf2 => 10
  | .mmaLpf2 => 11
  | .mmaLpf2b => 12
  | .lowShelf => 13
  | .hiShelf => 14
  | .ncqParaEq => 15
  | .cqParaEq => 16
  | .lwrLpf2 => 17
  | .lwrHpf2 => 18
  | .apf1 => 19
  | .apf2 => 20
  | .resonA => 21
  | .resonB => 22
  | .matchLp2a => 23
  | .matchLp2b => 24
  | .matchBp2a => 25
  | .matchBp2b => 26
  | .impInvLp1 => 27
  | .impInvLp2 => 28

/-- The 29 recognized algorithms (R77). -/
def Algorithm.all : List Algorithm :=
  [.lpf1p, .lpf1, .hpf1, .lpf2, .hpf2, .bpf2, .bsf2, .butterLpf2, .butterHpf2, .butterBpf2, .butterBsf2, .mmaLpf2, .mmaLpf2b]
    ++ [.lowShelf, .hiShelf, .ncqParaEq, .cqParaEq, .lwrLpf2, .lwrHpf2, .apf1, .apf2, .resonA, .resonB]
    ++ [.matchLp2a, .matchLp2b, .matchBp2a, .matchBp2b, .impInvLp1, .impInvLp2]

/-- The algorithm a code names, none for the unrecognized codes 29 to 255 (R77). -/
def Algorithm.ofCode? (c : BitVec 8) : Option Algorithm :=
  Algorithm.all.find? fun a => a.code == c

/-- Register numbers, IMM8 of RD.REG (R36, 10_state.md). -/
def RegName.number : RegName → BitVec 8
  | .a0 => 0x00
  | .a1 => 0x01
  | .a2 => 0x02
  | .b1 => 0x03
  | .b2 => 0x04
  | .c0 => 0x05
  | .d0 => 0x06
  | .s1 => 0x08
  | .s2 => 0x09
  | .s3 => 0x0A
  | .s4 => 0x0B
  | .alg => 0x10
  | .fc => 0x11
  | .q => 0x12
  | .gain => 0x13
  | .fs => 0x14
  | .topo => 0x18
  | .status => 0x19

/-- The numbered registers (R36). -/
def RegName.all : List RegName :=
  [.a0, .a1, .a2, .b1, .b2, .c0, .d0, .s1, .s2, .s3, .s4, .alg, .fc, .q, .gain, .fs, .topo, .status]

/-- The register a number names, none for an unassigned number (R36). -/
def RegName.ofNumber? (n : BitVec 8) : Option RegName :=
  RegName.all.find? fun r => r.number == n

/-! ### Fields and operands -/

/-- OPC, bits 31:24 of a command word (R70). -/
def opcField (w : Word) : BitVec 8 := w.extractLsb' 24 8

/-- RSV, bits 23:8 of a command word, ignored by the core (R70, R71). -/
def rsvField (w : Word) : BitVec 16 := w.extractLsb' 8 16

/-- IMM8, bits 7:0 of a command word (R70, R72). -/
def immField (w : Word) : BitVec 8 := w.extractLsb' 0 8

/-- `{hi, lo}`: two words as one 64-bit value (R14, R74). -/
def joinWords (hi lo : Word) : F64 := (hi.setWidth 64 <<< 32) ||| lo.setWidth 64

/-- `CmdOperand(k)` of the command whose command word is the first of `ws`: its low half is the word at `1 + 2k`, its high
half the word at `2 + 2k`, taken bit for bit (R74). -/
def cmdOperand (ws : List Word) (k : Nat) : F64 :=
  joinWords (ws.getD (2 + 2 * k) 0) (ws.getD (1 + 2 * k) 0)

/-! ### The decoder -/

/-- Why a list of words is not the beginning of a whole assigned command. -/
inductive DecodeError
  /-- OPC is unassigned: an illegal command word, one word long (R78, R201). -/
  | unassignedOpcode (opc : BitVec 8)
  /-- The command has `need` words and only `got` of them are here (R65). -/
  | incomplete (got need : Nat)
  deriving DecidableEq, Repr

/-- The command with opcode `o` whose words are `ws` (R72, R74, R75). -/
def buildInstr (o : Opcode) (w : Word) (ws : List Word) : Instr :=
  match o with
  | .nop => .nop
  | .bqReset => .bqReset
  | .bqSetcoef =>
    .bqSetcoef (cmdOperand ws 0) (cmdOperand ws 1) (cmdOperand ws 2) (cmdOperand ws 3) (cmdOperand ws 4) (cmdOperand ws 5)
      (cmdOperand ws 6)
  | .bqSettopo => .bqSettopo (Topology.ofCode (w.extractLsb' 0 2))
  | .bqProcess => .bqProcess (cmdOperand ws 0)
  | .fltPrepare => .fltPrepare (cmdOperand ws 0)
  | .fltReset => .fltReset
  | .fltSetalg => .fltSetalg (immField w)
  | .fltSetfc => .fltSetfc (cmdOperand ws 0)
  | .fltSetq => .fltSetq (cmdOperand ws 0)
  | .fltSetgain => .fltSetgain (cmdOperand ws 0)
  | .fltProcess => .fltProcess (cmdOperand ws 0)
  | .rdReg => .rdReg (immField w)
  | .errClr => .errClr

/-- The command at the front of a stream and the words that follow it. The length comes from OPC alone (R73); RSV and unused
IMM8 bits are ignored (R71, R72). -/
def decode (ws : List Word) : Except DecodeError (Instr × List Word) :=
  match ws with
  | [] => .error (.incomplete 0 1)
  | w :: _ =>
    match Opcode.ofCode? (opcField w) with
    | none => .error (.unassignedOpcode (opcField w))
    | some o =>
      if ws.length < o.length then .error (.incomplete ws.length o.length)
      else .ok (buildInstr o w ws, ws.drop o.length)

/-! ### The encoder -/

/-- A command word with RSV zero (R70, R71). -/
def commandWord (o : Opcode) (imm : BitVec 8) : Word :=
  (o.code.setWidth 32 <<< 24) ||| imm.setWidth 32

/-- The two words of a 64-bit operand, low word first (R74). -/
def operandWords (v : F64) : List Word := [v.extractLsb' 0 32, v.extractLsb' 32 32]

/-- The opcode of a command. -/
def Instr.opcode : Instr → Opcode
  | .nop => .nop
  | .bqReset => .bqReset
  | .bqSetcoef _ _ _ _ _ _ _ => .bqSetcoef
  | .bqSettopo _ => .bqSettopo
  | .bqProcess _ => .bqProcess
  | .fltPrepare _ => .fltPrepare
  | .fltReset => .fltReset
  | .fltSetalg _ => .fltSetalg
  | .fltSetfc _ => .fltSetfc
  | .fltSetq _ => .fltSetq
  | .fltSetgain _ => .fltSetgain
  | .fltProcess _ => .fltProcess
  | .rdReg _ => .rdReg
  | .errClr => .errClr

/-- IMM8 of a command: zero where the command ignores it (R72, R81). -/
def Instr.imm : Instr → BitVec 8
  | .bqSettopo t => t.code.setWidth 8
  | .fltSetalg c => c
  | .rdReg n => n
  | .nop | .bqReset | .bqSetcoef _ _ _ _ _ _ _ | .bqProcess _ | .fltPrepare _ | .fltReset | .fltSetfc _ | .fltSetq _
  | .fltSetgain _ | .fltProcess _ | .errClr => 0

/-- The binary64 operands of a command, in the order of R75. -/
def Instr.operandList : Instr → List F64
  | .bqSetcoef a0 a1 a2 b1 b2 c0 d0 => [a0, a1, a2, b1, b2, c0, d0]
  | .bqProcess v | .fltPrepare v | .fltSetfc v | .fltSetq v | .fltSetgain v | .fltProcess v => [v]
  | .nop | .bqReset | .bqSettopo _ | .fltReset | .fltSetalg _ | .rdReg _ | .errClr => []

/-- The number of words of a command (R73). -/
def Instr.length (i : Instr) : Nat := i.opcode.length

/-- The words of a command: its command word, then each operand's two words (R70, R73, R74). -/
def encode (i : Instr) : List Word :=
  commandWord i.opcode i.imm :: i.operandList.flatMap operandWords

/-! ### The byte transport (R54, 20_memory.md) -/

/-- The four bytes of a word, bits 7:0 first. -/
def wordBytes (w : Word) : List Byte :=
  [w.extractLsb' 0 8, w.extractLsb' 8 8, w.extractLsb' 16 8, w.extractLsb' 24 8]

/-- The word of four bytes, bits 7:0 first. -/
def joinBytes (b0 b1 b2 b3 : Byte) : Word :=
  (b3.setWidth 32 <<< 24) ||| (b2.setWidth 32 <<< 16) ||| (b1.setWidth 32 <<< 8) ||| b0.setWidth 32

/-- The words that a sequence of bytes carries. One to three bytes left over at the end are dropped: the spec does not say what
becomes of them, and this is the model's choice (DESIGN CHOICE, log entry 19). -/
def wordsOfBytes : List Byte → List Word
  | b0 :: b1 :: b2 :: b3 :: rest => joinBytes b0 b1 b2 b3 :: wordsOfBytes rest
  | [] | [_] | [_, _] | [_, _, _] => []

/-! ### The host's table words -/

/-- The longest command, BQ.SETCOEF, has this many words (R73, R75). -/
def maxLength : Nat := 15

/-- The words of an instruction numbered as the opcode table numbers bits: bit 0 is bit 0 of the first word, a later word's
bits count on from bit 32. Bits at and above `nbits` are zero, up to the longest command. -/
def tableWords (nbits w : Nat) : List Word :=
  (List.range maxLength).map fun k => BitVec.ofNat 32 (w % 2 ^ nbits / 2 ^ (32 * k))

/-- What the decoder reads from those words, none where it refuses. -/
def decodeTableWord (nbits w : Nat) : Option Instr :=
  match decode (tableWords nbits w) with
  | .ok (i, _) => some i
  | .error _ => none

end Sys2Proof
end

