-- ==== Sys2Proof/Machine/Format.lean ====
section
/-! DEFINITION. The binary64 layout and the number that a bit pattern stands for (R8, 00_scope.md). -/

namespace Sys2Proof.Machine

namespace Fp

/-! ### The layout and what a bit pattern means (R8) -/

/-- Bit 63. -/
def signBit (v : F64) : Bool := v.msb

/-- Bits 62:52. -/
def expField (v : F64) : Nat := v.toNat / 2 ^ 52 % 2 ^ 11

/-- Bits 51:0. -/
def fracField (v : F64) : Nat := v.toNat % 2 ^ 52

/-- What a bit pattern stands for: a NaN, an infinity, or the finite number `± mant · 2^exp`. -/
inductive Datum
  | nan
  | inf (neg : Bool)
  | fin (neg : Bool) (mant : Nat) (exp : Int)
  deriving DecidableEq, Repr

/-- The datum of a bit pattern; a subnormal or zero has no implicit leading bit (R8). -/
def datum (v : F64) : Datum :=
  if expField v = 2047 then
    if fracField v = 0 then .inf (signBit v) else .nan
  else if expField v = 0 then .fin (signBit v) (fracField v) (-1074)
  else .fin (signBit v) (2 ^ 52 + fracField v) (expField v - 1075)

/-- `v` is a NaN. -/
def isNaN (v : F64) : Bool := expField v = 2047 && fracField v ≠ 0

/-- `v` is neither an infinity nor a NaN. -/
def isFinite (v : F64) : Bool := expField v ≠ 2047

/-- `v` is +0.0 or −0.0. -/
def isZero (v : F64) : Bool := v.toNat % 2 ^ 63 = 0

/-- A sign and the 63 bits below it. -/
def pack (neg : Bool) (magnitude : Nat) : F64 := BitVec.ofNat 64 (magnitude + if neg then 2 ^ 63 else 0)

/-- The 63 bits of an infinity. -/
def infMagnitude : Nat := 2047 * 2 ^ 52

/-- ±0.0. -/
def signedZero (neg : Bool) : F64 := pack neg 0

/-- ±Infinity. -/
def infinity (neg : Bool) : F64 := pack neg infMagnitude

end Fp

/-- The rational number of a finite value; 0 for an infinity or a NaN. -/
def toRat (v : F64) : ℚ :=
  match Fp.datum v with
  | .fin n m e => (if n then -1 else 1) * (m : ℚ) * (2 : ℚ) ^ e
  | .inf _ => 0
  | .nan => 0

end Sys2Proof.Machine
end

