-- ==== Sys2Proof/Config.lean ====
section
/-! DEFINITION. What is fixed for one machine and left open by the spec (R7, 00_scope.md), and the free values. Every
constant here that has no body is one that no proof can evaluate: a statement about the model holds for every choice. -/

namespace Sys2Proof

/-- The two readings of CQParaEQ's wet/dry pair, `P_CQ_MIX` (R7, R151; 90_conflicts.md C6). -/
inductive CqMix
  /-- wet = mu − 1, dry = 1, as the document says (the spec's default) -/
  | doc
  /-- wet = 1, dry = 0 -/
  | unity
  deriving DecidableEq, Repr, Inhabited

namespace Config

/-- `P_UNDERFLOW_FLUSH` (R7, R100): whether tiny biquad outputs are flushed. The spec's default is false; left open here, so
the model covers both (log entry 3). -/
opaque underflowFlush : Bool

/-- `P_CQ_MIX` (R7, R151). The spec's default is `doc`; left open here (log entry 4). -/
opaque cqMix : CqMix

/-- `P_CHANNELS` less one (R7, R223): the number of instances is one more, so at least 1 (log entry 10). -/
opaque channelsLessOne : Nat

/-- The free values of NaN results: the sign (bit 52) and payload (bits 51:0) of the `n`-th one (R10; log entry 1). -/
opaque nanChoice : Nat → BitVec 53

/-! ### `P_MATHLIB` (R7, R11; log entry 2) -/

/-- A finite `r` is within `n` units of the real value `x`, the configuration's stated accuracy (R11(d)). A unit is `2^-52` of
`|x|`, and `2^-1074` where that is more, so `n = 1` admits every faithfully rounded result. -/
def Within (n : Nat) (x : ℝ) (r : F64) : Prop :=
  Machine.Fp.isFinite r = true ∧ |((Machine.toRat r : ℚ) : ℝ) - x| ≤ n * max (|x| / 2 ^ 52) (2 ^ (-1074 : ℤ))

/-- `r` is within `n` units of `x`, or it is the infinity that overflow gives (R10): some number within `n` units of `x` is
beyond the largest finite value on that side. -/
def WithinOrOverflow (n : Nat) (x : ℝ) (r : F64) : Prop :=
  Within n x r ∨
  (r = Machine.Fp.infinity false ∧ 2 ^ 1024 - 2 ^ 971 < x + n * max (|x| / 2 ^ 52) (2 ^ (-1074 : ℤ))) ∨
  (r = Machine.Fp.infinity true ∧ x - n * max (|x| / 2 ^ 52) (2 ^ (-1074 : ℤ)) < -(2 ^ 1024 - 2 ^ 971))

/-- Where the real function `v ^ p` has a value. -/
def PowDefined (v p : ℚ) : Prop := 0 < v ∨ (v = 0 ∧ 0 < p) ∨ (v < 0 ∧ p.den = 1)

/-- A library: seven total functions that depend on their operands alone, and its stated accuracy in units (R11). -/
structure MathLib where
  accuracy : Nat
  sin : F64 → F64
  cos : F64 → F64
  tan : F64 → F64
  exp : F64 → F64
  cosh : F64 → F64
  log10 : F64 → F64
  pow : F64 → F64 → F64

/-- For finite operands each result is within the function's real value by the stated accuracy (R11(d)). `Exp`, `Cosh` and
`Pow` can overflow; `Sin`, `Cos`, `Tan` and `Log10` of a binary64 value cannot. `Log10` and `Pow` have no real value for some
operands, where R11(d) says nothing. -/
def MathLib.Accurate (m : MathLib) : Prop :=
  (∀ v : F64, Machine.Fp.isFinite v = true →
    Within m.accuracy (Real.sin (Machine.toRat v)) (m.sin v) ∧
    Within m.accuracy (Real.cos (Machine.toRat v)) (m.cos v) ∧
    Within m.accuracy (Real.tan (Machine.toRat v)) (m.tan v) ∧
    WithinOrOverflow m.accuracy (Real.exp (Machine.toRat v)) (m.exp v) ∧
    WithinOrOverflow m.accuracy (Real.cosh (Machine.toRat v)) (m.cosh v) ∧
    (0 < Machine.toRat v → Within m.accuracy (Real.logb 10 (Machine.toRat v)) (m.log10 v))) ∧
  (∀ v p : F64, Machine.Fp.isFinite v = true → Machine.Fp.isFinite p = true →
    PowDefined (Machine.toRat v) (Machine.toRat p) →
    WithinOrOverflow m.accuracy (((Machine.toRat v : ℚ) : ℝ) ^ ((Machine.toRat p : ℚ) : ℝ)) (m.pow v p))

/-- Some library meets R11(d), if only one that states a poor accuracy; it serves nothing but `mathLib`'s existence. -/
theorem MathLib.exists_accurate : MathLib.Accurate
    ⟨2 ^ 52, fun _ => 0, fun _ => 0, fun _ => 0, fun _ => 0, fun _ => 0, fun _ => 0, fun _ _ => 0⟩ := by
  have hd : Machine.Fp.datum 0 = .fin false 0 (-1074) := by decide
  have h : ∀ x : ℝ, Within (2 ^ 52) x 0 := by
    intro x
    refine ⟨by decide, ?_⟩
    rw [Machine.toRat, hd]
    have := le_max_left (|x| / 2 ^ 52) (2 ^ (-1074 : ℤ))
    push_cast
    simp only [mul_zero, zero_mul, zero_sub, abs_neg]
    linarith
  exact ⟨fun v _ => ⟨h _, h _, h _, .inl (h _), .inl (h _), fun _ => h _⟩, fun v p _ _ _ => .inl (h _)⟩

/-- Any library that meets R11(d): nothing else is known of it. -/
opaque chooseMathLib (h : Inhabited { m : MathLib // m.Accurate }) : { m : MathLib // m.Accurate }

/-- `P_MATHLIB`. R11(a) to (c) are imposed where its functions are called, in Machine/Fp.lean. -/
def mathLib : MathLib := (chooseMathLib ⟨⟨_, MathLib.exists_accurate⟩⟩).1

/-- R11(d) holds of `P_MATHLIB`. -/
theorem mathLib_accurate : mathLib.Accurate := (chooseMathLib ⟨⟨_, MathLib.exists_accurate⟩⟩).2

end Config

end Sys2Proof
end

