-- ==== Sys2Proof/Machine/Fp.lean ====
section
/-! DEFINITION. Binary64 arithmetic (R8 to R12, 00_scope.md): every operation exact on integers and rounded once, to nearest
with ties to even. A result that is a NaN has an unspecified sign and payload (R10): each operation takes them from the free
values, by an index that every operation advances. -/

namespace Sys2Proof.Machine

namespace Fp

/-! ### Rounding (R9, R10) -/

/-- `⌊log₂ (num / den)⌋` for positive `num` and `den`. -/
def floorLog2 (num den : Nat) : Int :=
  let l : Int := (Nat.log2 num : Int) - Nat.log2 den
  if num <<< (-l).toNat < den <<< l.toNat then l - 1 else l

/-- `q + r / d` rounded to an integer, to nearest with ties to even, where `r < d`. -/
def roundNearestEven (q r d : Nat) : Nat :=
  if d < 2 * r || (2 * r = d && q % 2 = 1) then q + 1 else q

/-- The binary64 nearest to `± (num / den) · 2^exp`, ties to even, for positive `num` and `den`: gradual underflow below the
normal range, infinity above it (R9, R10). The unit of the last place is `2^t`; the magnitude bits of `q · 2^t` are
`(t + 1074) · 2^52 + q`, in which a carry out of `q` enters the exponent field. -/
def roundRatio (neg : Bool) (num den : Nat) (exp : Int) : F64 :=
  let t : Int := max (floorLog2 num den + exp - 52) (-1074)
  let n := num <<< (exp - t).toNat
  let d := den <<< (t - exp).toNat
  let q := roundNearestEven (n / d) (n % d) d
  pack neg (min ((t + 1074).toNat * 2 ^ 52 + q) infMagnitude)

/-! ### The operations; none is a result that is a NaN -/

/-- `± m` as an integer. -/
def signedInt (neg : Bool) (m : Nat) : Int := if neg then -(m : Int) else m

/-- `a + b` (R9). -/
def addCore (a b : F64) : Option F64 :=
  match datum a, datum b with
  | .nan, _ => none
  | _, .nan => none
  | .inf n, .inf m => if n = m then some (infinity n) else none
  | .inf n, .fin _ _ _ => some (infinity n)
  | .fin _ _ _, .inf m => some (infinity m)
  | .fin n1 m1 e1, .fin n2 m2 e2 =>
    let e := min e1 e2
    let sum := signedInt n1 (m1 <<< (e1 - e).toNat) + signedInt n2 (m2 <<< (e2 - e).toNat)
    if sum = 0 then some (signedZero (n1 && n2)) else some (roundRatio (sum < 0) sum.natAbs 1 e)

/-- `−v`: the sign bit flipped, exact (R9; of a NaN too, log entry 12). -/
def neg (v : F64) : F64 := v ^^^ 0x8000000000000000

/-- `a − b` (R9). -/
def subCore (a b : F64) : Option F64 := addCore a (neg b)

/-- `a · b` (R9). -/
def mulCore (a b : F64) : Option F64 :=
  match datum a, datum b with
  | .nan, _ => none
  | _, .nan => none
  | .inf n, .inf m => some (infinity (n ^^ m))
  | .inf n, .fin m k _ => if k = 0 then none else some (infinity (n ^^ m))
  | .fin n k _, .inf m => if k = 0 then none else some (infinity (n ^^ m))
  | .fin n1 m1 e1, .fin n2 m2 e2 =>
    if m1 * m2 = 0 then some (signedZero (n1 ^^ n2)) else some (roundRatio (n1 ^^ n2) (m1 * m2) 1 (e1 + e2))

/-- `a / b` (R9). -/
def divCore (a b : F64) : Option F64 :=
  match datum a, datum b with
  | .nan, _ => none
  | _, .nan => none
  | .inf _, .inf _ => none
  | .inf n, .fin m _ _ => some (infinity (n ^^ m))
  | .fin n _ _, .inf m => some (signedZero (n ^^ m))
  | .fin n1 m1 e1, .fin n2 m2 e2 =>
    if m2 = 0 then if m1 = 0 then none else some (infinity (n1 ^^ n2))
    else if m1 = 0 then some (signedZero (n1 ^^ n2))
    else some (roundRatio (n1 ^^ n2) m1 m2 (e1 - e2))

/-- `⌊√n⌋` for `n < 4^k`, bit by bit from the top. -/
def natSqrt (n : Nat) : Nat → Nat → Nat
  | 0, r => r
  | k + 1, r => natSqrt n k (if (r + 2 ^ k) * (r + 2 ^ k) ≤ n then r + 2 ^ k else r)

/-- `Sqrt(v)`, correctly rounded (R11). The root is found to at least 60 bits, with one more bit that says whether it is
inexact, and rounded once. -/
def sqrtCore (v : F64) : Option F64 :=
  match datum v with
  | .nan => none
  | .inf true => none
  | .inf false => some (infinity false)
  | .fin n m e =>
    if m = 0 then some (signedZero n)
    else if n then none
    else
      let odd := e % 2 = 1
      let square := (if odd then 2 * m else m) <<< 120
      let e' : Int := (if odd then e - 1 else e) - 120
      let r := natSqrt square 88 0
      some (roundRatio false (2 * r + if r * r = square then 0 else 1) 1 (e' / 2 - 1))

/-! ### Comparisons: quiet, false when an operand is a NaN, +0.0 = −0.0 (R9) -/

/-- The order of the non-NaN values as integers. -/
def orderKey (v : F64) : Int := signedInt (signBit v) (v.toNat % 2 ^ 63)

/-- `a < b`. -/
def lt (a b : F64) : Bool := !isNaN a && !isNaN b && decide (orderKey a < orderKey b)

/-- `a ≤ b`. -/
def le (a b : F64) : Bool := !isNaN a && !isNaN b && decide (orderKey a ≤ orderKey b)

/-- `a = b` on reals. -/
def feq (a b : F64) : Bool := !isNaN a && !isNaN b && decide (orderKey a = orderKey b)

/-! ### Constants: the literals of the rules, and the named constants of R12 -/

/-- 0.0 -/
def zero : F64 := 0x0000000000000000
/-- 0.25 -/
def quarter : F64 := 0x3FD0000000000000
/-- 0.5 -/
def half : F64 := 0x3FE0000000000000
/-- −0.5 -/
def negHalf : F64 := 0xBFE0000000000000
/-- 1.0 -/
def one : F64 := 0x3FF0000000000000
/-- 2.0 -/
def two : F64 := 0x4000000000000000
/-- −2.0 -/
def negTwo : F64 := 0xC000000000000000
/-- 4.0 -/
def four : F64 := 0x4010000000000000
/-- −4.0 -/
def negFour : F64 := 0xC010000000000000
/-- 10.0 -/
def ten : F64 := 0x4024000000000000
/-- 20.0 -/
def twenty : F64 := 0x4034000000000000
/-- 40.0 -/
def forty : F64 := 0x4044000000000000
/-- `PI` (R12) -/
def pi : F64 := 0x400921FB54442D18
/-- `SQRT2 = Sqrt(2.0)` (R12) -/
def sqrt2 : F64 := 0x3FF6A09E667F3BCD
/-- `Q_DEFAULT`, the binary64 nearest to 0.707 (R12) -/
def qDefault : F64 := 0x3FE69FBE76C8B439
/-- `CLAMP = (0.95 · PI) / 2.0` (R12; bits as 95_test_vectors.md L1.8 prints them) -/
def clamp : F64 := 0x3FF7E0485CDA5E0A
/-- `T_FLUSH`, the binary64 nearest to 1.175494351e-38 (R12) -/
def tFlush : F64 := 0x38100000000A639B

/-! ### Elementary functions: `P_MATHLIB`, held to R11(d) by `Config.MathLib.Accurate`, under R11(a) to (c) -/

/-- A library result: none if it is a NaN, whose bits are then a free value like any other (log entry 2). -/
def ofLib (r : F64) : Option F64 := if isNaN r then none else some r

/-- `Sin`: a NaN for a NaN (R11(c)); `Sin(±0.0) = ±0.0` (R11(b)). -/
def sinCore (v : F64) : Option F64 :=
  if isNaN v then none else if isZero v then some v else ofLib (Config.mathLib.sin v)

/-- `Cos`: `Cos(±0.0) = 1.0` (R11(b)). -/
def cosCore (v : F64) : Option F64 :=
  if isNaN v then none else if isZero v then some one else ofLib (Config.mathLib.cos v)

/-- `Tan`: `Tan(±0.0) = ±0.0` (R11(b)). -/
def tanCore (v : F64) : Option F64 :=
  if isNaN v then none else if isZero v then some v else ofLib (Config.mathLib.tan v)

/-- `Exp`: `Exp(±0.0) = 1.0`, `Exp(−∞) = +0.0` (R11(b)). -/
def expCore (v : F64) : Option F64 :=
  if isNaN v then none
  else if isZero v then some one
  else if v = infinity true then some zero
  else ofLib (Config.mathLib.exp v)

/-- `Cosh` (R11(c)). -/
def coshCore (v : F64) : Option F64 :=
  if isNaN v then none else ofLib (Config.mathLib.cosh v)

/-- `Log10` (R11(c)). -/
def log10Core (v : F64) : Option F64 :=
  if isNaN v then none else ofLib (Config.mathLib.log10 v)

/-- `Pow(v, p)`: `Pow(10.0, ±0.0) = 1.0`; `Pow(v, 0.5)` of a negative finite `v` is a NaN; `Pow(+0.0, 0.5) = +0.0`
(R11(a)). -/
def powCore (v p : F64) : Option F64 :=
  if isNaN v || isNaN p then none
  else if v = ten && isZero p then some one
  else if p = half && isFinite v && lt v zero then none
  else if p = half && v = zero then some zero
  else ofLib (Config.mathLib.pow v p)

/-! ### Free NaN values (R10) -/

/-- The NaN with the chosen sign (bit 52) and payload (bits 51:0); payload 0, which would be an infinity, stands for 1. Every
NaN is chosen by some `c`. -/
def nanOf (c : BitVec 53) : F64 :=
  pack c.msb (infMagnitude + if c.toNat % 2 ^ 52 = 0 then 1 else c.toNat % 2 ^ 52)

end Fp

/-- A computation that may draw free NaN values: it takes the index of the next one and gives it back advanced. -/
abbrev FpM := StateM Nat

namespace Fp

/-- Runs a computation from a free-value index: its result and the index after it. -/
def eval {α : Type} (m : FpM α) (n : Nat) : α × Nat := m n

/-- The value of one operation: its result, or for a NaN result the next free NaN (R10). -/
def settle (r : Option F64) : FpM F64 := fun n => (r.getD (nanOf (Config.nanChoice n)), n + 1)

/-- `a + b` -/
def add (a b : F64) : FpM F64 := settle (addCore a b)
/-- `a − b` -/
def sub (a b : F64) : FpM F64 := settle (subCore a b)
/-- `a · b` -/
def mul (a b : F64) : FpM F64 := settle (mulCore a b)
/-- `a / b` -/
def div (a b : F64) : FpM F64 := settle (divCore a b)
/-- `Sqrt(v)` -/
def sqrt (v : F64) : FpM F64 := settle (sqrtCore v)
/-- `Sin(v)` -/
def sin (v : F64) : FpM F64 := settle (sinCore v)
/-- `Cos(v)` -/
def cos (v : F64) : FpM F64 := settle (cosCore v)
/-- `Tan(v)` -/
def tan (v : F64) : FpM F64 := settle (tanCore v)
/-- `Exp(v)` -/
def exp (v : F64) : FpM F64 := settle (expCore v)
/-- `Cosh(v)` -/
def cosh (v : F64) : FpM F64 := settle (coshCore v)
/-- `Log10(v)` -/
def log10 (v : F64) : FpM F64 := settle (log10Core v)
/-- `Pow(v, p)` -/
def pow (v p : F64) : FpM F64 := settle (powCore v p)

end Fp

end Sys2Proof.Machine
end

