-- ==== Sys2Proof/Machine/State.lean ====
section
/-! DEFINITION. The state of one IIRBQ instance as plain data (10_state.md; 20_memory.md), its state after hardware reset, and
the reasons a step could stop. The core has no memory (R50), so there is none here. -/

namespace Sys2Proof.Machine

/-- The seven coefficients over a type of values: `c0` is the wet and `d0` the dry weight (R22, R23). The registers hold
binary64 values; the recurrences of Machine/Topologies.lean are written over any values. -/
structure CoefsOf (V : Type) where
  a0 : V
  a1 : V
  a2 : V
  b1 : V
  b2 : V
  c0 : V
  d0 : V
  deriving DecidableEq, Repr, Inhabited

/-- The four history slots over a type of values; what each holds depends on the topology (R24, R25). -/
structure HistoryOf (V : Type) where
  s1 : V
  s2 : V
  s3 : V
  s4 : V
  deriving DecidableEq, Repr, Inhabited

/-- The seven coefficient registers, written only as a whole (R22). -/
abbrev Coefs := CoefsOf F64

/-- The four history registers (R24). -/
abbrev History := HistoryOf F64

/-- One instance: its registers (R21 to R35), its two streams (R51 to R53), what it has received of an unfinished command
(R39, R65), its reset input (R235), and the model's own counter of free values. -/
structure State where
  /-- `A0, A1, A2, B1, B2, C0, D0` (R22) -/
  coef : Coefs
  /-- `S1, S2, S3, S4` (R24) -/
  hist : History
  /-- `TOPO`, 2 bits (R26) -/
  topo : Topology
  /-- `ALG` (R27) -/
  alg : BitVec 8
  /-- `FC` (R28) -/
  fc : F64
  /-- `Q` (R29) -/
  q : F64
  /-- `GAIN` (R30) -/
  gain : F64
  /-- `FS` (R31) -/
  fs : F64
  /-- `STATUS.DIRTY` (R33) -/
  dirty : Bool
  /-- `STATUS.PREPARED` (R34) -/
  prepared : Bool
  /-- `STATUS.CMDERR` (R35) -/
  cmderr : Bool
  /-- every word the host has written to the command stream, oldest first (R51) -/
  stream : List Word
  /-- the index in `stream` of the next unconsumed word, the core's program counter (R37) -/
  pos : Nat
  /-- how many words from `pos` on the instance has received of a command that is not complete (R39, R65; log entry 8) -/
  received : Nat
  /-- every word written to the response stream, oldest first; it only grows (R53) -/
  responses : List Word
  /-- the reset input RST is asserted (R235; log entry 7) -/
  rst : Bool
  /-- the model's own: the index of the next free NaN sign and payload (R10; log entry 1) -/
  nanIx : Nat
  deriving DecidableEq, Repr, Inhabited

/-- Why a step would stop with a fault: never. The core raises no exception, trap or fault of any kind, and every command,
from every state, has exactly one successor state (R215, 60_exceptions.md), so there is no constructor. -/
inductive Fault
  deriving DecidableEq, Repr

/-- Why a step would refuse. -/
inductive Refusal
  /-- An instruction without a meaning, named by its table mnemonic. Raised by an arm of `exec` only; no arm raises it now.
  Safe: the machine stops where the hardware goes on. -/
  | notModelled (mnemonic : String)
  deriving DecidableEq, Repr

/-- The machine right after hardware reset: every register at the value R40 (10_state.md) gives. The host has written nothing
yet, RST is deasserted and the free-value counter is 0 (log entries 1, 7, 9). -/
def State.reset : State where
  coef := ⟨0x3FF0000000000000, 0, 0, 0, 0, 0x3FF0000000000000, 0⟩
  hist := ⟨0, 0, 0, 0⟩
  topo := .direct
  alg := 1
  fc := 0x4059000000000000
  q := 0x3FE69FBE76C8B439
  gain := 0
  fs := 0x40E5888000000000
  dirty := true
  prepared := false
  cmderr := false
  stream := []
  pos := 0
  received := 0
  responses := []
  rst := false
  nanIx := 0

end Sys2Proof.Machine
end

