-- ==== Sys2Proof/Machine/Coefficients.lean ====
section
/-! DEFINITION. The coefficient engine `Derive` (43_coefficients.md). `P_COEF` is the spec's default, the reference formulas of
R152 to R181 (log entry 5). A formula takes exactly the parameters R183 lists for its code, and evaluates every operation in
the order its rule's parentheses give (R9). -/

namespace Sys2Proof.Machine

open Fp (zero quarter half negHalf one two negTwo four negFour ten twenty forty pi sqrt2 qDefault clamp
  add sub mul div neg sqrt sin cos tan exp cosh log10 pow lt le)

/-- The five filter coefficients that a formula gives (R150). -/
structure Taps where
  a0 : F64
  a1 : F64
  a2 : F64
  b1 : F64
  b2 : F64
  deriving DecidableEq, Repr, Inhabited

/-- `theta2 = ((2.0 · PI) · fc) / fs`, the cutoff angle. -/
def theta2 (fc fs : F64) : FpM F64 := do
  div (← mul (← mul two pi) fc) fs

/-- `theta1 = (PI · fc) / fs`, the pre-warp angle. -/
def theta1 (fc fs : F64) : FpM F64 := do
  div (← mul pi fc) fs

/-- The bandwidth angle `(PI · (fc / Q)) / fs`, clamped to at most CLAMP; a NaN is not clamped (R162, R163, R173). -/
def bandwidthAngle (fc q fs : F64) : FpM F64 := do
  let angle ← div (← mul pi (← div fc q)) fs
  return if le clamp angle then clamp else angle

/-- `MatchedPoles(theta, Q)`: the feedback pair `(pb1, pb2)` (R152). -/
def matchedPoles (theta q : F64) : FpM (F64 × F64) := do
  let qd ← div one (← mul two q)
  let pb2 ← exp (← mul (← mul negTwo qd) theta)
  let scale ← mul negTwo (← exp (← mul (neg qd) theta))
  let pb1 ←
    if le qd one then do
      mul scale (← cos (← mul (← pow (← sub one (← mul qd qd)) half) theta))
    else do
      mul scale (← cosh (← mul (← pow (← sub (← mul qd qd) one) half) theta))
  return (pb1, pb2)

/-! ### One-pole designs -/

/-- Code 0, LPF1P (R153). -/
def designLpf1p (fc fs : F64) : FpM Taps := do
  let theta ← theta2 fc fs
  let gamma ← sub two (← cos theta)
  let b1 ← sub (← pow (← sub (← mul gamma gamma) one) half) gamma
  let a0 ← add one b1
  return ⟨a0, zero, zero, b1, zero⟩

/-- `Cos(theta) / (1.0 + Sin(theta))`, the `gamma` of R154 and R155. -/
def onePoleGamma (fc fs : F64) : FpM F64 := do
  let theta ← theta2 fc fs
  div (← cos theta) (← add one (← sin theta))

/-- Code 1, LPF1 (R154). -/
def designLpf1 (fc fs : F64) : FpM Taps := do
  let gamma ← onePoleGamma fc fs
  let a0 ← div (← sub one gamma) two
  let a1 ← div (← sub one gamma) two
  return ⟨a0, a1, zero, neg gamma, zero⟩

/-- Code 2, HPF1 (R155). -/
def designHpf1 (fc fs : F64) : FpM Taps := do
  let gamma ← onePoleGamma fc fs
  let a0 ← div (← add one gamma) two
  let a1 := neg (← div (← add one gamma) two)
  return ⟨a0, a1, zero, neg gamma, zero⟩

/-! ### Two-pole constant-peak-gain designs -/

/-- `beta` and `gamma` of R156 and R157. -/
def betaGamma (fc q fs : F64) : FpM (F64 × F64) := do
  let theta ← theta2 fc fs
  let d ← div one q
  let betaNum ← sub one (← mul (← div d two) (← sin theta))
  let betaDen ← add one (← mul (← div d two) (← sin theta))
  let beta ← mul half (← div betaNum betaDen)
  let gamma ← mul (← add half beta) (← cos theta)
  return (beta, gamma)

/-- Code 3, LPF2 (R156). -/
def designLpf2 (fc q fs : F64) : FpM Taps := do
  let (beta, gamma) ← betaGamma fc q fs
  let alpha ← div (← sub (← add half beta) gamma) two
  let a1 ← mul two alpha
  let b1 ← mul negTwo gamma
  let b2 ← mul two beta
  return ⟨alpha, a1, alpha, b1, b2⟩

/-- Code 4, HPF2 (R157). -/
def designHpf2 (fc q fs : F64) : FpM Taps := do
  let (beta, gamma) ← betaGamma fc q fs
  let alpha ← div (← add (← add half beta) gamma) two
  let a1 ← mul negTwo alpha
  let b1 ← mul negTwo gamma
  let b2 ← mul two beta
  return ⟨alpha, a1, alpha, b1, b2⟩

/-- `delta = ((K · K) · Q + K) + Q` of R158 and R159. -/
def bandDelta (k q : F64) : FpM F64 := do
  add (← add (← mul (← mul k k) q) k) q

/-- `((2.0 · Q) · (K · K − 1.0)) / delta` of R158 and R159. -/
def bandB1 (k q delta : F64) : FpM F64 := do
  div (← mul (← mul two q) (← sub (← mul k k) one)) delta

/-- `(((K · K) · Q − K) + Q) / delta` of R158 and R159. -/
def bandB2 (k q delta : F64) : FpM F64 := do
  div (← add (← sub (← mul (← mul k k) q) k) q) delta

/-- Code 5, BPF2 (R158). -/
def designBpf2 (fc q fs : F64) : FpM Taps := do
  let k ← tan (← theta1 fc fs)
  let delta ← bandDelta k q
  let a0 ← div k delta
  let a2 ← div (neg k) delta
  let b1 ← bandB1 k q delta
  let b2 ← bandB2 k q delta
  return ⟨a0, zero, a2, b1, b2⟩

/-- Code 6, BSF2 (R159). -/
def designBsf2 (fc q fs : F64) : FpM Taps := do
  let k ← tan (← theta1 fc fs)
  let delta ← bandDelta k q
  let a0 ← div (← mul q (← add one (← mul k k))) delta
  let a1 ← bandB1 k q delta
  let a2 ← div (← mul q (← add one (← mul k k))) delta
  let b1 ← bandB1 k q delta
  let b2 ← bandB2 k q delta
  return ⟨a0, a1, a2, b1, b2⟩

/-! ### Butterworth designs -/

/-- `1.0 / ((1.0 + SQRT2 · C) + C · C)` of R160 and R161. -/
def butterA0 (c : F64) : FpM F64 := do
  div one (← add (← add one (← mul sqrt2 c)) (← mul c c))

/-- `a0 · ((1.0 − SQRT2 · C) + C · C)` of R160 and R161. -/
def butterB2 (a0 c : F64) : FpM F64 := do
  mul a0 (← add (← sub one (← mul sqrt2 c)) (← mul c c))

/-- Code 7, ButterLPF2 (R160). -/
def designButterLpf2 (fc fs : F64) : FpM Taps := do
  let c ← div one (← tan (← theta1 fc fs))
  let a0 ← butterA0 c
  let a1 ← mul two a0
  let b1 ← mul (← mul two a0) (← sub one (← mul c c))
  let b2 ← butterB2 a0 c
  return ⟨a0, a1, a0, b1, b2⟩

/-- Code 8, ButterHPF2 (R161). -/
def designButterHpf2 (fc fs : F64) : FpM Taps := do
  let c ← tan (← theta1 fc fs)
  let a0 ← butterA0 c
  let a1 ← mul negTwo a0
  let b1 ← mul (← mul two a0) (← sub (← mul c c) one)
  let b2 ← butterB2 a0 c
  return ⟨a0, a1, a0, b1, b2⟩

/-- Code 9, ButterBPF2, with the bandwidth angle clamped (R162). -/
def designButterBpf2 (fc q fs : F64) : FpM Taps := do
  let theta ← theta2 fc fs
  let deltaC ← bandwidthAngle fc q fs
  let c ← div one (← tan deltaC)
  let d ← mul two (← cos theta)
  let a0 ← div one (← add one c)
  let b1 ← mul (neg a0) (← mul c d)
  let b2 ← mul a0 (← sub c one)
  return ⟨a0, zero, neg a0, b1, b2⟩

/-- Code 10, ButterBSF2, with the bandwidth angle clamped (R163). -/
def designButterBsf2 (fc q fs : F64) : FpM Taps := do
  let theta ← theta2 fc fs
  let deltaC ← bandwidthAngle fc q fs
  let c ← tan deltaC
  let d ← mul two (← cos theta)
  let a0 ← div one (← add one c)
  let a1 ← mul (neg a0) d
  let b1 ← mul (neg a0) d
  let b2 ← mul a0 (← sub one c)
  return ⟨a0, a1, a0, b1, b2⟩

/-! ### Resonant lowpass designs -/

/-- `rdB` of R164: the resonance peak in dB, 0 unless `Q > Q_DEFAULT`. -/
def resonanceDb (q : F64) : FpM F64 :=
  if lt qDefault q then do
    let peak ← div (← mul q q) (← pow (← sub (← mul q q) quarter) half)
    mul twenty (← log10 peak)
  else return zero

/-- `res` of R164. -/
def resonance (theta rdB : F64) : FpM F64 := do
  let num ← add (← cos theta) (← mul (← sin theta) (← sqrt (← sub (← pow ten (← div rdB ten)) one)))
  let den ← add (← mul (← pow ten (← div rdB twenty)) (← sin theta)) one
  div num den

/-- The coefficients of R164 from `theta`, `res` and the gain compensation `gc`. -/
def mmaTaps (theta res gc : F64) : FpM Taps := do
  let b1 ← mul (← mul negTwo res) (← cos theta)
  let b2 ← mul res res
  let a0 ← mul gc (← add (← add one b1) b2)
  return ⟨a0, zero, zero, b1, b2⟩

/-- Code 11, MMALPF2 (R164). -/
def designMmaLpf2 (fc q fs : F64) : FpM Taps := do
  let theta ← theta2 fc fs
  let rdB ← resonanceDb q
  let res ← resonance theta rdB
  let gc ← pow ten (← div (neg rdB) forty)
  mmaTaps theta res gc

/-- Code 12, MMALPF2B, without gain compensation (R165). -/
def designMmaLpf2b (fc q fs : F64) : FpM Taps := do
  let theta ← theta2 fc fs
  let rdB ← resonanceDb q
  let res ← resonance theta rdB
  mmaTaps theta res one

/-! ### Shelving and parametric designs -/

/-- `mu = Pow(10.0, g / 20.0)` (R151). -/
def linearGain (g : F64) : FpM F64 := do
  pow ten (← div g twenty)

/-- `(1.0 − delta) / (1.0 + delta)` with `delta = beta · Tan(theta / 2.0)`, the `gamma` of R166 and R167. -/
def shelfGamma (theta beta : F64) : FpM F64 := do
  let delta ← mul beta (← tan (← div theta two))
  div (← sub one delta) (← add one delta)

/-- Code 13, LowShelf (R166). -/
def designLowShelf (fc g fs : F64) : FpM Taps := do
  let theta ← theta2 fc fs
  let mu ← linearGain g
  let beta ← div four (← add one mu)
  let gamma ← shelfGamma theta beta
  let a0 ← div (← sub one gamma) two
  let a1 ← div (← sub one gamma) two
  return ⟨a0, a1, zero, neg gamma, zero⟩

/-- Code 14, HiShelf (R167). -/
def designHiShelf (fc g fs : F64) : FpM Taps := do
  let theta ← theta2 fc fs
  let mu ← linearGain g
  let beta ← div (← add one mu) four
  let gamma ← shelfGamma theta beta
  let a0 ← div (← add one gamma) two
  return ⟨a0, neg a0, zero, neg gamma, zero⟩

/-- Code 15, NCQParaEQ, with its tangent argument clamped (R168). -/
def designNcqParaEq (fc q g fs : F64) : FpM Taps := do
  let theta ← theta2 fc fs
  let mu ← linearGain g
  let tanArg ← div theta (← mul two q)
  let tanArg := if le clamp tanArg then clamp else tanArg
  let zeta ← div four (← add one mu)
  let betaNum ← sub one (← mul zeta (← tan tanArg))
  let betaDen ← add one (← mul zeta (← tan tanArg))
  let beta ← mul half (← div betaNum betaDen)
  let gamma ← mul (← add half beta) (← cos theta)
  let alpha ← sub half beta
  let b1 ← mul negTwo gamma
  let b2 ← mul two beta
  return ⟨alpha, zero, neg alpha, b1, b2⟩

/-- `(1.0 + r · K) + K · K` of R169. -/
def eqPlus (r k : F64) : FpM F64 := do
  add (← add one (← mul r k)) (← mul k k)

/-- `(1.0 − r · K) + K · K` of R169. -/
def eqMinus (r k : F64) : FpM F64 := do
  add (← sub one (← mul r k)) (← mul k k)

/-- Code 16, CQParaEQ: the boost path for `g ≥ 0`, the cut path otherwise (R169). -/
def designCqParaEq (fc q g fs : F64) : FpM Taps := do
  let k ← tan (← theta1 fc fs)
  let vo ← linearGain g
  let d0c ← eqPlus (← div one q) k
  let e0c ← eqPlus (← div one (← mul vo q)) k
  let alpha ← eqPlus (← div vo q) k
  let beta ← mul two (← sub (← mul k k) one)
  let gamma ← eqMinus (← div vo q) k
  let delta ← eqMinus (← div one q) k
  let eta ← eqMinus (← div one (← mul vo q)) k
  if le zero g then do
    return ⟨← div alpha d0c, ← div beta d0c, ← div gamma d0c, ← div beta d0c, ← div delta d0c⟩
  else do
    return ⟨← div d0c e0c, ← div beta e0c, ← div delta e0c, ← div beta e0c, ← div eta e0c⟩

/-! ### Linkwitz-Riley designs -/

/-- `omegaC`, `k` and `den`, `b1 = b1Num / den`, `b2 = b2Num / den` of R170 and R171. -/
structure LinkwitzRiley where
  omegaC : F64
  k : F64
  den : F64
  b1 : F64
  b2 : F64
  deriving DecidableEq, Repr

/-- The part that R170 and R171 share. -/
def linkwitzRiley (fc fs : F64) : FpM LinkwitzRiley := do
  let omegaC ← mul pi fc
  let thetaC ← theta1 fc fs
  let k ← div omegaC (← tan thetaC)
  let den ← add (← add (← mul k k) (← mul omegaC omegaC)) (← mul (← mul two k) omegaC)
  let b1Num ← add (← mul (← mul negTwo k) k) (← mul (← mul two omegaC) omegaC)
  let b2Num ← add (← add (← mul (← mul negTwo k) omegaC) (← mul k k)) (← mul omegaC omegaC)
  let b1 ← div b1Num den
  let b2 ← div b2Num den
  return ⟨omegaC, k, den, b1, b2⟩

/-- Code 17, LWRLPF2 (R170). -/
def designLwrLpf2 (fc fs : F64) : FpM Taps := do
  let r ← linkwitzRiley fc fs
  let a0 ← div (← mul r.omegaC r.omegaC) r.den
  let a1 ← div (← mul (← mul two r.omegaC) r.omegaC) r.den
  return ⟨a0, a1, a0, r.b1, r.b2⟩

/-- Code 18, LWRHPF2 (R171). -/
def designLwrHpf2 (fc fs : F64) : FpM Taps := do
  let r ← linkwitzRiley fc fs
  let a0 ← div (← mul r.k r.k) r.den
  let a1 ← div (← mul (← mul negTwo r.k) r.k) r.den
  return ⟨a0, a1, a0, r.b1, r.b2⟩

/-! ### All-pass and resonator designs -/

/-- `(Tan(v) − 1.0) / (Tan(v) + 1.0)`, the `alpha` of R172 and R173. -/
def allPassAlpha (v : F64) : FpM F64 := do
  let num ← sub (← tan v) one
  let den ← add (← tan v) one
  div num den

/-- Code 19, APF1 (R172). -/
def designApf1 (fc fs : F64) : FpM Taps := do
  let alpha ← allPassAlpha (← theta1 fc fs)
  return ⟨alpha, one, zero, alpha, zero⟩

/-- Code 20, APF2, with its tangent argument clamped (R173). -/
def designApf2 (fc q fs : F64) : FpM Taps := do
  let theta ← theta2 fc fs
  let argTan ← bandwidthAngle fc q fs
  let alpha ← allPassAlpha argTan
  let beta := neg (← cos theta)
  let a1 ← mul beta (← sub one alpha)
  let b1 ← mul beta (← sub one alpha)
  return ⟨neg alpha, a1, one, b1, neg alpha⟩

/-- `rb1` and `rb2` of R174 and R175. -/
def resonPoles (fc q fs : F64) : FpM (F64 × F64) := do
  let theta ← theta2 fc fs
  let rb2 ← exp (← mul (← mul negTwo pi) (← div (← div fc q) fs))
  let rb1 ← mul (← div (← mul negFour rb2) (← add one rb2)) (← cos theta)
  return (rb1, rb2)

/-- Code 21, ResonA (R174). -/
def designResonA (fc q fs : F64) : FpM Taps := do
  let (rb1, rb2) ← resonPoles fc q fs
  let a0 ← mul (← sub one rb2) (← pow (← sub one (← div (← mul rb1 rb1) (← mul four rb2))) half)
  return ⟨a0, zero, zero, rb1, rb2⟩

/-- Code 22, ResonB (R175). -/
def designResonB (fc q fs : F64) : FpM Taps := do
  let (rb1, rb2) ← resonPoles fc q fs
  let a0 ← sub one (← pow rb2 half)
  return ⟨a0, zero, neg a0, rb1, rb2⟩

/-! ### Matched (Vicanek) designs -/

/-- What R176 and R178 compute from the poles and `theta`. -/
structure MatchEnergy where
  b0 : F64
  b1 : F64
  b2 : F64
  phi0 : F64
  phi1 : F64
  phi2 : F64
  deriving DecidableEq, Repr

/-- `B0, B1, B2, phi0, phi1, phi2` of R176 and R178, from the pole pair `(b1, b2)`. -/
def matchEnergy (theta b1 b2 : F64) : FpM MatchEnergy := do
  let e0 ← mul (← add (← add one b1) b2) (← add (← add one b1) b2)
  let e1 ← mul (← add (← sub one b1) b2) (← add (← sub one b1) b2)
  let e2 ← mul negFour b2
  let sn ← sin (← div theta two)
  let phi0 ← sub one (← mul sn sn)
  let phi1 ← mul sn sn
  let phi2 ← mul (← mul four phi0) phi1
  return ⟨e0, e1, e2, phi0, phi1, phi2⟩

/-- `((B0 · phi0) + (B1 · phi1)) + (B2 · phi2)` of R176 and R178. -/
def matchSum (m : MatchEnergy) : FpM F64 := do
  add (← add (← mul m.b0 m.phi0) (← mul m.b1 m.phi1)) (← mul m.b2 m.phi2)

/-- `Pow(((1.0 − f0 · f0) · (1.0 − f0 · f0)) + (f0 · f0) / (Q · Q), 0.5)` of R177 and R179. -/
def matchDen (f0 q : F64) : FpM F64 := do
  let square ← mul (← sub one (← mul f0 f0)) (← sub one (← mul f0 f0))
  pow (← add square (← div (← mul f0 f0) (← mul q q))) half

/-- `if v < 0.0 then +0.0`: the negative-value clamps of R176. -/
def clampNegative (v : F64) : F64 := if lt v zero then zero else v

/-- Code 23, MatchLP2A, the tight lowpass fit (R176). -/
def designMatchLp2a (fc q fs : F64) : FpM Taps := do
  let theta ← theta2 fc fs
  let (b1, b2) ← matchedPoles theta q
  let m ← matchEnergy theta b1 b2
  let r1 ← mul (← matchSum m) (← mul q q)
  let big0 := m.b0
  let big1 ← div (← sub r1 (← mul big0 m.phi0)) m.phi1
  let big0 := clampNegative big0
  let big1 := clampNegative big1
  let a0 ← mul half (← add (← pow big0 half) (← pow big1 half))
  let a1 ← sub (← pow big0 half) a0
  return ⟨a0, a1, zero, b1, b2⟩

/-- Code 24, MatchLP2B, the loose lowpass fit (R177). -/
def designMatchLp2b (fc q fs : F64) : FpM Taps := do
  let theta ← theta2 fc fs
  let (b1, b2) ← matchedPoles theta q
  let f0 ← div theta pi
  let r0 ← add (← add one b1) b2
  let den ← matchDen f0 q
  let r1 ← div (← mul (← mul (← add (← sub one b1) b2) f0) f0) den
  let a0 ← div (← add r0 r1) two
  let a1 ← sub r0 a0
  return ⟨a0, a1, zero, b1, b2⟩

/-- Code 25, MatchBP2A, the tight bandpass fit (R178). -/
def designMatchBp2a (fc q fs : F64) : FpM Taps := do
  let theta ← theta2 fc fs
  let (b1, b2) ← matchedPoles theta q
  let m ← matchEnergy theta b1 b2
  let r1 ← matchSum m
  let r2 ← add (← add (neg m.b0) m.b1) (← mul (← mul four (← sub m.phi0 m.phi1)) m.b2)
  let big2 ← div (← sub r1 (← mul r2 m.phi1)) (← mul (← mul four m.phi1) m.phi1)
  let big1 ← add r2 (← mul (← mul four (← sub m.phi1 m.phi0)) big2)
  let a1 ← mul negHalf (← pow big1 half)
  let a0 ← mul half (← sub (← pow (← add big2 (← mul a1 a1)) half) a1)
  let a2 ← sub (neg a0) a1
  return ⟨a0, a1, a2, b1, b2⟩

/-- Code 26, MatchBP2B, the loose bandpass fit (R179). -/
def designMatchBp2b (fc q fs : F64) : FpM Taps := do
  let theta ← theta2 fc fs
  let (b1, b2) ← matchedPoles theta q
  let f0 ← div theta pi
  let r0 ← div (← add (← add one b1) b2) (← mul (← mul pi f0) q)
  let den ← matchDen f0 q
  let r1 ← div (← mul (← add (← sub one b1) b2) (← div f0 q)) den
  let a1 ← div (neg r1) two
  let a0 ← div (← sub r0 a1) two
  let a2 ← sub (neg a0) a1
  return ⟨a0, a1, a2, b1, b2⟩

/-! ### Impulse-invariant designs -/

/-- Code 27, ImpInvLP1 (R180). -/
def designImpInvLp1 (fc fs : F64) : FpM Taps := do
  let t ← div one fs
  let omega ← mul (← mul two pi) fc
  let eT ← exp (← mul (neg t) omega)
  let a0 ← sub one eT
  return ⟨a0, zero, zero, neg eT, zero⟩

/-- Code 28, ImpInvLP2 (R181). -/
def designImpInvLp2 (fc q fs : F64) : FpM Taps := do
  let al ← theta2 fc fs
  let pRe ← div (neg al) (← mul two q)
  let zeta ← div one (← mul two q)
  let r ← pow (← sub one (← mul zeta zeta)) half
  let pIm ← mul al r
  let cIm ← div al (← mul two r)
  let eP ← exp pRe
  let a1 ← mul (← mul two (← mul cIm (← sin pIm))) eP
  let b1 ← mul (← mul negTwo eP) (← cos pIm)
  let b2 ← mul eP eP
  return ⟨zero, a1, zero, b1, b2⟩

/-! ### The frame -/

/-- `Formula_alg`, `P_COEF`'s reference instantiation (R153 to R181). -/
def formula (alg : Algorithm) (fc q g fs : F64) : FpM Taps :=
  match alg with
  | .lpf1p => designLpf1p fc fs
  | .lpf1 => designLpf1 fc fs
  | .hpf1 => designHpf1 fc fs
  | .lpf2 => designLpf2 fc q fs
  | .hpf2 => designHpf2 fc q fs
  | .bpf2 => designBpf2 fc q fs
  | .bsf2 => designBsf2 fc q fs
  | .butterLpf2 => designButterLpf2 fc fs
  | .butterHpf2 => designButterHpf2 fc fs
  | .butterBpf2 => designButterBpf2 fc q fs
  | .butterBsf2 => designButterBsf2 fc q fs
  | .mmaLpf2 => designMmaLpf2 fc q fs
  | .mmaLpf2b => designMmaLpf2b fc q fs
  | .lowShelf => designLowShelf fc g fs
  | .hiShelf => designHiShelf fc g fs
  | .ncqParaEq => designNcqParaEq fc q g fs
  | .cqParaEq => designCqParaEq fc q g fs
  | .lwrLpf2 => designLwrLpf2 fc fs
  | .lwrHpf2 => designLwrHpf2 fc fs
  | .apf1 => designApf1 fc fs
  | .apf2 => designApf2 fc q fs
  | .resonA => designResonA fc q fs
  | .resonB => designResonB fc q fs
  | .matchLp2a => designMatchLp2a fc q fs
  | .matchLp2b => designMatchLp2b fc q fs
  | .matchBp2a => designMatchBp2a fc q fs
  | .matchBp2b => designMatchBp2b fc q fs
  | .impInvLp1 => designImpInvLp1 fc fs
  | .impInvLp2 => designImpInvLp2 fc q fs

/-- The codes whose wet/dry pair is overridden: LowShelf, HiShelf and NCQParaEQ, and CQParaEQ under `P_CQ_MIX = DOC`
(R150, R151). -/
def overridesMix (cq : CqMix) : Algorithm → Bool
  | .lowShelf | .hiShelf | .ncqParaEq => true
  | .cqParaEq => cq == .doc
  | _ => false

/-- The wet/dry pair: `(mu − 1.0, 1.0)` where it is overridden, `(1.0, +0.0)` otherwise (R151). -/
def mixOf (cq : CqMix) (alg : Algorithm) (g : F64) : FpM (F64 × F64) :=
  if overridesMix cq alg then do
    let mu ← linearGain g
    return (← sub mu one, one)
  else return (one, zero)

/-- The pass-through set of an unrecognized code (R150, R182). -/
def passThrough : Coefs := ⟨one, zero, zero, zero, zero, one, zero⟩

/-- `Derive(alg, fc, q, g, fs)` under a reading of `P_CQ_MIX` (R150). -/
def deriveWith (cq : CqMix) (alg : BitVec 8) (fc q g fs : F64) : FpM Coefs :=
  match Algorithm.ofCode? alg with
  | none => return passThrough
  | some a => do
    let t ← formula a fc q g fs
    let (wet, dry) ← mixOf cq a g
    return ⟨t.a0, t.a1, t.a2, t.b1, t.b2, wet, dry⟩

/-- `Derive(alg, fc, q, g, fs)` (R150). -/
def derive (alg : BitVec 8) (fc q g fs : F64) : FpM Coefs := deriveWith Config.cqMix alg fc q g fs

end Sys2Proof.Machine
end

