-- ==== Sys2Proof/Machine/Flags.lean ====
section
/-! DEFINITION. The three STATUS bits: how each is written, and the STATUS register as a view of them (R32 to R35, R122). No
other flag exists, and no arithmetic writes one (R38). -/

namespace Sys2Proof.Machine

/-- A setter's effect on DIRTY: set when the stored value changes, never cleared (R33, R122). -/
def markChanged (changed : Bool) (s : State) : State := { s with dirty := s.dirty || changed }

/-- `DIRTY <- 0`, the end of `Recompute()` (R120). -/
def clearDirty (s : State) : State := { s with dirty := false }

/-- `PREPARED <- 1` (R34, R123). -/
def setPrepared (s : State) : State := { s with prepared := true }

/-- `CMDERR <- 1` (R35, R201, R202). -/
def setCmderr (s : State) : State := { s with cmderr := true }

/-- `CMDERR <- 0` (R203). -/
def clearCmderr (s : State) : State := { s with cmderr := false }

/-- STATUS, a read-only view: `zext_64({CMDERR, PREPARED, DIRTY})` (R32, R202). -/
def statusWord (s : State) : F64 :=
  (BitVec.ofBool s.cmderr ++ BitVec.ofBool s.prepared ++ BitVec.ofBool s.dirty).setWidth 64

end Sys2Proof.Machine
end

