-- ==== Sys2Proof/Machine/Topologies.lean ====
section
/-! DEFINITION. `BiquadStep` and the four topologies (R94 to R100, 41_biquad.md). The recurrences are written once, over an
arithmetic; the machine runs them over binary64. -/

namespace Sys2Proof.Machine

/-- What a recurrence computes with. -/
structure Arith (V : Type) where
  add : V → V → FpM V
  sub : V → V → FpM V
  mul : V → V → FpM V
  neg : V → V
  flush : V → V

variable {V : Type}

/-- Direct (R96): `y = (((a0·x + a1·s1) + a2·s2) − b1·s3) − b2·s4`; `S1, S2, S3, S4 <- x, s1, y, s3`. -/
def stepDirect (A : Arith V) (c : CoefsOf V) (h : HistoryOf V) (x : V) : FpM (V × HistoryOf V) := do
  let feedForward ← A.add (← A.add (← A.mul c.a0 x) (← A.mul c.a1 h.s1)) (← A.mul c.a2 h.s2)
  let y ← A.sub (← A.sub feedForward (← A.mul c.b1 h.s3)) (← A.mul c.b2 h.s4)
  let y := A.flush y
  return (y, ⟨x, h.s1, y, h.s3⟩)

/-- Canonical (R97): `w = (x − b1·s1) − b2·s2`; `y = (a0·w + a1·s1) + a2·s2`; `S1, S2 <- w, s1`. -/
def stepCanonical (A : Arith V) (c : CoefsOf V) (h : HistoryOf V) (x : V) : FpM (V × HistoryOf V) := do
  let w ← A.sub (← A.sub x (← A.mul c.b1 h.s1)) (← A.mul c.b2 h.s2)
  let y ← A.add (← A.add (← A.mul c.a0 w) (← A.mul c.a1 h.s1)) (← A.mul c.a2 h.s2)
  let y := A.flush y
  return (y, { h with s1 := w, s2 := h.s1 })

/-- TransposeDirect (R98), the convention that updates S3 and S4 with this step's `w`: `w = x + s3`; `y = a0·w + s1`;
`S3 <- s4 − b1·w`; `S4 <- −(b2·w)`; `S1 <- s2 + a1·w`; `S2 <- a2·w`. -/
def stepTransposeDirect (A : Arith V) (c : CoefsOf V) (h : HistoryOf V) (x : V) : FpM (V × HistoryOf V) := do
  let w ← A.add x h.s3
  let y ← A.add (← A.mul c.a0 w) h.s1
  let y := A.flush y
  let s3 ← A.sub h.s4 (← A.mul c.b1 w)
  let s4 := A.neg (← A.mul c.b2 w)
  let s1 ← A.add h.s2 (← A.mul c.a1 w)
  let s2 ← A.mul c.a2 w
  return (y, ⟨s1, s2, s3, s4⟩)

/-- TransposeCanonical (R99): `y = a0·x + s1`; `S1, S2 <- (a1·x − b1·y) + s2, a2·x − b2·y`, with the flushed `y`. -/
def stepTransposeCanonical (A : Arith V) (c : CoefsOf V) (h : HistoryOf V) (x : V) : FpM (V × HistoryOf V) := do
  let y ← A.add (← A.mul c.a0 x) h.s1
  let y := A.flush y
  let s1 ← A.add (← A.sub (← A.mul c.a1 x) (← A.mul c.b1 y)) h.s2
  let s2 ← A.sub (← A.mul c.a2 x) (← A.mul c.b2 y)
  return (y, { h with s1 := s1, s2 := s2 })

/-- `BiquadStep(x)` dispatches on TOPO (R95): the output and the new history. It reads the coefficients and the history at
its start and writes no coefficient (R94). -/
def stepTopology (A : Arith V) (t : Topology) (c : CoefsOf V) (h : HistoryOf V) (x : V) : FpM (V × HistoryOf V) :=
  match t with
  | .direct => stepDirect A c h x
  | .canonical => stepCanonical A c h x
  | .transposeDirect => stepTransposeDirect A c h x
  | .transposeCanonical => stepTransposeCanonical A c h x

/-- `Flush(y)` where flushing is on or off (R100). -/
def flushWith (on : Bool) (y : F64) : F64 :=
  if ((Fp.lt Fp.zero y && Fp.lt y Fp.tFlush) || (Fp.lt y Fp.zero && Fp.lt (Fp.neg Fp.tFlush) y)) && on then Fp.zero else y

/-- `Flush(y)` under `P_UNDERFLOW_FLUSH` (R100). -/
def flush (y : F64) : F64 := flushWith Config.underflowFlush y

/-- Binary64 arithmetic for the recurrences (R9). -/
def f64Arith : Arith F64 where
  add := Fp.add
  sub := Fp.sub
  mul := Fp.mul
  neg := Fp.neg
  flush := flush

/-- `BiquadStep(x)` on the machine's values (R95). -/
def biquadStep (t : Topology) (c : Coefs) (h : History) (x : F64) : FpM (F64 × History) :=
  stepTopology f64Arith t c h x

end Sys2Proof.Machine
end

