-- ==== Sys2Proof/Machine/Ops.lean ====
section
/-! DEFINITION. The operations that the command meanings share: fetching from the command stream, writing a response, clearing
the history, `Recompute()`, `BiquadStep` on the registers, the wet/dry mix, and the effect of an illegal command word. -/

namespace Sys2Proof.Machine

/-! ### The command stream (R37, R52, R65) -/

/-- The words the host has written and the instance has not consumed. -/
def unconsumed (s : State) : List Word := s.stream.drop s.pos

/-- What the decoder reads at the stream position. -/
def fetch (s : State) : Except DecodeError (Instr × List Word) := decode (unconsumed s)

/-- Consumes the `n` words of a command: the position advances by its length (R37, R73). -/
def consume (n : Nat) (s : State) : State := { s with pos := s.pos + n, received := 0 }

/-- Holds the words of a command that has arrived only in part: nothing else changes (R65). -/
def holdPartial (s : State) : State := { s with received := (unconsumed s).length }

/-- The effect of a command word whose opcode is unassigned (R201). -/
def illegalCommand (s : State) : State := setCmderr s

/-! ### The response stream (R53) -/

/-- `RespWrite(v)`: `v[31:0]`, then `v[63:32]`, at the end of the response stream. -/
def respWrite (v : F64) (s : State) : State := { s with responses := s.responses ++ operandWords v }

/-! ### Registers -/

/-- `S1, S2, S3, S4 <- +0.0` (R90, R123, R124). -/
def clearHistory (s : State) : State := { s with hist := ⟨Fp.zero, Fp.zero, Fp.zero, Fp.zero⟩ }

/-- Runs an arithmetic computation, drawing its free NaN values from the state's counter (R10; log entry 1). -/
def runFp {α : Type} (m : FpM α) (s : State) : α × State :=
  ((Fp.eval m s.nanIx).1, { s with nanIx := (Fp.eval m s.nanIx).2 })

/-- `Recompute()`: all seven coefficient registers from `Derive`, and `DIRTY <- 0` (R120). -/
def recompute (s : State) : State :=
  let r := runFp (derive s.alg s.fc s.q s.gain s.fs) s
  clearDirty { r.2 with coef := r.1 }

/-- `if DIRTY = 1 then Recompute()` (R129). -/
def recomputeIfDirty (s : State) : State := if s.dirty then recompute s else s

/-- `BiquadStep(x)` on the registers: the output, and the state with the new history (R94, R95). -/
def runBiquad (x : F64) (s : State) : F64 × State :=
  let r := runFp (biquadStep s.topo s.coef s.hist x) s
  (r.1.1, { r.2 with hist := r.1.2 })

/-- `(D0·x) + (C0·b)`: dry times the input plus wet times the biquad output (R129). -/
def mixDryWet (d0 c0 x b : F64) : FpM F64 := do
  Fp.add (← Fp.mul d0 x) (← Fp.mul c0 b)

/-- One sample through the filter: recompute if dirty, the biquad step, the mix with the coefficients in force (R129). -/
def runFilter (x : F64) (s : State) : F64 × State :=
  let b := runBiquad x (recomputeIfDirty s)
  runFp (mixDryWet b.2.coef.d0 b.2.coef.c0 x b.1) b.2

end Sys2Proof.Machine
end

