-- ==== Sys2Proof/Machine/Biquad.lean ====
section
/-! DEFINITION. The meanings of the biquad core commands BQ.RESET, BQ.SETCOEF, BQ.SETTOPO and BQ.PROCESS (R90 to R93,
41_biquad.md). -/

namespace Sys2Proof.Machine

/-- BQ.RESET: every history register becomes +0.0 (R90). -/
def execBqReset (s : State) : Host.Outcome State Fault Refusal := .next (clearHistory s)

/-- BQ.SETCOEF: the seven coefficient registers at once; DIRTY is not changed (R91). -/
def execBqSetcoef (a0 a1 a2 b1 b2 c0 d0 : F64) (s : State) : Host.Outcome State Fault Refusal :=
  .next { s with coef := ⟨a0, a1, a2, b1, b2, c0, d0⟩ }

/-- BQ.SETTOPO: `TOPO <- W[1:0]`; the history is kept (R92). -/
def execBqSettopo (t : Topology) (s : State) : Host.Outcome State Fault Refusal := .next { s with topo := t }

/-- BQ.PROCESS: one sample through the raw biquad, whatever DIRTY is and without the mix (R93). -/
def execBqProcess (x : F64) (s : State) : Host.Outcome State Fault Refusal :=
  let r := runBiquad x s
  .next (respWrite r.1 r.2)

end Sys2Proof.Machine
end

