-- ==== Sys2Proof/Machine/Operands.lean ====
section
/-! DEFINITION. The operand forms: a register number that RD.REG reads (R36, R202), and the value FLT.SETQ stores (R127). A
binary64 operand is used bit for bit (R74), an algorithm code and a topology code as they are (R125, R92). -/

namespace Sys2Proof.Machine

/-- The 64-bit image of a register: binary64 bits, or an unsigned value zero-extended (R36, R202). -/
def readReg (r : RegName) (s : State) : F64 :=
  match r with
  | .a0 => s.coef.a0
  | .a1 => s.coef.a1
  | .a2 => s.coef.a2
  | .b1 => s.coef.b1
  | .b2 => s.coef.b2
  | .c0 => s.coef.c0
  | .d0 => s.coef.d0
  | .s1 => s.hist.s1
  | .s2 => s.hist.s2
  | .s3 => s.hist.s3
  | .s4 => s.hist.s4
  | .alg => s.alg.setWidth 64
  | .fc => s.fc
  | .q => s.q
  | .gain => s.gain
  | .fs => s.fs
  | .topo => s.topo.code.setWidth 64
  | .status => statusWord s

/-- The value RD.REG returns for a register number: zero for an unassigned one (R202). -/
def readNumber (n : BitVec 8) (s : State) : F64 :=
  match RegName.ofNumber? n with
  | some r => readReg r s
  | none => 0

/-- A register number that names no register (R36). -/
def unassignedNumber (n : BitVec 8) : Bool := (RegName.ofNumber? n).isNone

/-- `if v ≤ 0.0 then Q_DEFAULT`: a NaN is stored as given (R127). -/
def substituteQ (v : F64) : F64 := if Fp.le v Fp.zero then Fp.qDefault else v

end Sys2Proof.Machine
end

