-- ==== Sys2Proof/Machine/Filter.lean ====
section
/-! DEFINITION. The meanings of the filter commands FLT.PREPARE, FLT.RESET, FLT.SETALG, FLT.SETFC, FLT.SETQ, FLT.SETGAIN and
FLT.PROCESS (R123 to R129, 42_filter.md). -/

namespace Sys2Proof.Machine

/-- FLT.PREPARE: store the sample rate, clear the history, recompute whatever DIRTY was, `PREPARED <- 1` (R123). -/
def execFltPrepare (fs : F64) (s : State) : Host.Outcome State Fault Refusal :=
  .next (setPrepared (recompute (clearHistory { s with fs := fs })))

/-- FLT.RESET: clear the history only (R124). -/
def execFltReset (s : State) : Host.Outcome State Fault Refusal := .next (clearHistory s)

/-- FLT.SETALG: any code 0 to 255; DIRTY if it differs from ALG (R125). -/
def execFltSetalg (code : BitVec 8) (s : State) : Host.Outcome State Fault Refusal :=
  .next { markChanged (code != s.alg) s with alg := code }

/-- FLT.SETFC: DIRTY if the bits differ from FC (R126). -/
def execFltSetfc (v : F64) (s : State) : Host.Outcome State Fault Refusal :=
  .next { markChanged (v != s.fc) s with fc := v }

/-- FLT.SETQ: the value after the `≤ 0` substitution; DIRTY if its bits differ from Q (R127). -/
def execFltSetq (v : F64) (s : State) : Host.Outcome State Fault Refusal :=
  let v := substituteQ v
  .next { markChanged (v != s.q) s with q := v }

/-- FLT.SETGAIN: DIRTY if the bits differ from GAIN, whatever ALG is (R128). -/
def execFltSetgain (v : F64) (s : State) : Host.Outcome State Fault Refusal :=
  .next { markChanged (v != s.gain) s with gain := v }

/-- FLT.PROCESS: recompute if dirty, then the biquad step, then the mix with the coefficients in force (R129). -/
def execFltProcess (x : F64) (s : State) : Host.Outcome State Fault Refusal :=
  let r := runFilter x s
  .next (respWrite r.1 r.2)

end Sys2Proof.Machine
end

