-- ==== Sys2Proof/Machine/SystemCmd.lean ====
section
/-! DEFINITION. The meanings of the system commands NOP, RD.REG and ERR.CLR (R200, R202, R203, 44_system.md). The illegal
command word (R201) is `illegalCommand`. -/

namespace Sys2Proof.Machine

/-- NOP: nothing (R200). -/
def execNop (s : State) : Host.Outcome State Fault Refusal := .next s

/-- RD.REG: one response, the register before the read; an unassigned number answers zero and sets CMDERR (R202). -/
def execRdReg (n : BitVec 8) (s : State) : Host.Outcome State Fault Refusal :=
  let s' := respWrite (readNumber n s) s
  .next (if unassignedNumber n then setCmderr s' else s')

/-- ERR.CLR: `CMDERR <- 0` (R203). -/
def execErrClr (s : State) : Host.Outcome State Fault Refusal := .next (clearCmderr s)

end Sys2Proof.Machine
end

