-- ==== Sys2Proof/Machine/Dispatch.lean ====
section
/-! DEFINITION. One arm per command. -/

namespace Sys2Proof.Machine

def exec (i : Instr) (s : State) : Host.Outcome State Fault Refusal :=
  match i with
  | .nop => Sys2Proof.Machine.execNop s
  | .bqReset => Sys2Proof.Machine.execBqReset s
  | .bqSetcoef a0 a1 a2 b1 b2 c0 d0 => Sys2Proof.Machine.execBqSetcoef a0 a1 a2 b1 b2 c0 d0 s
  | .bqSettopo t => Sys2Proof.Machine.execBqSettopo t s
  | .bqProcess x => Sys2Proof.Machine.execBqProcess x s
  | .fltPrepare fs => Sys2Proof.Machine.execFltPrepare fs s
  | .fltReset => Sys2Proof.Machine.execFltReset s
  | .fltSetalg code => Sys2Proof.Machine.execFltSetalg code s
  | .fltSetfc v => Sys2Proof.Machine.execFltSetfc v s
  | .fltSetq v => Sys2Proof.Machine.execFltSetq v s
  | .fltSetgain v => Sys2Proof.Machine.execFltSetgain v s
  | .fltProcess x => Sys2Proof.Machine.execFltProcess x s
  | .rdReg n => Sys2Proof.Machine.execRdReg n s
  | .errClr => Sys2Proof.Machine.execErrClr s

end Sys2Proof.Machine
end

