-- ==== Sys2Proof/Machine/Step.lean ====
section
/-! DEFINITION. One step of an instance: it takes one whole command off its command stream and executes it (R20, R52). -/

namespace Sys2Proof.Machine

/-- One step. While RST is asserted nothing executes (R235). Otherwise a whole assigned command is consumed and executed
(R52); an illegal command word is consumed and sets CMDERR (R201); and a command that has arrived only in part, or not at all,
is held and has no effect on any register (R65; log entry 6). -/
def step (s : State) : Host.Outcome State Fault Refusal :=
  if s.rst then .next s
  else
    match fetch s with
    | .ok (i, _) => exec i (consume i.length s)
    | .error (.unassignedOpcode _) => .next (illegalCommand (consume 1 s))
    | .error (.incomplete _ _) => .next (holdPartial s)

/-- `s` with the instruction whose table bits are `w` as the host's next words, and RST deasserted, so that the next step runs
exactly it. Words already consumed stay; words not yet consumed are replaced (log entry 9). -/
def State.withFetchWord (s : State) (nbits w : Nat) : State :=
  { s with
    stream := s.stream.take s.pos ++ tableWords nbits w
    pos := (s.stream.take s.pos).length
    received := 0
    rst := false }

end Sys2Proof.Machine
end

