-- ==== Sys2Proof/Machine/Assembler.lean ====
section
/-! DEFINITION. The assembler's command lines and pseudo-commands (R81, R82, 30_encoding.md): a line of text becomes the words
the host writes. It is host tooling; nothing of the core depends on it. -/

namespace Sys2Proof.Machine

namespace Asm

/-! ### Names (R75, R76, R77, R36) -/

/-- The mnemonic of a command, upper case (R75, R81). -/
def mnemonic : Opcode → String
  | .nop => "NOP"
  | .bqReset => "BQ.RESET"
  | .bqSetcoef => "BQ.SETCOEF"
  | .bqSettopo => "BQ.SETTOPO"
  | .bqProcess => "BQ.PROCESS"
  | .fltPrepare => "FLT.PREPARE"
  | .fltReset => "FLT.RESET"
  | .fltSetalg => "FLT.SETALG"
  | .fltSetfc => "FLT.SETFC"
  | .fltSetq => "FLT.SETQ"
  | .fltSetgain => "FLT.SETGAIN"
  | .fltProcess => "FLT.PROCESS"
  | .rdReg => "RD.REG"
  | .errClr => "ERR.CLR"

/-- The assembler name of a topology (R76). -/
def topologyName : Topology → String
  | .direct => "Direct"
  | .canonical => "Canonical"
  | .transposeDirect => "TransposeDirect"
  | .transposeCanonical => "TransposeCanonical"

/-- The name of an algorithm (R77). -/
def algorithmName : Algorithm → String
  | .lpf1p => "LPF1P"
  | .lpf1 => "LPF1"
  | .hpf1 => "HPF1"
  | .lpf2 => "LPF2"
  | .hpf2 => "HPF2"
  | .bpf2 => "BPF2"
  | .bsf2 => "BSF2"
  | .butterLpf2 => "ButterLPF2"
  | .butterHpf2 => "ButterHPF2"
  | .butterBpf2 => "ButterBPF2"
  | .butterBsf2 => "ButterBSF2"
  | .mmaLpf2 => "MMALPF2"
  | .mmaLpf2b => "MMALPF2B"
  | .lowShelf => "LowShelf"
  | .hiShelf => "HiShelf"
  | .ncqParaEq => "NCQParaEQ"
  | .cqParaEq => "CQParaEQ"
  | .lwrLpf2 => "LWRLPF2"
  | .lwrHpf2 => "LWRHPF2"
  | .apf1 => "APF1"
  | .apf2 => "APF2"
  | .resonA => "ResonA"
  | .resonB => "ResonB"
  | .matchLp2a => "MatchLP2A"
  | .matchLp2b => "MatchLP2B"
  | .matchBp2a => "MatchBP2A"
  | .matchBp2b => "MatchBP2B"
  | .impInvLp1 => "ImpInvLP1"
  | .impInvLp2 => "ImpInvLP2"

/-- The name of a register (R36). -/
def regText : RegName → String
  | .a0 => "A0"
  | .a1 => "A1"
  | .a2 => "A2"
  | .b1 => "B1"
  | .b2 => "B2"
  | .c0 => "C0"
  | .d0 => "D0"
  | .s1 => "S1"
  | .s2 => "S2"
  | .s3 => "S3"
  | .s4 => "S4"
  | .alg => "ALG"
  | .fc => "FC"
  | .q => "Q"
  | .gain => "GAIN"
  | .fs => "FS"
  | .topo => "TOPO"
  | .status => "STATUS"

/-- The thing of a list whose name is the given text. -/
def named {α : Type} (all : List α) (name : α → String) (cs : List Char) : Option α :=
  all.find? fun a => (name a).toList == cs

/-! ### Numbers -/

/-- The value of a digit, decimal or hexadecimal. -/
def digit? (c : Char) : Option Nat :=
  if '0' ≤ c ∧ c ≤ '9' then some (c.toNat - '0'.toNat)
  else if 'a' ≤ c ∧ c ≤ 'f' then some (c.toNat - 'a'.toNat + 10)
  else if 'A' ≤ c ∧ c ≤ 'F' then some (c.toNat - 'A'.toNat + 10)
  else none

/-- The number that a whole text of digits writes in a base. -/
def digits? (base : Nat) : List Char → Nat → Option Nat
  | [], acc => some acc
  | c :: cs, acc =>
    match digit? c with
    | some d => if d < base then digits? base cs (acc * base + d) else none
    | none => none

/-- An integer operand: decimal, or `0x` and hexadecimal digits. -/
def natural? (cs : List Char) : Option Nat :=
  match cs with
  | [] => none
  | '0' :: 'x' :: d :: ds => digits? 16 (d :: ds) 0
  | cs => digits? 10 cs 0

/-- An integer operand below a bound. -/
def bounded? (bound : Nat) (cs : List Char) : Option Nat :=
  match natural? cs with
  | some n => if n < bound then some n else none
  | none => none

/-- A decimal exponent: an optional sign and digits; no text at all is exponent 0. -/
def exponent? (cs : List Char) : Option Int :=
  match cs with
  | [] => some 0
  | _ :: '-' :: d :: ds => (digits? 10 (d :: ds) 0).map fun n => -(n : Int)
  | _ :: '+' :: d :: ds => (digits? 10 (d :: ds) 0).map fun n => (n : Int)
  | _ :: d :: ds => (digits? 10 (d :: ds) 0).map fun n => (n : Int)
  | [_] => none

/-- `c` begins a decimal exponent. -/
def isExponentMark (c : Char) : Bool := c == 'e' || c == 'E'

/-- `± digits · 10^scale` as the nearest binary64, ties to even (R81(a)). -/
def decimalValue (neg : Bool) (digits : Nat) (scale : Int) : F64 :=
  if digits = 0 then Fp.signedZero neg
  else Fp.roundRatio neg (digits * 10 ^ scale.toNat) (10 ^ (-scale).toNat) 0

/-- An unsigned decimal floating literal. -/
def decimal? (neg : Bool) (cs : List Char) : Option F64 :=
  let mantissa := cs.takeWhile fun c => !isExponentMark c
  let whole := mantissa.takeWhile fun c => c != '.'
  let fraction := (mantissa.drop whole.length).drop 1
  if (whole ++ fraction).isEmpty then none
  else
    match digits? 10 (whole ++ fraction) 0, exponent? (cs.drop mantissa.length) with
    | some m, some e => some (decimalValue neg m (e - fraction.length))
    | _, _ => none

/-- The quiet NaN that the literal `nan` writes (R81(a)). -/
def nanLiteral : F64 := 0x7FF8000000000000

/-- A real operand: `inf`, `-inf`, `nan`, `#0x` and 16 hexadecimal digits, or a decimal floating literal (R81(a)). -/
def real? (cs : List Char) : Option F64 :=
  if cs == "inf".toList then some (Fp.infinity false)
  else if cs == "-inf".toList then some (Fp.infinity true)
  else if cs == "nan".toList then some nanLiteral
  else
    match cs with
    | '#' :: '0' :: 'x' :: ds => if ds.length = 16 then (digits? 16 ds 0).map (BitVec.ofNat 64) else none
    | '-' :: ds => decimal? true ds
    | '+' :: ds => decimal? false ds
    | ds => decimal? false ds

/-- The topology operand: a name of R76 or an integer 0 to 3 (R81(b)). -/
def topology? (cs : List Char) : Option Topology :=
  match named [.direct, .canonical, .transposeDirect, .transposeCanonical] topologyName cs with
  | some t => some t
  | none => (bounded? 4 cs).map fun n => Topology.ofCode (BitVec.ofNat 2 n)

/-- The algorithm operand: a name of R77 or an integer 0 to 255 (R81(c)). -/
def algorithm? (cs : List Char) : Option (BitVec 8) :=
  match named Algorithm.all algorithmName cs with
  | some a => some a.code
  | none => (bounded? 256 cs).map (BitVec.ofNat 8)

/-- The register operand: a name of R36 or an integer 0 to 255 (R81(d)). -/
def register? (cs : List Char) : Option (BitVec 8) :=
  match named RegName.all regText cs with
  | some r => some r.number
  | none => (bounded? 256 cs).map (BitVec.ofNat 8)

/-! ### Commands and pseudo-commands -/

/-- The command of a mnemonic and its operands' text (R81). -/
def command? (o : Opcode) (ops : List (List Char)) : Option Instr :=
  match o, ops with
  | .nop, [] => some .nop
  | .bqReset, [] => some .bqReset
  | .bqSetcoef, [a0, a1, a2, b1, b2, c0, d0] => do
    return .bqSetcoef (← real? a0) (← real? a1) (← real? a2) (← real? b1) (← real? b2) (← real? c0) (← real? d0)
  | .bqSettopo, [t] => (topology? t).map .bqSettopo
  | .bqProcess, [x] => (real? x).map .bqProcess
  | .fltPrepare, [fs] => (real? fs).map .fltPrepare
  | .fltReset, [] => some .fltReset
  | .fltSetalg, [a] => (algorithm? a).map .fltSetalg
  | .fltSetfc, [v] => (real? v).map .fltSetfc
  | .fltSetq, [v] => (real? v).map .fltSetq
  | .fltSetgain, [v] => (real? v).map .fltSetgain
  | .fltProcess, [x] => (real? x).map .fltProcess
  | .rdReg, [r] => (register? r).map .rdReg
  | .errClr, [] => some .errClr
  | _, _ => none

/-- The five pseudo-commands of R82, with their operands. -/
inductive Pseudo
  | bqPass
  | fltConfig (alg : BitVec 8) (fc q g : F64)
  | fltStart (fs : F64) (alg : BitVec 8) (fc q g : F64)
  | rdStatus
  | rdCoef
  deriving DecidableEq, Repr

/-- The commands a pseudo-command stands for (R82). -/
def expand : Pseudo → List Instr
  | .bqPass => [.bqSetcoef Fp.one Fp.zero Fp.zero Fp.zero Fp.zero Fp.one Fp.zero]
  | .fltConfig alg fc q g => [.fltSetalg alg, .fltSetfc fc, .fltSetq q, .fltSetgain g]
  | .fltStart fs alg fc q g => [.fltSetalg alg, .fltSetfc fc, .fltSetq q, .fltSetgain g, .fltPrepare fs]
  | .rdStatus => [.rdReg RegName.status.number]
  | .rdCoef => [RegName.a0, .a1, .a2, .b1, .b2, .c0, .d0].map fun r => .rdReg r.number

/-- The pseudo-command of a name and its operands' text (R82). -/
def pseudo? (name : List Char) (ops : List (List Char)) : Option Pseudo :=
  if name == "BQ.PASS".toList then
    match ops with
    | [] => some .bqPass
    | _ => none
  else if name == "FLT.CONFIG".toList then
    match ops with
    | [a, fc, q, g] => do return .fltConfig (← algorithm? a) (← real? fc) (← real? q) (← real? g)
    | _ => none
  else if name == "FLT.START".toList then
    match ops with
    | [fs, a, fc, q, g] => do return .fltStart (← real? fs) (← algorithm? a) (← real? fc) (← real? q) (← real? g)
    | _ => none
  else if name == "RD.STATUS".toList then
    match ops with
    | [] => some .rdStatus
    | _ => none
  else if name == "RD.COEF".toList then
    match ops with
    | [] => some .rdCoef
    | _ => none
  else none

/-! ### Lines -/

/-- `c` separates a mnemonic from its operands. -/
def isBlank (c : Char) : Bool := c == ' ' || c == '\t' || c == '\r'

/-- The text without blanks at either end. -/
def trim (cs : List Char) : List Char := ((cs.dropWhile isBlank).reverse.dropWhile isBlank).reverse

/-- The pieces of a text between separators. -/
def splitOn (sep : Char) : List Char → List (List Char)
  | [] => [[]]
  | c :: cs =>
    if c == sep then [] :: splitOn sep cs
    else
      match splitOn sep cs with
      | [] => [[c]]
      | p :: ps => (c :: p) :: ps

/-- The operands of a line: comma-separated, none for an empty text (R81). -/
def operandTexts (cs : List Char) : List (List Char) :=
  if (trim cs).isEmpty then [] else (splitOn ',' cs).map trim

/-- The words of one line, `MNEMONIC [operand, ...] [; comment]` or `.word w, ...`; none if it is not one (R81, R82). An
empty line has no words. -/
def line? (cs : List Char) : Option (List Word) :=
  let cs := trim (cs.takeWhile fun c => c != ';')
  let name := cs.takeWhile fun c => !isBlank c
  let ops := operandTexts (cs.drop name.length)
  if name.isEmpty then some []
  else if name == ".word".toList then
    match ops with
    | [] => none
    | ops => ops.mapM fun w => (bounded? (2 ^ 32) w).map (BitVec.ofNat 32)
  else
    match named Opcode.all mnemonic name with
    | some o => (command? o ops).map encode
    | none => (pseudo? name ops).map fun p => (expand p).flatMap encode

/-- The words of a text, one command per line (R81); none if some line is not one. -/
def assemble (cs : List Char) : Option (List Word) :=
  ((splitOn '\n' cs).mapM line?).map List.flatten

end Asm

end Sys2Proof.Machine
end

