-- ==== Sys2Proof/Machine/Channels.lean ====
section
/-! DEFINITION. `P_CHANNELS` independent instances (R20, R63, R223): a list of complete states, of which any one may step next.
Which one does is the environment's choice; the instances are never ordered against each other. -/

namespace Sys2Proof.Machine

/-- Every instance's own registers and streams, by instance number (R223). -/
abbrev Channels := List State

/-- `P_CHANNELS`, at least 1 (R7). -/
def channelCount : Nat := Config.channelsLessOne + 1

/-- All instances together after hardware reset (R223). -/
def channelsReset : Channels := List.replicate channelCount State.reset

/-- Instance `k` takes one step, the others none. A number that no instance has steps nothing. -/
def stepChannel (k : Nat) (sys : Channels) : Host.Outcome Channels Fault Refusal :=
  match sys[k]? with
  | none => .next sys
  | some s =>
    match step s with
    | .next s' => .next (sys.set k s')
    | .fault r => .fault r
    | .refused r => .refused r

end Sys2Proof.Machine
end

