-- ==== Sys2Proof/Machine/HostPort.lean ====
section
/-! DEFINITION. What the outside world can do to an instance, each between two steps: write the command stream (R51, R54) and
drive RST (R235). Reading the response stream has no effect on the core (R58), so it is no operation here. -/

namespace Sys2Proof.Machine

/-- The host writes words to the command stream (R51). -/
def hostWrite (ws : List Word) (s : State) : State := { s with stream := s.stream ++ ws }

/-- The host writes whole words over a byte transport, bits 7:0 of each first (R54). One to three bytes of a word that is not
whole at the end of `bs` are dropped, and the next write starts a new word (DESIGN CHOICE, log entry 19: the spec is silent). -/
def hostWriteBytes (bs : List Byte) (s : State) : State := hostWrite (wordsOfBytes bs) s

/-- The response stream as a byte transport carries it (R54). -/
def responseBytes (s : State) : List Byte := s.responses.flatMap wordBytes

/-- RST is asserted: from here on nothing executes (R235). -/
def assertRst (s : State) : State := { s with rst := true }

/-- RST is deasserted after having been asserted: every register holds its value of R40, a command received only in part is
discarded, and the next word of the command stream is a command word. The words written to either stream stay with the host
(R235). Without an assertion before it, nothing happens. -/
def deassertRst (s : State) : State :=
  if s.rst then
    { State.reset with
      stream := s.stream
      pos := s.pos + s.received
      responses := s.responses
      nanIx := s.nanIx }
  else s

/-- A hardware reset: RST asserted and deasserted (R235). -/
def hardwareReset (s : State) : State := deassertRst (assertRst s)

end Sys2Proof.Machine
end

