-- ==== Sys2Proof/WellFormed.lean ====
section
/-! DEFINITION. What a conforming host writes. Every term of `Instr` is a well-formed command: each operand field's type
admits exactly the values its encoding admits (R72: no IMM8 value is illegal; R74: an operand is any 64 bits). So the checks
stand on the words: a host must write RSV as zero (R71), the assembler writes unused IMM8 bits as zero (R81), and a command
must carry exactly its operand words (R246). The core checks none of them. -/

namespace Sys2Proof

/-- The command word has an assigned opcode. -/
def opcodeAssigned (w : Word) : Bool := (Opcode.ofCode? (opcField w)).isSome

/-- RSV is zero, as a host must write it (R71). -/
def rsvZero (w : Word) : Bool := rsvField w == 0

/-- The bits of IMM8 that the opcode ignores are zero (R72, R81). -/
def immUsed (w : Word) : Bool :=
  match Opcode.ofCode? (opcField w) with
  | some o => immField w &&& ~~~ o.immMask == 0
  | none => false

/-- The words are exactly as many as the opcode requires (R73, R246). -/
def lengthExact (w : Word) (ws : List Word) : Bool :=
  match Opcode.ofCode? (opcField w) with
  | some o => ws.length == o.length
  | none => false

/-- `ws` is one whole command as a conforming host writes it. -/
def commandWellFormed : List Word → Bool
  | [] => false
  | w :: rest => opcodeAssigned w && rsvZero w && immUsed w && lengthExact w (w :: rest)

end Sys2Proof
end

