-- ==== Sys2Proof/Safety.lean ====
section
/-! DEFINITION. The terms claims are stated in: binary64 values up to the unspecified bits of a NaN, the same operations as
plain functions, the real number a value stands for, states up to NaN bits, the invariant of the machine, runs of commands and
of samples, and exact arithmetic for the recurrences. -/

namespace Sys2Proof.Machine

/-! ### Values up to NaN bits (R10) -/

/-- The same value, where any NaN stands for any other: the sign and payload of a NaN result are unspecified (R10). -/
abbrev Same (a b : F64) : Prop := a = b ∨ (Fp.isNaN a = true ∧ Fp.isNaN b = true)

/-- The same coefficient set up to NaN bits. -/
def SameCoefs (c d : Coefs) : Prop :=
  Same c.a0 d.a0 ∧ Same c.a1 d.a1 ∧ Same c.a2 d.a2 ∧ Same c.b1 d.b1 ∧ Same c.b2 d.b2 ∧ Same c.c0 d.c0 ∧ Same c.d0 d.d0

/-- The same filter coefficients up to NaN bits. -/
def SameTaps (c d : Taps) : Prop :=
  Same c.a0 d.a0 ∧ Same c.a1 d.a1 ∧ Same c.a2 d.a2 ∧ Same c.b1 d.b1 ∧ Same c.b2 d.b2

/-- The same history up to NaN bits. -/
def SameHistory (h k : History) : Prop :=
  Same h.s1 k.s1 ∧ Same h.s2 k.s2 ∧ Same h.s3 k.s3 ∧ Same h.s4 k.s4

/-- Two response streams with a common beginning and then the same 64-bit values up to NaN bits. -/
def SameResponses (r t : List Word) : Prop :=
  ∃ (start : List Word) (vs ws : List F64),
    r = start ++ vs.flatMap operandWords ∧ t = start ++ ws.flatMap operandWords ∧ List.Forall₂ Same vs ws

/-- Two states that differ at most in NaN bits that arithmetic produced: coefficients, history and responses up to NaN bits,
everything that only a command operand writes exactly. -/
def SameState (s t : State) : Prop :=
  SameCoefs s.coef t.coef ∧ SameHistory s.hist t.hist ∧ s.topo = t.topo ∧ s.alg = t.alg ∧ s.fc = t.fc ∧ s.q = t.q ∧
    s.gain = t.gain ∧ s.fs = t.fs ∧ s.dirty = t.dirty ∧ s.prepared = t.prepared ∧ s.cmderr = t.cmderr ∧
    s.stream = t.stream ∧ s.pos = t.pos ∧ s.received = t.received ∧ s.rst = t.rst ∧ SameResponses s.responses t.responses

/-! ### The operations as plain functions, every NaN result one fixed NaN -/

namespace Plain

/-- The NaN that stands for every NaN result in a statement; statements use it up to `Same` only. -/
def aNaN : F64 := 0x7FF8000000000000

/-- `a + b` -/
def add (a b : F64) : F64 := (Fp.addCore a b).getD aNaN
/-- `a − b` -/
def sub (a b : F64) : F64 := (Fp.subCore a b).getD aNaN
/-- `a · b` -/
def mul (a b : F64) : F64 := (Fp.mulCore a b).getD aNaN
/-- `a / b` -/
def div (a b : F64) : F64 := (Fp.divCore a b).getD aNaN
/-- `Sqrt(v)` -/
def sqrt (v : F64) : F64 := (Fp.sqrtCore v).getD aNaN
/-- `Sin(v)` -/
def sin (v : F64) : F64 := (Fp.sinCore v).getD aNaN
/-- `Cos(v)` -/
def cos (v : F64) : F64 := (Fp.cosCore v).getD aNaN
/-- `Tan(v)` -/
def tan (v : F64) : F64 := (Fp.tanCore v).getD aNaN
/-- `Exp(v)` -/
def exp (v : F64) : F64 := (Fp.expCore v).getD aNaN
/-- `Cosh(v)` -/
def cosh (v : F64) : F64 := (Fp.coshCore v).getD aNaN
/-- `Log10(v)` -/
def log10 (v : F64) : F64 := (Fp.log10Core v).getD aNaN
/-- `Pow(v, p)` -/
def pow (v p : F64) : F64 := (Fp.powCore v p).getD aNaN

/-- `Derive(alg, fc, q, g, fs)` (R150). -/
def derive (alg : BitVec 8) (fc q g fs : F64) : Coefs := (Fp.eval (Machine.derive alg fc q g fs) 0).1

/-- `BiquadStep(x)`: the output and the new history (R95). -/
def biquadStep (t : Topology) (c : Coefs) (h : History) (x : F64) : F64 × History :=
  (Fp.eval (Machine.biquadStep t c h x) 0).1

end Plain

/-! ### Rounding (R9, R10) -/

/-- `r` is the real number `x` rounded to binary64, to nearest with ties to even (R9), with overflow to an infinity (R10): it is
no NaN; it is infinite, with the sign of `x`, exactly when `|x|` is at least half a unit above the largest finite value; a
finite one is as near to `x` as every finite value, and where another is as near, its last fraction bit is 0; and it has the
sign of a nonzero `x`, also where it is a zero. -/
def CorrectlyRounded (x : ℚ) (r : F64) : Prop :=
  Fp.isNaN r = false ∧
  (Fp.isFinite r = false ↔ 2 ^ 1024 - 2 ^ 970 ≤ |x|) ∧
  (Fp.isFinite r = false → r = Fp.infinity (decide (x < 0))) ∧
  (Fp.isFinite r = true → ∀ v : F64, Fp.isFinite v = true →
    |x - toRat r| ≤ |x - toRat v| ∧
    (|x - toRat r| = |x - toRat v| → toRat v = toRat r ∨ Fp.fracField r % 2 = 0)) ∧
  (x ≠ 0 → Fp.signBit r = decide (x < 0))

/-- `r` is the root of the positive number `x` rounded to binary64, to nearest with ties to even (R11): finite, positive, as near
to the root as every finite value, and where another is as near, its last fraction bit is 0. -/
def RootCorrectlyRounded (x : ℚ) (r : F64) : Prop :=
  Fp.isFinite r = true ∧ Fp.signBit r = false ∧
  ∀ v : F64, Fp.isFinite v = true →
    |Real.sqrt x - toRat r| ≤ |Real.sqrt x - toRat v| ∧
    (|Real.sqrt x - toRat r| = |Real.sqrt x - toRat v| → toRat v = toRat r ∨ Fp.fracField r % 2 = 0)

/-! ### The invariant -/

/-- Q never holds a value `≤ 0.0` (R29). -/
def QNotNonPositive (s : State) : Prop := Fp.le s.q Fp.zero = false

/-- The position and the words received in part lie within what the host has written (R37, R65). -/
def StreamInRange (s : State) : Prop := s.pos + s.received ≤ s.stream.length

/-- Each response is two words (R53). -/
def ResponsesPaired (s : State) : Prop := s.responses.length % 2 = 0

/-- The words received in part are not a whole command (R39, R65). -/
def PartialIncomplete (s : State) : Prop :=
  s.received ≠ 0 → ∃ need, decode ((unconsumed s).take s.received) = .error (.incomplete s.received need)

/-- What every state that the machine reaches satisfies. -/
def Inv (s : State) : Prop := QNotNonPositive s ∧ StreamInRange s ∧ ResponsesPaired s ∧ PartialIncomplete s

/-! ### Runs -/

/-- `k` steps. -/
def runSteps : Nat → State → Host.Outcome State Fault Refusal
  | 0, s => .next s
  | k + 1, s =>
    match step s with
    | .next s' => runSteps k s'
    | .fault r => .fault r
    | .refused r => .refused r

/-- Commands executed one after another, each consumed from the stream as it is executed (R52). -/
def execAll : List Instr → State → Host.Outcome State Fault Refusal
  | [], s => .next s
  | i :: is, s =>
    match exec i (consume i.length s) with
    | .next s' => execAll is s'
    | .fault r => .fault r
    | .refused r => .refused r

/-- The stream that holds a sequence of commands. -/
def encodeAll (is : List Instr) : List Word := is.flatMap encode

/-- The output of each BQ.PROCESS of a sequence of samples, from the registers of a state (R93). -/
def biquadOutputs : List F64 → State → List F64
  | [], _ => []
  | x :: xs, s => (runBiquad x s).1 :: biquadOutputs xs (runBiquad x s).2

/-- The output of each FLT.PROCESS of a sequence of samples, from the registers of a state (R129). -/
def filterOutputs : List F64 → State → List F64
  | [], _ => []
  | x :: xs, s => (runFilter x s).1 :: filterOutputs xs (runFilter x s).2

/-! ### The recurrences over any arithmetic -/

variable {V : Type}

/-- The outputs of a topology over a sequence of samples. -/
def topologyOutputs (A : Arith V) (t : Topology) (c : CoefsOf V) : HistoryOf V → List V → FpM (List V)
  | _, [] => return []
  | h, x :: xs => do
    let r ← stepTopology A t c h x
    return r.1 :: (← topologyOutputs A t c r.2 xs)

/-- Exact arithmetic, without rounding and without flushing (R101). -/
def exactArith (R : Type) [CommRing R] : Arith R where
  add a b := return a + b
  sub a b := return a - b
  mul a b := return a * b
  neg a := -a
  flush a := a

/-- The outputs of a topology in exact arithmetic from zero history (R101). -/
def exactOutputs (R : Type) [CommRing R] (t : Topology) (c : CoefsOf R) (xs : List R) : List R :=
  (Fp.eval (topologyOutputs (exactArith R) t c ⟨0, 0, 0, 0⟩ xs) 0).1

end Sys2Proof.Machine
end

