-- ==== Sys2Proof/Certificates/Slice0/Obligations.lean ====
section
/-! DEFINITION. The statements about the model, each from the rules of spec/ that its docstring names. Values that arithmetic
produces are stated up to NaN bits (`Same`, R10), so no statement rests on a free value. -/

open Sys2Proof Sys2Proof.Machine

/-! ### Encoding (30_encoding.md, 20_memory.md) -/

/-- Decoding the words of any command gives that command back, and leaves the words that follow (R73, R74). -/
def Obligations.DecodeOfEncodeIsTheCommand : Prop :=
  ∀ (i : Instr) (rest : List Word), decode (encode i ++ rest) = .ok (i, rest)

/-- Words as a conforming host writes them decode to a command that encodes to exactly them: no two commands share such words,
and none is left undecoded (R71, R73, R81, R246). -/
def Obligations.EncodeOfDecodeIsTheWords : Prop :=
  ∀ ws : List Word, commandWellFormed ws = true → ∃ i, decode ws = .ok (i, []) ∧ encode i = ws

/-- The opcode map with the operand assembly: each opcode, RSV and unused IMM8 bits whatever they are, decodes to its command
with `CmdOperand(k)` made of the words `1 + 2k` (low) and `2 + 2k` (high) (R70, R72, R73, R74, R75). -/
def Obligations.OpcodeMapAndOperandAssembly : Prop :=
  ∀ (w l0 h0 l1 h1 l2 h2 l3 h3 l4 h4 l5 h5 l6 h6 : Word) (rest : List Word),
    (opcField w = 0x00 → decode (w :: rest) = .ok (.nop, rest)) ∧
    (opcField w = 0x01 → decode (w :: rest) = .ok (.bqReset, rest)) ∧
    (opcField w = 0x02 →
      decode (w :: l0 :: h0 :: l1 :: h1 :: l2 :: h2 :: l3 :: h3 :: l4 :: h4 :: l5 :: h5 :: l6 :: h6 :: rest) =
        .ok (.bqSetcoef (joinWords h0 l0) (joinWords h1 l1) (joinWords h2 l2) (joinWords h3 l3) (joinWords h4 l4)
          (joinWords h5 l5) (joinWords h6 l6), rest)) ∧
    (opcField w = 0x03 → decode (w :: rest) = .ok (.bqSettopo (Topology.ofCode (w.extractLsb' 0 2)), rest)) ∧
    (opcField w = 0x04 → decode (w :: l0 :: h0 :: rest) = .ok (.bqProcess (joinWords h0 l0), rest)) ∧
    (opcField w = 0x10 → decode (w :: l0 :: h0 :: rest) = .ok (.fltPrepare (joinWords h0 l0), rest)) ∧
    (opcField w = 0x11 → decode (w :: rest) = .ok (.fltReset, rest)) ∧
    (opcField w = 0x12 → decode (w :: rest) = .ok (.fltSetalg (immField w), rest)) ∧
    (opcField w = 0x13 → decode (w :: l0 :: h0 :: rest) = .ok (.fltSetfc (joinWords h0 l0), rest)) ∧
    (opcField w = 0x14 → decode (w :: l0 :: h0 :: rest) = .ok (.fltSetq (joinWords h0 l0), rest)) ∧
    (opcField w = 0x15 → decode (w :: l0 :: h0 :: rest) = .ok (.fltSetgain (joinWords h0 l0), rest)) ∧
    (opcField w = 0x16 → decode (w :: l0 :: h0 :: rest) = .ok (.fltProcess (joinWords h0 l0), rest)) ∧
    (opcField w = 0x20 → decode (w :: rest) = .ok (.rdReg (immField w), rest)) ∧
    (opcField w = 0x21 → decode (w :: rest) = .ok (.errClr, rest)) ∧
    (joinWords h0 l0).extractLsb' 0 32 = l0 ∧ (joinWords h0 l0).extractLsb' 32 32 = h0

/-- The worked encodings (R83), both ways. -/
def Obligations.WorkedEncodings : Prop :=
  (encode (.fltSetalg Algorithm.lpf2.code) = [0x12000003] ∧ decode [0x12000003] = .ok (.fltSetalg 3, [])) ∧
  (encode (.bqSettopo .transposeCanonical) = [0x03000003] ∧
    decode [0x03000003] = .ok (.bqSettopo .transposeCanonical, [])) ∧
  (encode (.rdReg RegName.status.number) = [0x20000019] ∧ decode [0x20000019] = .ok (.rdReg 0x19, [])) ∧
  (encode (.fltSetq (Asm.decimalValue false 707 (-3))) = [0x14000000, 0x76C8B439, 0x3FE69FBE] ∧
    decode [0x14000000, 0x76C8B439, 0x3FE69FBE] = .ok (.fltSetq 0x3FE69FBE76C8B439, [])) ∧
  (encode (.fltProcess (Asm.decimalValue false 10 (-1))) = [0x16000000, 0x00000000, 0x3FF00000] ∧
    decode [0x16000000, 0x00000000, 0x3FF00000] = .ok (.fltProcess 0x3FF0000000000000, [])) ∧
  (encode (.fltPrepare (Asm.decimalValue false 48000 0)) = [0x10000000, 0x00000000, 0x40E77000] ∧
    decode [0x10000000, 0x00000000, 0x40E77000] = .ok (.fltPrepare 0x40E7700000000000, []))

/-- A command word executes exactly as the same word with other RSV bits: the same registers, flags and responses after the
step (R71). -/
def Obligations.ReservedBitsIgnored : Prop :=
  ∀ (s : State) (w w' : Word) (rest : List Word), opcField w = opcField w' → immField w = immField w' →
    ∃ t, step { s with stream := w :: rest, pos := 0 } = .next t ∧
      step { s with stream := w' :: rest, pos := 0 } = .next { t with stream := w' :: rest }

/-- IMM8 is used only as R72 says: two command words with one opcode whose IMM8 differ decode alike, unless the opcode is
BQ.SETTOPO and IMM8[1:0] differ, or it is FLT.SETALG or RD.REG; those three take the field, and no value of it is illegal. -/
def Obligations.ImmediateFieldUse : Prop :=
  (∀ (w w' : Word) (rest : List Word), opcField w = opcField w' →
    (opcField w = 0x03 → w.extractLsb' 0 2 = w'.extractLsb' 0 2) →
    (opcField w = 0x12 ∨ opcField w = 0x20 → immField w = immField w') → decode (w :: rest) = decode (w' :: rest)) ∧
  (∀ (w : Word) (rest : List Word), opcField w = 0x03 →
    ∃ t, decode (w :: rest) = .ok (.bqSettopo t, rest) ∧ t.code = w.extractLsb' 0 2) ∧
  (∀ (w : Word) (rest : List Word), opcField w = 0x12 → decode (w :: rest) = .ok (.fltSetalg (immField w), rest)) ∧
  (∀ (w : Word) (rest : List Word), opcField w = 0x20 → decode (w :: rest) = .ok (.rdReg (immField w), rest))

/-- The byte transport carries each word in four bytes, bits 7:0 first, and gives every word back (R54). -/
def Obligations.ByteTransportRoundTrip : Prop :=
  ∀ (w : Word) (ws : List Word), wordsOfBytes (ws.flatMap wordBytes) = ws ∧
    wordBytes w = [w.extractLsb' 0 8, w.extractLsb' 8 8, w.extractLsb' 16 8, w.extractLsb' 24 8]

/-- The pseudo-commands' expansions (R82): a line of each assembles to the words of the commands it stands for, and so do the
lines of its expansion; FLT.CONFIG and FLT.START expand so for every operand. -/
def Obligations.PseudoCommandExpansions : Prop :=
  Asm.line? "BQ.PASS".toList = some (encode (.bqSetcoef Fp.one 0 0 0 0 Fp.one 0)) ∧
  Asm.line? "BQ.SETCOEF 1.0, 0.0, 0.0, 0.0, 0.0, 1.0, 0.0".toList = some (encode (.bqSetcoef Fp.one 0 0 0 0 Fp.one 0)) ∧
  (∀ (alg : BitVec 8) (fc q g fs : F64),
    Asm.expand (.fltConfig alg fc q g) = [.fltSetalg alg, .fltSetfc fc, .fltSetq q, .fltSetgain g] ∧
    Asm.expand (.fltStart fs alg fc q g) = Asm.expand (.fltConfig alg fc q g) ++ [.fltPrepare fs]) ∧
  (let config : List Instr :=
    [.fltSetalg 3, .fltSetfc 0x408F400000000000, .fltSetq 0x3FE69FBE76C8B439, .fltSetgain 0xC018000000000000]
   Asm.line? "FLT.CONFIG LPF2, 1000, 0.707, -6".toList = some (config.flatMap encode) ∧
   Asm.assemble "FLT.SETALG LPF2\nFLT.SETFC 1000\nFLT.SETQ 0.707\nFLT.SETGAIN -6".toList = some (config.flatMap encode) ∧
   Asm.line? "FLT.START 48000, LPF2, 1000, 0.707, -6".toList =
     some ((config ++ [Instr.fltPrepare 0x40E7700000000000]).flatMap encode) ∧
   Asm.assemble "FLT.CONFIG LPF2, 1000, 0.707, -6\nFLT.PREPARE 48000".toList =
     some ((config ++ [Instr.fltPrepare 0x40E7700000000000]).flatMap encode)) ∧
  Asm.line? "RD.STATUS".toList = some [0x20000019] ∧ Asm.line? "RD.REG STATUS".toList = some [0x20000019] ∧
  Asm.line? "RD.COEF".toList =
    some [0x20000000, 0x20000001, 0x20000002, 0x20000003, 0x20000004, 0x20000005, 0x20000006] ∧
  Asm.assemble
    "RD.REG A0\nRD.REG A1\nRD.REG A2\nRD.REG B1\nRD.REG B2\nRD.REG C0\nRD.REG D0".toList =
    some [0x20000000, 0x20000001, 0x20000002, 0x20000003, 0x20000004, 0x20000005, 0x20000006]

/-! ### The step (20_memory.md, 60_exceptions.md, 70_reset_and_hazards.md) -/

/-- When the words at the stream position decode to a command and RST is deasserted, a step is `exec` of that command on the
state whose position has moved past the command's words, and the words left are those that follow it (R52, R37). -/
def Obligations.StepRunsTheDecodedCommand : Prop :=
  ∀ (s : State) (i : Instr) (rest : List Word), s.rst = false → decode (s.stream.drop s.pos) = .ok (i, rest) →
    step s = exec i { s with pos := s.pos + i.length, received := 0 } ∧
    s.stream.drop (s.pos + i.length) = rest

/-- An unassigned opcode is one word long, sets CMDERR, and does nothing else (R78, R201). -/
def Obligations.UnassignedOpcodeSetsCmderr : Prop :=
  ∀ (s : State) (w : Word) (rest : List Word), s.rst = false → s.stream.drop s.pos = w :: rest →
    (0x05 ≤ (opcField w).toNat ∧ (opcField w).toNat ≤ 0x0F) ∨ (0x17 ≤ (opcField w).toNat ∧ (opcField w).toNat ≤ 0x1F) ∨
      (0x22 ≤ (opcField w).toNat ∧ (opcField w).toNat ≤ 0xFF) →
    step s = .next { s with pos := s.pos + 1, received := 0, cmderr := true }

/-- A command whose words have arrived only in part is held: the step changes nothing but the count of words held, and once the
host writes the remaining words, with others after them, the next step executes the command (R65). -/
def Obligations.PartialCommandIsHeldThenExecuted : Prop :=
  ∀ (s : State) (i : Instr) (here missing more : List Word), s.rst = false → s.pos ≤ s.stream.length →
    encode i = here ++ missing → missing ≠ [] → s.stream.drop s.pos = here →
    step s = .next { s with received := here.length } ∧
    step (hostWrite (missing ++ more) { s with received := here.length }) =
      exec i { s with stream := s.stream ++ (missing ++ more), pos := s.pos + i.length, received := 0 }

/-- While RST is asserted a step executes nothing; when it is deasserted every register holds its value of R40, a command
received in part is discarded, and both streams stay (R235, R40). The model's choices: RST as a level in the state (log entry 7),
and that the words discarded are exactly those a step has counted, `pos` moving past `received` words, while words written
since the last step stay (log entry 8). -/
def Obligations.HardwareResetRestoresRegisters : Prop :=
  (∀ s : State, s.rst = true → step s = .next s) ∧
  (∀ s : State, step (assertRst s) = .next { s with rst := true }) ∧
  (∀ s : State, hardwareReset s =
    { coef := ⟨0x3FF0000000000000, 0, 0, 0, 0, 0x3FF0000000000000, 0⟩
      hist := ⟨0, 0, 0, 0⟩
      topo := .direct
      alg := 1
      fc := 0x4059000000000000
      q := 0x3FE69FBE76C8B439
      gain := 0
      fs := 0x40E5888000000000
      dirty := true
      prepared := false
      cmderr := false
      stream := s.stream
      pos := s.pos + s.received
      received := 0
      responses := s.responses
      rst := false
      nanIx := s.nanIx })

/-- RD.REG's value of every register after hardware reset (R40, R36). -/
def Obligations.ResetRegisterValues : Prop :=
  [0x00, 0x01, 0x02, 0x03, 0x04, 0x05, 0x06].map (readNumber · State.reset) =
    [0x3FF0000000000000, 0, 0, 0, 0, 0x3FF0000000000000, 0] ∧
  [0x08, 0x09, 0x0A, 0x0B].map (readNumber · State.reset) = [0, 0, 0, 0] ∧
  [0x10, 0x11, 0x12, 0x13, 0x14].map (readNumber · State.reset) =
    [1, 0x4059000000000000, 0x3FE69FBE76C8B439, 0, 0x40E5888000000000] ∧
  [0x18, 0x19].map (readNumber · State.reset) = [0, 1]

/-- Every state has exactly one successor: no step faults and none refuses (R215). -/
def Obligations.EveryStepAnswersNext : Prop :=
  (∀ s : State, ∃ t, step s = .next t) ∧ (∀ (i : Instr) (s : State), ∃ t, exec i s = .next t)

/-- Whole commands on the stream are executed in stream order, each to completion before the next is read, and the run ends at
the words after them (R52). -/
def Obligations.CommandStreamRunsInOrder : Prop :=
  ∀ (is : List Instr) (rest : List Word) (s : State), s.rst = false → s.stream.drop s.pos = encodeAll is ++ rest →
    ∃ t, runSteps is.length s = .next t ∧ execAll is s = .next t ∧ t.stream.drop t.pos = rest

/-- Steps of different instances commute, and a step of one leaves every other as it was (R63). -/
def Obligations.ChannelsAreIndependent : Prop :=
  ∀ (sys : Channels) (i j : Nat), i ≠ j →
    ∃ a b c, stepChannel i sys = .next a ∧ stepChannel j sys = .next b ∧ stepChannel j a = .next c ∧
      stepChannel i b = .next c ∧ (∀ k, k ≠ i → a[k]? = sys[k]?) ∧
      (∀ s, sys[i]? = some s → ∃ t, step s = .next t ∧ a[i]? = some t)

/-! ### System commands (44_system.md) -/

/-- NOP changes nothing (R200). -/
def Obligations.NopChangesNothing : Prop :=
  ∀ s : State, exec .nop s = .next s

/-- RD.REG answers each register's image, low word first, and changes no register; an unassigned number answers zero and sets
CMDERR (R202, R36, R53). -/
def Obligations.RegisterReadback : Prop :=
  ∀ s : State,
    let answers (n : BitVec 8) (v : F64) : Prop :=
      exec (.rdReg n) s =
        .next { s with responses := s.responses ++ [v.extractLsb' 0 32, v.extractLsb' 32 32] }
    answers 0x00 s.coef.a0 ∧ answers 0x01 s.coef.a1 ∧ answers 0x02 s.coef.a2 ∧ answers 0x03 s.coef.b1 ∧
    answers 0x04 s.coef.b2 ∧ answers 0x05 s.coef.c0 ∧ answers 0x06 s.coef.d0 ∧
    answers 0x08 s.hist.s1 ∧ answers 0x09 s.hist.s2 ∧ answers 0x0A s.hist.s3 ∧ answers 0x0B s.hist.s4 ∧
    answers 0x10 (s.alg.setWidth 64) ∧ answers 0x11 s.fc ∧ answers 0x12 s.q ∧ answers 0x13 s.gain ∧ answers 0x14 s.fs ∧
    answers 0x18 (s.topo.code.setWidth 64) ∧
    answers 0x19 (BitVec.ofNat 64 (s.dirty.toNat + 2 * s.prepared.toNat + 4 * s.cmderr.toNat)) ∧
    (∀ n : BitVec 8, n = 0x07 ∨ (0x0C ≤ n.toNat ∧ n.toNat ≤ 0x0F) ∨ (0x15 ≤ n.toNat ∧ n.toNat ≤ 0x17) ∨ 0x1A ≤ n.toNat →
      exec (.rdReg n) s = .next { s with responses := s.responses ++ [0, 0], cmderr := true })

/-- STATUS: bit 0 DIRTY, bit 1 PREPARED, bit 2 CMDERR, every other bit zero (R32). -/
def Obligations.StatusLayout : Prop :=
  ∀ s : State,
    (readNumber 0x19 s).getLsbD 0 = s.dirty ∧ (readNumber 0x19 s).getLsbD 1 = s.prepared ∧
    (readNumber 0x19 s).getLsbD 2 = s.cmderr ∧ ∀ i, 3 ≤ i → (readNumber 0x19 s).getLsbD i = false

/-- ERR.CLR clears CMDERR and nothing else (R203). -/
def Obligations.ErrClrClearsCmderr : Prop :=
  ∀ s : State, exec .errClr s = .next { s with cmderr := false }

/-! ### Biquad commands (41_biquad.md) -/

/-- BQ.RESET and FLT.RESET set every history register to +0.0 and change nothing else (R90, R124). -/
def Obligations.HistoryResets : Prop :=
  ∀ s : State, exec .bqReset s = .next { s with hist := ⟨0, 0, 0, 0⟩ } ∧
    exec .fltReset s = .next { s with hist := ⟨0, 0, 0, 0⟩ }

/-- BQ.SETCOEF replaces the seven coefficient registers at once and changes nothing else, DIRTY and the history included
(R91). -/
def Obligations.SetcoefReplacesTheSet : Prop :=
  ∀ (a0 a1 a2 b1 b2 c0 d0 : F64) (s : State),
    exec (.bqSetcoef a0 a1 a2 b1 b2 c0 d0) s = .next { s with coef := ⟨a0, a1, a2, b1, b2, c0, d0⟩ }

/-- BQ.SETTOPO sets TOPO to IMM8[1:0] and changes nothing else: for every command word with opcode 0x03, the command it decodes
to leaves TOPO reading as those two bits (R92). -/
def Obligations.SettopoSelectsTopology : Prop :=
  ∀ (w : Word) (rest : List Word) (s : State), opcField w = 0x03 →
    ∃ t : Topology, decode (w :: rest) = .ok (.bqSettopo t, rest) ∧ exec (.bqSettopo t) s = .next { s with topo := t } ∧
      readNumber 0x18 { s with topo := t } = (w.extractLsb' 0 2).setWidth 64

/-- BQ.PROCESS under Direct: `y = (((a0·x + a1·s1) + a2·s2) − b1·s3) − b2·s4`, flushed; `S1, S2, S3, S4 <- x, s1, y, s3`; one
response `y`; nothing else changes but the free-value counter, whatever DIRTY is (R93, R96). -/
def Obligations.ProcessUnderDirect : Prop :=
  ∀ (s : State) (x : F64), s.topo = .direct → ∃ (y : F64) (n : Nat),
    exec (.bqProcess x) s = .next { s with
      hist := ⟨x, s.hist.s1, y, s.hist.s3⟩
      responses := s.responses ++ [y.extractLsb' 0 32, y.extractLsb' 32 32]
      nanIx := n } ∧
    Same y (flush
      (Plain.sub
        (Plain.sub
          (Plain.add (Plain.add (Plain.mul s.coef.a0 x) (Plain.mul s.coef.a1 s.hist.s1)) (Plain.mul s.coef.a2 s.hist.s2))
          (Plain.mul s.coef.b1 s.hist.s3))
        (Plain.mul s.coef.b2 s.hist.s4)))

/-- BQ.PROCESS under Canonical: `w = (x − b1·s1) − b2·s2`, `y = (a0·w + a1·s1) + a2·s2`, flushed; `S1, S2 <- w, s1`; S3 and S4
are kept; one response `y` (R93, R97). -/
def Obligations.ProcessUnderCanonical : Prop :=
  ∀ (s : State) (x : F64), s.topo = .canonical → ∃ (w y : F64) (n : Nat),
    exec (.bqProcess x) s = .next { s with
      hist := ⟨w, s.hist.s1, s.hist.s3, s.hist.s4⟩
      responses := s.responses ++ [y.extractLsb' 0 32, y.extractLsb' 32 32]
      nanIx := n } ∧
    Same w (Plain.sub (Plain.sub x (Plain.mul s.coef.b1 s.hist.s1)) (Plain.mul s.coef.b2 s.hist.s2)) ∧
    Same y (flush
      (Plain.add (Plain.add (Plain.mul s.coef.a0 w) (Plain.mul s.coef.a1 s.hist.s1)) (Plain.mul s.coef.a2 s.hist.s2)))

/-- BQ.PROCESS under TransposeDirect: `w = x + s3`, `y = a0·w + s1`, flushed; `S3 <- s4 − b1·w`, `S4 <- −(b2·w)`,
`S1 <- s2 + a1·w`, `S2 <- a2·w`; one response `y` (R93, R98). -/
def Obligations.ProcessUnderTransposeDirect : Prop :=
  ∀ (s : State) (x : F64), s.topo = .transposeDirect → ∃ (y : F64) (h : History) (n : Nat),
    exec (.bqProcess x) s = .next { s with
      hist := h
      responses := s.responses ++ [y.extractLsb' 0 32, y.extractLsb' 32 32]
      nanIx := n } ∧
    (let w := Plain.add x s.hist.s3
     Same y (flush (Plain.add (Plain.mul s.coef.a0 w) s.hist.s1)) ∧
     Same h.s3 (Plain.sub s.hist.s4 (Plain.mul s.coef.b1 w)) ∧
     Same h.s4 (Plain.mul s.coef.b2 w ^^^ 0x8000000000000000) ∧
     Same h.s1 (Plain.add s.hist.s2 (Plain.mul s.coef.a1 w)) ∧
     Same h.s2 (Plain.mul s.coef.a2 w))

/-- BQ.PROCESS under TransposeCanonical: `y = a0·x + s1`, flushed; `S1, S2 <- (a1·x − b1·y) + s2, a2·x − b2·y` with that `y`; S3
and S4 are kept; one response `y` (R93, R99). -/
def Obligations.ProcessUnderTransposeCanonical : Prop :=
  ∀ (s : State) (x : F64), s.topo = .transposeCanonical → ∃ (y s1 s2 : F64) (n : Nat),
    exec (.bqProcess x) s = .next { s with
      hist := ⟨s1, s2, s.hist.s3, s.hist.s4⟩
      responses := s.responses ++ [y.extractLsb' 0 32, y.extractLsb' 32 32]
      nanIx := n } ∧
    Same y (flush (Plain.add (Plain.mul s.coef.a0 x) s.hist.s1)) ∧
    Same s1 (Plain.add (Plain.sub (Plain.mul s.coef.a1 x) (Plain.mul s.coef.b1 y)) s.hist.s2) ∧
    Same s2 (Plain.sub (Plain.mul s.coef.a2 x) (Plain.mul s.coef.b2 y))

/-- `Flush(y)` is `y` when flushing is off; when it is on it is +0.0 for a finite nonzero `y` strictly between −T_FLUSH and
T_FLUSH, and `y` for every other, zeros, infinities and NaNs included; and the machine's `Flush` is the one its configuration
selects (R100). -/
def Obligations.FlushRule : Prop :=
  (∀ y : F64, flushWith false y = y) ∧
  (∀ y : F64, Fp.isFinite y = true → toRat y ≠ 0 → |toRat y| < toRat Fp.tFlush → flushWith true y = 0) ∧
  (∀ y : F64, Fp.isFinite y = true → toRat y = 0 ∨ toRat Fp.tFlush ≤ |toRat y| → flushWith true y = y) ∧
  (∀ y : F64, Fp.isFinite y = false → flushWith true y = y) ∧
  (∀ y : F64, flush y = flushWith Config.underflowFlush y)

/-- In exact arithmetic the four recurrences, the very functions the machine runs over binary64, give one output sequence from
zero history (R101). -/
def Obligations.TopologiesAgreeExactly : Prop :=
  ∀ (R : Type) [CommRing R] (c : CoefsOf R) (t u : Topology) (xs : List R), exactOutputs R t c xs = exactOutputs R u c xs

/-- Under its topology a NaN in the history makes the output or the next history NaN, so that it stays: any slot under Direct,
S1 or S2 under Canonical or TransposeCanonical, S3 or S4 under TransposeDirect; S3 and S4 are never read under Canonical or
TransposeCanonical; and under TransposeDirect S1 reaches the next output only and S2 the S1 after it only (R243). -/
def Obligations.NanPersistence : Prop :=
  ∀ (s : State) (x : F64),
    let h := s.hist
    let r := runBiquad x s
    (s.topo = .direct → Fp.isNaN h.s1 ∨ Fp.isNaN h.s2 ∨ Fp.isNaN h.s3 ∨ Fp.isNaN h.s4 →
      Fp.isNaN r.1 ∧ Fp.isNaN r.2.hist.s3) ∧
    (s.topo = .canonical → Fp.isNaN h.s1 ∨ Fp.isNaN h.s2 → Fp.isNaN r.1 ∧ Fp.isNaN r.2.hist.s1) ∧
    (s.topo = .transposeCanonical →
      (Fp.isNaN h.s1 → Fp.isNaN r.1 ∧ Fp.isNaN r.2.hist.s1) ∧ (Fp.isNaN h.s2 → Fp.isNaN r.2.hist.s1)) ∧
    (s.topo = .transposeDirect →
      (Fp.isNaN h.s3 → Fp.isNaN r.1 ∧ Fp.isNaN r.2.hist.s3) ∧ (Fp.isNaN h.s4 → Fp.isNaN r.2.hist.s3)) ∧
    (s.topo = .canonical ∨ s.topo = .transposeCanonical → ∀ v w : F64,
      let r' := runBiquad x { s with hist := { h with s3 := v, s4 := w } }
      r'.1 = r.1 ∧ r'.2.hist.s1 = r.2.hist.s1 ∧ r'.2.hist.s2 = r.2.hist.s2) ∧
    (s.topo = .transposeDirect → ∀ v w : F64,
      let r' := runBiquad x { s with hist := { h with s1 := v, s2 := w } }
      r'.2.hist.s2 = r.2.hist.s2 ∧ r'.2.hist.s3 = r.2.hist.s3 ∧ r'.2.hist.s4 = r.2.hist.s4 ∧
      (w = h.s2 → r'.2.hist.s1 = r.2.hist.s1) ∧ (v = h.s1 → r'.1 = r.1))

/-- After the history is cleared, a used instance gives the outputs of any other with the same topology and a cleared history,
whatever else differs: of BQ.PROCESS, where the coefficients agree; of FLT.PROCESS, where DIRTY agrees and, with DIRTY clear, the
coefficients do, or with DIRTY set, the parameters (R236). -/
def Obligations.ResetIdempotence : Prop :=
  ∀ (s t : State) (xs : List F64), s.topo = t.topo →
    ∃ s' t', exec .fltReset s = .next s' ∧ exec .bqReset t = .next t' ∧
      (s.coef = t.coef → List.Forall₂ Same (biquadOutputs xs s') (biquadOutputs xs t')) ∧
      (s.dirty = t.dirty → (s.dirty = false → s.coef = t.coef) →
        (s.dirty = true → s.alg = t.alg ∧ s.fc = t.fc ∧ s.q = t.q ∧ s.gain = t.gain ∧ s.fs = t.fs) →
        List.Forall₂ Same (filterOutputs xs s') (filterOutputs xs t'))

/-! ### Filter commands (42_filter.md) -/

/-- FLT.PREPARE stores the sample rate, clears the history, derives the coefficients from ALG, FC, Q, GAIN and the new FS
whatever DIRTY was, clears DIRTY and sets PREPARED; everything else is kept (R123, R120). -/
def Obligations.PrepareRecomputes : Prop :=
  ∀ (v : F64) (s : State), ∃ (c : Coefs) (n : Nat),
    exec (.fltPrepare v) s = .next { s with
      fs := v, hist := ⟨0, 0, 0, 0⟩, coef := c, dirty := false, prepared := true, nanIx := n } ∧
    SameCoefs c (Plain.derive s.alg s.fc s.q s.gain v)

/-- FLT.SETALG, FLT.SETFC and FLT.SETGAIN store their operand and set DIRTY exactly when its code or bits differ from the
register's; nothing else changes (R125, R126, R128, R122). -/
def Obligations.SettersStoreAndMark : Prop :=
  ∀ (a : BitVec 8) (v : F64) (s : State),
    exec (.fltSetalg a) s = .next { s with alg := a, dirty := if a = s.alg then s.dirty else true } ∧
    exec (.fltSetfc v) s = .next { s with fc := v, dirty := if v = s.fc then s.dirty else true } ∧
    exec (.fltSetgain v) s = .next { s with gain := v, dirty := if v = s.gain then s.dirty else true }

/-- FLT.SETQ stores 0x3FE69FBE76C8B439 for +0.0, −0.0 and every negative value down to −Infinity, and any other operand, NaNs
included, as given; it sets DIRTY exactly when the bits stored differ from Q's; nothing else changes (R127, R122). -/
def Obligations.SetqSubstitutesNonPositive : Prop :=
  ∀ (v : F64) (s : State),
    (v.toNat = 0 ∨ (0x8000000000000000 ≤ v.toNat ∧ v.toNat ≤ 0xFFF0000000000000) →
      exec (.fltSetq v) s = .next { s with
        q := 0x3FE69FBE76C8B439, dirty := if s.q = 0x3FE69FBE76C8B439 then s.dirty else true }) ∧
    ((0 < v.toNat ∧ v.toNat < 0x8000000000000000) ∨ 0xFFF0000000000000 < v.toNat →
      exec (.fltSetq v) s = .next { s with q := v, dirty := if s.q = v then s.dirty else true })

/-- FLT.PROCESS: recompute first if DIRTY, then the biquad step under the current topology, then `y = (D0·x) + (C0·b)` with the
coefficients in force, and one response `y`; DIRTY is clear, everything else is kept (R129). -/
def Obligations.ProcessRecomputesAndMixes : Prop :=
  ∀ (x : F64) (s : State), ∃ (c : Coefs) (b : F64) (h : History) (y : F64) (n : Nat),
    exec (.fltProcess x) s = .next { s with
      coef := c, hist := h, dirty := false
      responses := s.responses ++ [y.extractLsb' 0 32, y.extractLsb' 32 32]
      nanIx := n } ∧
    (s.dirty = true → SameCoefs c (Plain.derive s.alg s.fc s.q s.gain s.fs)) ∧
    (s.dirty = false → c = s.coef) ∧
    Same b (Plain.biquadStep s.topo c s.hist x).1 ∧
    SameHistory h (Plain.biquadStep s.topo c s.hist x).2 ∧
    Same y (Plain.add (Plain.mul c.d0 x) (Plain.mul c.c0 b))

/-- DIRTY after any command: clear after FLT.PREPARE and FLT.PROCESS; otherwise set if it was set or if ALG, FC, Q or GAIN
changed, and only then (R33, R122). -/
def Obligations.DirtyTracksParameterChanges : Prop :=
  ∀ (i : Instr) (s t : State), exec i s = .next t →
    t.dirty =
      if i.opcode = .fltPrepare ∨ i.opcode = .fltProcess then false
      else s.dirty || decide (t.alg ≠ s.alg ∨ t.fc ≠ s.fc ∨ t.q ≠ s.q ∨ t.gain ≠ s.gain)

/-- With the pass-through set in force, FLT.PROCESS returns its input, flushed as the configuration says, for every finite input
(equal as reals, since −0.0 returns +0.0): whether DIRTY is set with an unrecognized code or clear with the set already in the
registers; in every topology from zero history, and in Direct and Canonical from any finite history (R182, R100; C7 of
90_conflicts.md). -/
def Obligations.PassThroughIdentity : Prop :=
  ∀ (s : State) (x : F64), (s.dirty = true → 29 ≤ s.alg.toNat) →
    (s.dirty = false → s.coef = ⟨0x3FF0000000000000, 0, 0, 0, 0, 0x3FF0000000000000, 0⟩) →
    s.hist = ⟨0, 0, 0, 0⟩ ∨ ((s.topo = .direct ∨ s.topo = .canonical) ∧ Fp.isFinite s.hist.s1 = true ∧
      Fp.isFinite s.hist.s2 = true ∧ Fp.isFinite s.hist.s3 = true ∧ Fp.isFinite s.hist.s4 = true) →
    Fp.isFinite x = true →
    ∃ (t : State) (y : F64), exec (.fltProcess x) s = .next t ∧
      t.responses = s.responses ++ [y.extractLsb' 0 32, y.extractLsb' 32 32] ∧ Fp.feq y (flush x) = true

/-! ### The whole command set (10_state.md, 20_memory.md) -/

/-- Which command may change which register: any other leaves it as it was; and no command touches the command stream, its
position, the partial count or RST (R41). -/
def Obligations.OnlyTheseCommandsWrite : Prop :=
  ∀ (i : Instr) (s t : State), exec i s = .next t →
    (i.opcode ∉ [.bqSetcoef, .fltPrepare, .fltProcess] → t.coef = s.coef) ∧
    (i.opcode ∉ [.bqReset, .bqProcess, .fltPrepare, .fltReset, .fltProcess] → t.hist = s.hist) ∧
    (i.opcode ≠ .bqSettopo → t.topo = s.topo) ∧
    (i.opcode ≠ .fltSetalg → t.alg = s.alg) ∧
    (i.opcode ≠ .fltSetfc → t.fc = s.fc) ∧
    (i.opcode ≠ .fltSetq → t.q = s.q) ∧
    (i.opcode ≠ .fltSetgain → t.gain = s.gain) ∧
    (i.opcode ≠ .fltPrepare → t.fs = s.fs ∧ t.prepared = s.prepared) ∧
    (i.opcode ∉ [.fltPrepare, .fltSetalg, .fltSetfc, .fltSetq, .fltSetgain, .fltProcess] → t.dirty = s.dirty) ∧
    (i.opcode ∉ [.rdReg, .errClr] → t.cmderr = s.cmderr) ∧
    (t.stream = s.stream ∧ t.pos = s.pos ∧ t.received = s.received ∧ t.rst = s.rst)

/-- BQ.PROCESS, FLT.PROCESS and RD.REG each append exactly one 64-bit response, low word first; every other command, and every
step that executes none, appends nothing; no step drops or changes a response word (R53). -/
def Obligations.ResponsesOnlyGrow : Prop :=
  (∀ (i : Instr) (s t : State), exec i s = .next t →
    if i.opcode ∈ [.bqProcess, .fltProcess, .rdReg] then
      ∃ v : F64, t.responses = s.responses ++ [v.extractLsb' 0 32, v.extractLsb' 32 32]
    else t.responses = s.responses) ∧
  (∀ s t : State, step s = .next t → (∀ i rest, decode (s.stream.drop s.pos) ≠ .ok (i, rest)) → t.responses = s.responses) ∧
  (∀ s t : State, step s = .next t → ∃ ws, t.responses = s.responses ++ ws)

/-- Two states that differ at most in the unspecified bits of NaN results, those in coefficients, history and responses, step to
two such states (R10, R58). The parameters FC, Q, GAIN and FS, which hold operands bit for bit, are equal in both: DIRTY does
depend on their NaN bits (R122). -/
def Obligations.NanBitsDoNotSpread : Prop :=
  ∀ s t : State, SameState s t → ∃ s' t', step s = .next s' ∧ step t = .next t' ∧ SameState s' t'

/-- The invariant holds after reset. -/
def Obligations.ResetMeetsInvariant : Prop := Inv State.reset

/-- Every step keeps the invariant: Q is never `≤ 0.0` (R29), the position and the words held lie in the stream (R37), every
response is two words (R53), and the words held are never a whole command (R65). -/
def Obligations.StepKeepsInvariant : Prop :=
  ∀ s t : State, Inv s → step s = .next t → Inv t

/-- What the host can do keeps the invariant: writing words or bytes, asserting RST, deasserting it (R51, R54, R235). -/
def Obligations.HostActionsKeepInvariant : Prop :=
  ∀ (s : State) (ws : List Word) (bs : List Byte), Inv s →
    Inv (hostWrite ws s) ∧ Inv (hostWriteBytes bs s) ∧ Inv (assertRst s) ∧ Inv (deassertRst s)

/-! ### Arithmetic (00_scope.md) -/

/-- `+ − · /` on finite operands are each one operation rounded to nearest, ties to even, with gradual underflow and overflow
to an infinity; a quotient by a nonzero value only (R9, R10). A sum or difference that is exactly zero is +0.0, unless both terms
are −0.0; a product or quotient has the sign of its operands' signs, zeros included. `Sqrt` of a positive value is its root
rounded (R11); of a zero it is that zero, which is IEEE 754's and not the spec's own words (log entry 17). -/
def Obligations.ArithmeticIsCorrectlyRounded : Prop :=
  (∀ a b : F64, Fp.isFinite a = true → Fp.isFinite b = true →
    (∃ r, Fp.addCore a b = some r ∧ CorrectlyRounded (toRat a + toRat b) r ∧
      (toRat a + toRat b = 0 → r = Fp.signedZero (a.msb && b.msb))) ∧
    (∃ r, Fp.subCore a b = some r ∧ CorrectlyRounded (toRat a - toRat b) r ∧
      (toRat a - toRat b = 0 → r = Fp.signedZero (a.msb && !b.msb))) ∧
    (∃ r, Fp.mulCore a b = some r ∧ CorrectlyRounded (toRat a * toRat b) r ∧ r.msb = (a.msb ^^ b.msb)) ∧
    (toRat b ≠ 0 → ∃ r, Fp.divCore a b = some r ∧ CorrectlyRounded (toRat a / toRat b) r ∧ r.msb = (a.msb ^^ b.msb))) ∧
  (∀ v : F64, Fp.isFinite v = true →
    (0 < toRat v → ∃ r, Fp.sqrtCore v = some r ∧ RootCorrectlyRounded (toRat v) r) ∧
    (toRat v = 0 → Fp.sqrtCore v = some v))

/-- Comparisons are the order of the reals on finite values, with −0.0 equal to +0.0, have the infinities at the ends, and are
false when an operand is a NaN (R9). -/
def Obligations.ComparisonsAreQuiet : Prop :=
  (∀ a b : F64, Fp.isFinite a = true → Fp.isFinite b = true →
    (Fp.lt a b = true ↔ toRat a < toRat b) ∧ (Fp.le a b = true ↔ toRat a ≤ toRat b) ∧
    (Fp.feq a b = true ↔ toRat a = toRat b)) ∧
  (∀ a b : F64, Fp.isNaN a = true ∨ Fp.isNaN b = true → Fp.lt a b = false ∧ Fp.le a b = false ∧ Fp.feq a b = false) ∧
  (∀ a : F64, Fp.isFinite a = true → Fp.lt a (Fp.infinity false) = true ∧ Fp.lt (Fp.infinity true) a = true) ∧
  Fp.feq 0x8000000000000000 0 = true

/-- Invalid operations give a NaN, a quotient of a nonzero finite value by zero an infinity, infinities propagate with their
sign through `+ − · /` in either place, and any operation on a NaN is a NaN (R10). -/
def Obligations.InfinitiesAndInvalidOperations : Prop :=
  (∀ s : Bool, Fp.addCore (Fp.infinity s) (Fp.infinity s) = some (Fp.infinity s) ∧
    Fp.addCore (Fp.infinity s) (Fp.infinity !s) = none ∧
    Fp.subCore (Fp.infinity s) (Fp.infinity !s) = some (Fp.infinity s) ∧
    Fp.subCore (Fp.infinity s) (Fp.infinity s) = none) ∧
  (∀ s t : Bool, Fp.mulCore (Fp.infinity s) (Fp.infinity t) = some (Fp.infinity (s ^^ t)) ∧
    Fp.divCore (Fp.infinity s) (Fp.infinity t) = none) ∧
  (∀ (s : Bool) (v : F64), Fp.isFinite v = true →
    Fp.addCore (Fp.infinity s) v = some (Fp.infinity s) ∧ Fp.addCore v (Fp.infinity s) = some (Fp.infinity s) ∧
    Fp.subCore (Fp.infinity s) v = some (Fp.infinity s) ∧ Fp.subCore v (Fp.infinity s) = some (Fp.infinity !s) ∧
    (toRat v = 0 → Fp.mulCore (Fp.infinity s) v = none ∧ Fp.mulCore v (Fp.infinity s) = none) ∧
    (toRat v ≠ 0 → Fp.mulCore (Fp.infinity s) v = some (Fp.infinity (s ^^ v.msb)) ∧
      Fp.mulCore v (Fp.infinity s) = some (Fp.infinity (v.msb ^^ s)) ∧
      ∀ z : F64, Fp.isFinite z = true → toRat z = 0 → Fp.divCore v z = some (Fp.infinity (v.msb ^^ z.msb))) ∧
    Fp.divCore (Fp.infinity s) v = some (Fp.infinity (s ^^ v.msb)) ∧
    Fp.divCore v (Fp.infinity s) = some (Fp.signedZero (v.msb ^^ s))) ∧
  (∀ z w : F64, Fp.isFinite z = true → toRat z = 0 → Fp.isFinite w = true → toRat w = 0 → Fp.divCore z w = none) ∧
  (∀ a b : F64, Fp.isNaN a = true ∨ Fp.isNaN b = true →
    Fp.addCore a b = none ∧ Fp.subCore a b = none ∧ Fp.mulCore a b = none ∧ Fp.divCore a b = none)

/-- The named constants (R12): PI, SQRT2 = Sqrt(2.0), Q_DEFAULT the nearest to 0.707, CLAMP = (0.95 · PI) / 2.0, T_FLUSH the
nearest to 1.175494351e-38, and the literals of the formulas. -/
def Obligations.NamedConstants : Prop :=
  Fp.pi = 0x400921FB54442D18 ∧
  Fp.sqrtCore 0x4000000000000000 = some Fp.sqrt2 ∧ Fp.sqrt2 = 0x3FF6A09E667F3BCD ∧
  Fp.qDefault = Asm.decimalValue false 707 (-3) ∧ Fp.qDefault = 0x3FE69FBE76C8B439 ∧
  Fp.clamp = Plain.div (Plain.mul (Asm.decimalValue false 95 (-2)) Fp.pi) Fp.two ∧
  Fp.tFlush = Asm.decimalValue false 1175494351 (-47) ∧
  [Fp.zero, Fp.quarter, Fp.half, Fp.negHalf, Fp.one, Fp.two, Fp.negTwo, Fp.four, Fp.negFour, Fp.ten, Fp.twenty, Fp.forty].map
    toRat = [0, 1 / 4, 1 / 2, -1 / 2, 1, 2, -2, 4, -4, 10, 20, 40]

/-- The library results the spec fixes, from any free-value index: R11(a) to (c), and R11(d), that for finite operands each is
within the real function's value by the configuration's stated accuracy, where that value exists; `Exp`, `Cosh` and `Pow` may
overflow to an infinity instead (R10). The unit of the accuracy is the model's (log entry 2). -/
def Obligations.LibraryResultsTheSpecFixes : Prop :=
  ∀ n : Nat,
    (∀ z : F64, Fp.isZero z = true →
      (Fp.eval (Fp.pow Fp.ten z) n).1 = Fp.one ∧ (Fp.eval (Fp.sin z) n).1 = z ∧ (Fp.eval (Fp.tan z) n).1 = z ∧
      (Fp.eval (Fp.cos z) n).1 = Fp.one ∧ (Fp.eval (Fp.exp z) n).1 = Fp.one) ∧
    (Fp.eval (Fp.exp (Fp.infinity true)) n).1 = Fp.zero ∧ (Fp.eval (Fp.pow Fp.zero Fp.half) n).1 = Fp.zero ∧
    (∀ v : F64, Fp.isFinite v = true → Fp.lt v Fp.zero = true → Fp.isNaN (Fp.eval (Fp.pow v Fp.half) n).1 = true) ∧
    (∀ v p : F64, Fp.isNaN v = true →
      Fp.isNaN (Fp.eval (Fp.sin v) n).1 = true ∧ Fp.isNaN (Fp.eval (Fp.cos v) n).1 = true ∧
      Fp.isNaN (Fp.eval (Fp.tan v) n).1 = true ∧ Fp.isNaN (Fp.eval (Fp.exp v) n).1 = true ∧
      Fp.isNaN (Fp.eval (Fp.cosh v) n).1 = true ∧ Fp.isNaN (Fp.eval (Fp.log10 v) n).1 = true ∧
      Fp.isNaN (Fp.eval (Fp.sqrt v) n).1 = true ∧
      Fp.isNaN (Fp.eval (Fp.pow v p) n).1 = true ∧ Fp.isNaN (Fp.eval (Fp.pow p v) n).1 = true) ∧
    (let accuracy := Config.mathLib.accuracy
     (∀ v : F64, Fp.isFinite v = true →
      Config.Within accuracy (Real.sin (toRat v)) (Fp.eval (Fp.sin v) n).1 ∧
      Config.Within accuracy (Real.cos (toRat v)) (Fp.eval (Fp.cos v) n).1 ∧
      Config.Within accuracy (Real.tan (toRat v)) (Fp.eval (Fp.tan v) n).1 ∧
      Config.WithinOrOverflow accuracy (Real.exp (toRat v)) (Fp.eval (Fp.exp v) n).1 ∧
      Config.WithinOrOverflow accuracy (Real.cosh (toRat v)) (Fp.eval (Fp.cosh v) n).1 ∧
      (0 < toRat v → Config.Within accuracy (Real.logb 10 (toRat v)) (Fp.eval (Fp.log10 v) n).1)) ∧
     (∀ v p : F64, Fp.isFinite v = true → Fp.isFinite p = true → Config.PowDefined (toRat v) (toRat p) →
      Config.WithinOrOverflow accuracy (((toRat v : ℚ) : ℝ) ^ ((toRat p : ℚ) : ℝ)) (Fp.eval (Fp.pow v p) n).1))

/-! ### The coefficient engine (43_coefficients.md), under the reference formulas (log entry 5) -/

open Fp (zero quarter half negHalf one two negTwo four negFour ten twenty forty pi sqrt2 qDefault)
open Plain (add sub mul div sqrt sin cos tan exp cosh log10 pow)

/-- Codes 29 to 255 give the pass-through set exactly, whatever the parameters are (R182). -/
def Obligations.UnrecognizedCodesPassThrough : Prop :=
  ∀ (alg : BitVec 8) (fc q g fs : F64) (n : Nat), 29 ≤ alg.toNat →
    Fp.eval (derive alg fc q g fs) n = (⟨0x3FF0000000000000, 0, 0, 0, 0, 0x3FF0000000000000, 0⟩, n)

/-- The wet/dry rule: `(1.0, +0.0)` but for codes 13, 14, 15, and 16 under DOC, where dry is 1.0 and wet is
`Pow(10.0, g / 20.0) − 1.0`, which is +0.0 at `g = ±0.0` (R151). -/
def Obligations.WetDryRule : Prop :=
  ∀ (cq : CqMix) (alg : BitVec 8) (fc q g fs : F64) (n : Nat),
    let c := (Fp.eval (deriveWith cq alg fc q g fs) n).1
    let overridden := alg = 13 ∨ alg = 14 ∨ alg = 15 ∨ (alg = 16 ∧ cq = .doc)
    (¬ overridden → c.c0 = one ∧ c.d0 = zero) ∧
    (overridden → Same c.c0 (sub (pow ten (div g twenty)) one) ∧ c.d0 = one) ∧
    (overridden → Fp.isZero g = true → c.c0 = zero)

/-- A parameter that R183 does not list for a code does not affect its result. -/
def Obligations.UnlistedParametersAreNotRead : Prop :=
  ∀ (alg : BitVec 8) (fc q g fs fc' q' g' fs' : F64) (n : Nat),
    (alg.toNat ∈ [0, 1, 2, 7, 8, 17, 18, 19, 27] →
      Fp.eval (derive alg fc q g fs) n = Fp.eval (derive alg fc q' g' fs) n) ∧
    (alg.toNat ∈ [3, 4, 5, 6, 9, 10, 11, 12, 20, 21, 22, 23, 24, 25, 26, 28] →
      Fp.eval (derive alg fc q g fs) n = Fp.eval (derive alg fc q g' fs) n) ∧
    (alg.toNat ∈ [13, 14] → Fp.eval (derive alg fc q g fs) n = Fp.eval (derive alg fc q' g fs) n) ∧
    (29 ≤ alg.toNat → Fp.eval (derive alg fc q g fs) n = Fp.eval (derive alg fc' q' g' fs') n)

/-- The one-pole designs LPF1P, LPF1 and HPF1 (R153, R154, R155). -/
def Obligations.OnePoleFormulas : Prop :=
  ∀ (cq : CqMix) (fc q g fs : F64) (n : Nat),
    let theta := div (mul (mul two pi) fc) fs
    (let gamma := sub two (cos theta)
     let b1 := sub (pow (sub (mul gamma gamma) one) half) gamma
     SameCoefs (Fp.eval (deriveWith cq 0 fc q g fs) n).1 ⟨add one b1, zero, zero, b1, zero, one, zero⟩) ∧
    (let gamma := div (cos theta) (add one (sin theta))
     SameCoefs (Fp.eval (deriveWith cq 1 fc q g fs) n).1
       ⟨div (sub one gamma) two, div (sub one gamma) two, zero, Fp.neg gamma, zero, one, zero⟩ ∧
     SameCoefs (Fp.eval (deriveWith cq 2 fc q g fs) n).1
       ⟨div (add one gamma) two, Fp.neg (div (add one gamma) two), zero, Fp.neg gamma, zero, one, zero⟩)

/-- The two-pole designs LPF2, HPF2, BPF2 and BSF2 (R156 to R159). -/
def Obligations.TwoPoleFormulas : Prop :=
  ∀ (cq : CqMix) (fc q g fs : F64) (n : Nat),
    (let theta := div (mul (mul two pi) fc) fs
     let d := div one q
     let betaNum := sub one (mul (div d two) (sin theta))
     let betaDen := add one (mul (div d two) (sin theta))
     let beta := mul half (div betaNum betaDen)
     let gamma := mul (add half beta) (cos theta)
     let low := div (sub (add half beta) gamma) two
     let high := div (add (add half beta) gamma) two
     SameCoefs (Fp.eval (deriveWith cq 3 fc q g fs) n).1
       ⟨low, mul two low, low, mul negTwo gamma, mul two beta, one, zero⟩ ∧
     SameCoefs (Fp.eval (deriveWith cq 4 fc q g fs) n).1
       ⟨high, mul negTwo high, high, mul negTwo gamma, mul two beta, one, zero⟩) ∧
    (let k := tan (div (mul pi fc) fs)
     let delta := add (add (mul (mul k k) q) k) q
     let b1 := div (mul (mul two q) (sub (mul k k) one)) delta
     let b2 := div (add (sub (mul (mul k k) q) k) q) delta
     let edge := div (mul q (add one (mul k k))) delta
     SameCoefs (Fp.eval (deriveWith cq 5 fc q g fs) n).1 ⟨div k delta, zero, div (Fp.neg k) delta, b1, b2, one, zero⟩ ∧
     SameCoefs (Fp.eval (deriveWith cq 6 fc q g fs) n).1 ⟨edge, b1, edge, b1, b2, one, zero⟩)

/-- The Butterworth designs, with the bandwidth angle of ButterBPF2 and ButterBSF2 clamped to CLAMP before `Tan` (R160 to
R163). -/
def Obligations.ButterworthFormulas : Prop :=
  ∀ (cq : CqMix) (fc q g fs : F64) (n : Nat),
    (let c := div one (tan (div (mul pi fc) fs))
     let a0 := div one (add (add one (mul sqrt2 c)) (mul c c))
     SameCoefs (Fp.eval (deriveWith cq 7 fc q g fs) n).1
       ⟨a0, mul two a0, a0, mul (mul two a0) (sub one (mul c c)), mul a0 (add (sub one (mul sqrt2 c)) (mul c c)), one, zero⟩) ∧
    (let c := tan (div (mul pi fc) fs)
     let a0 := div one (add (add one (mul sqrt2 c)) (mul c c))
     SameCoefs (Fp.eval (deriveWith cq 8 fc q g fs) n).1
       ⟨a0, mul negTwo a0, a0, mul (mul two a0) (sub (mul c c) one), mul a0 (add (sub one (mul sqrt2 c)) (mul c c)), one,
         zero⟩) ∧
    (let theta := div (mul (mul two pi) fc) fs
     let angle := div (mul pi (div fc q)) fs
     let deltaC := if Fp.le Fp.clamp angle then Fp.clamp else angle
     let d := mul two (cos theta)
     (let c := div one (tan deltaC)
      let a0 := div one (add one c)
      SameCoefs (Fp.eval (deriveWith cq 9 fc q g fs) n).1
        ⟨a0, zero, Fp.neg a0, mul (Fp.neg a0) (mul c d), mul a0 (sub c one), one, zero⟩) ∧
     (let c := tan deltaC
      let a0 := div one (add one c)
      SameCoefs (Fp.eval (deriveWith cq 10 fc q g fs) n).1
        ⟨a0, mul (Fp.neg a0) d, a0, mul (Fp.neg a0) d, mul a0 (sub one c), one, zero⟩))

/-- The resonant lowpass designs MMALPF2 and MMALPF2B (R164, R165). -/
def Obligations.ResonantLowpassFormulas : Prop :=
  ∀ (cq : CqMix) (fc q g fs : F64) (n : Nat),
    let theta := div (mul (mul two pi) fc) fs
    let peak := div (mul q q) (pow (sub (mul q q) quarter) half)
    let rdB := if Fp.lt qDefault q then mul twenty (log10 peak) else zero
    let res := div (add (cos theta) (mul (sin theta) (sqrt (sub (pow ten (div rdB ten)) one))))
      (add (mul (pow ten (div rdB twenty)) (sin theta)) one)
    let b1 := mul (mul negTwo res) (cos theta)
    let b2 := mul res res
    let gc := pow ten (div (Fp.neg rdB) forty)
    SameCoefs (Fp.eval (deriveWith cq 11 fc q g fs) n).1 ⟨mul gc (add (add one b1) b2), zero, zero, b1, b2, one, zero⟩ ∧
    SameCoefs (Fp.eval (deriveWith cq 12 fc q g fs) n).1 ⟨mul one (add (add one b1) b2), zero, zero, b1, b2, one, zero⟩

/-- The shelving and parametric designs LowShelf, HiShelf, NCQParaEQ and CQParaEQ; the last takes its boost formula for
`g ≥ 0` and its cut formula otherwise, and its mix from `P_CQ_MIX` (R166 to R169). -/
def Obligations.ShelvingFormulas : Prop :=
  ∀ (cq : CqMix) (fc q g fs : F64) (n : Nat),
    let theta := div (mul (mul two pi) fc) fs
    let mu := pow ten (div g twenty)
    let wet := sub mu one
    (let delta := mul (div four (add one mu)) (tan (div theta two))
     let gamma := div (sub one delta) (add one delta)
     SameCoefs (Fp.eval (deriveWith cq 13 fc q g fs) n).1
       ⟨div (sub one gamma) two, div (sub one gamma) two, zero, Fp.neg gamma, zero, wet, one⟩) ∧
    (let delta := mul (div (add one mu) four) (tan (div theta two))
     let gamma := div (sub one delta) (add one delta)
     SameCoefs (Fp.eval (deriveWith cq 14 fc q g fs) n).1
       ⟨div (add one gamma) two, Fp.neg (div (add one gamma) two), zero, Fp.neg gamma, zero, wet, one⟩) ∧
    (let arg := div theta (mul two q)
     let tanArg := if Fp.le Fp.clamp arg then Fp.clamp else arg
     let zeta := div four (add one mu)
     let beta := mul half (div (sub one (mul zeta (tan tanArg))) (add one (mul zeta (tan tanArg))))
     let gamma := mul (add half beta) (cos theta)
     let alpha := sub half beta
     SameCoefs (Fp.eval (deriveWith cq 15 fc q g fs) n).1
       ⟨alpha, zero, Fp.neg alpha, mul negTwo gamma, mul two beta, wet, one⟩) ∧
    (let k := tan (div (mul pi fc) fs)
     let vo := mu
     let d0c := add (add one (mul (div one q) k)) (mul k k)
     let e0c := add (add one (mul (div one (mul vo q)) k)) (mul k k)
     let alpha := add (add one (mul (div vo q) k)) (mul k k)
     let beta := mul two (sub (mul k k) one)
     let gamma := add (sub one (mul (div vo q) k)) (mul k k)
     let delta := add (sub one (mul (div one q) k)) (mul k k)
     let eta := add (sub one (mul (div one (mul vo q)) k)) (mul k k)
     let mixWet := if cq = .doc then wet else one
     let mixDry := if cq = .doc then one else zero
     if Fp.le zero g then
       SameCoefs (Fp.eval (deriveWith cq 16 fc q g fs) n).1
         ⟨div alpha d0c, div beta d0c, div gamma d0c, div beta d0c, div delta d0c, mixWet, mixDry⟩
     else
       SameCoefs (Fp.eval (deriveWith cq 16 fc q g fs) n).1
         ⟨div d0c e0c, div beta e0c, div delta e0c, div beta e0c, div eta e0c, mixWet, mixDry⟩)

/-- The Linkwitz-Riley designs LWRLPF2 and LWRHPF2 (R170, R171). -/
def Obligations.LinkwitzRileyFormulas : Prop :=
  ∀ (cq : CqMix) (fc q g fs : F64) (n : Nat),
    let omegaC := mul pi fc
    let thetaC := div (mul pi fc) fs
    let k := div omegaC (tan thetaC)
    let den := add (add (mul k k) (mul omegaC omegaC)) (mul (mul two k) omegaC)
    let b1 := div (add (mul (mul negTwo k) k) (mul (mul two omegaC) omegaC)) den
    let b2 := div (add (add (mul (mul negTwo k) omegaC) (mul k k)) (mul omegaC omegaC)) den
    let low := div (mul omegaC omegaC) den
    let high := div (mul k k) den
    SameCoefs (Fp.eval (deriveWith cq 17 fc q g fs) n).1
      ⟨low, div (mul (mul two omegaC) omegaC) den, low, b1, b2, one, zero⟩ ∧
    SameCoefs (Fp.eval (deriveWith cq 18 fc q g fs) n).1
      ⟨high, div (mul (mul negTwo k) k) den, high, b1, b2, one, zero⟩

/-- The all-pass and resonator designs APF1, APF2, ResonA and ResonB (R172 to R175). -/
def Obligations.AllPassAndResonatorFormulas : Prop :=
  ∀ (cq : CqMix) (fc q g fs : F64) (n : Nat),
    let theta := div (mul (mul two pi) fc) fs
    (let t := tan (div (mul pi fc) fs)
     let alpha := div (sub t one) (add t one)
     SameCoefs (Fp.eval (deriveWith cq 19 fc q g fs) n).1 ⟨alpha, one, zero, alpha, zero, one, zero⟩) ∧
    (let arg := div (mul pi (div fc q)) fs
     let argTan := if Fp.le Fp.clamp arg then Fp.clamp else arg
     let alpha := div (sub (tan argTan) one) (add (tan argTan) one)
     let beta := Fp.neg (cos theta)
     SameCoefs (Fp.eval (deriveWith cq 20 fc q g fs) n).1
       ⟨Fp.neg alpha, mul beta (sub one alpha), one, mul beta (sub one alpha), Fp.neg alpha, one, zero⟩) ∧
    (let rb2 := exp (mul (mul negTwo pi) (div (div fc q) fs))
     let rb1 := mul (div (mul negFour rb2) (add one rb2)) (cos theta)
     SameCoefs (Fp.eval (deriveWith cq 21 fc q g fs) n).1
       ⟨mul (sub one rb2) (pow (sub one (div (mul rb1 rb1) (mul four rb2))) half), zero, zero, rb1, rb2, one, zero⟩ ∧
     SameCoefs (Fp.eval (deriveWith cq 22 fc q g fs) n).1
       ⟨sub one (pow rb2 half), zero, Fp.neg (sub one (pow rb2 half)), rb1, rb2, one, zero⟩)

/-- The matched designs MatchLP2A, MatchLP2B, MatchBP2A and MatchBP2B over `MatchedPoles` with its two branches (R152, R176 to
R179). -/
def Obligations.MatchedFormulas : Prop :=
  ∀ (cq : CqMix) (fc q g fs : F64) (n : Nat),
    let theta := div (mul (mul two pi) fc) fs
    let qd := div one (mul two q)
    let b2 := exp (mul (mul negTwo qd) theta)
    let b1 :=
      if Fp.le qd one then
        mul (mul negTwo (exp (mul (Fp.neg qd) theta))) (cos (mul (pow (sub one (mul qd qd)) half) theta))
      else mul (mul negTwo (exp (mul (Fp.neg qd) theta))) (cosh (mul (pow (sub (mul qd qd) one) half) theta))
    let e0 := mul (add (add one b1) b2) (add (add one b1) b2)
    let e1 := mul (add (sub one b1) b2) (add (sub one b1) b2)
    let e2 := mul negFour b2
    let sn := sin (div theta two)
    let phi0 := sub one (mul sn sn)
    let phi1 := mul sn sn
    let phi2 := mul (mul four phi0) phi1
    let sum := add (add (mul e0 phi0) (mul e1 phi1)) (mul e2 phi2)
    let f0 := div theta pi
    let den := pow (add (mul (sub one (mul f0 f0)) (sub one (mul f0 f0))) (div (mul f0 f0) (mul q q))) half
    (let r1 := mul sum (mul q q)
     let big1 := div (sub r1 (mul e0 phi0)) phi1
     let big0' := if Fp.lt e0 zero then zero else e0
     let big1' := if Fp.lt big1 zero then zero else big1
     let a0 := mul half (add (pow big0' half) (pow big1' half))
     SameCoefs (Fp.eval (deriveWith cq 23 fc q g fs) n).1 ⟨a0, sub (pow big0' half) a0, zero, b1, b2, one, zero⟩) ∧
    (let r0 := add (add one b1) b2
     let r1 := div (mul (mul (add (sub one b1) b2) f0) f0) den
     let a0 := div (add r0 r1) two
     SameCoefs (Fp.eval (deriveWith cq 24 fc q g fs) n).1 ⟨a0, sub r0 a0, zero, b1, b2, one, zero⟩) ∧
    (let r2 := add (add (Fp.neg e0) e1) (mul (mul four (sub phi0 phi1)) e2)
     let big2 := div (sub sum (mul r2 phi1)) (mul (mul four phi1) phi1)
     let big1 := add r2 (mul (mul four (sub phi1 phi0)) big2)
     let a1 := mul negHalf (pow big1 half)
     let a0 := mul half (sub (pow (add big2 (mul a1 a1)) half) a1)
     SameCoefs (Fp.eval (deriveWith cq 25 fc q g fs) n).1 ⟨a0, a1, sub (Fp.neg a0) a1, b1, b2, one, zero⟩) ∧
    (let r0 := div (add (add one b1) b2) (mul (mul pi f0) q)
     let r1 := div (mul (add (sub one b1) b2) (div f0 q)) den
     let a1 := div (Fp.neg r1) two
     let a0 := div (sub r0 a1) two
     SameCoefs (Fp.eval (deriveWith cq 26 fc q g fs) n).1 ⟨a0, a1, sub (Fp.neg a0) a1, b1, b2, one, zero⟩)

/-- The impulse-invariant designs ImpInvLP1 and ImpInvLP2 (R180, R181). -/
def Obligations.ImpulseInvariantFormulas : Prop :=
  ∀ (cq : CqMix) (fc q g fs : F64) (n : Nat),
    (let eT := exp (mul (Fp.neg (div one fs)) (mul (mul two pi) fc))
     SameCoefs (Fp.eval (deriveWith cq 27 fc q g fs) n).1 ⟨sub one eT, zero, zero, Fp.neg eT, zero, one, zero⟩) ∧
    (let al := div (mul (mul two pi) fc) fs
     let pRe := div (Fp.neg al) (mul two q)
     let zeta := div one (mul two q)
     let r := pow (sub one (mul zeta zeta)) half
     let pIm := mul al r
     let cIm := div al (mul two r)
     let eP := exp pRe
     SameCoefs (Fp.eval (deriveWith cq 28 fc q g fs) n).1
       ⟨zero, mul (mul two (mul cIm (sin pIm))) eP, zero, mul (mul negTwo eP) (cos pIm), mul eP eP, one, zero⟩)
end

