-- ==== Sys2Proof/Laws/Encoding.lean ====
section
/-! SUPPORT. The fields of a command word, the operands of a command's words, and the code tables read back. -/

namespace Sys2Proof

/-! ### Code tables -/

@[simp] theorem Opcode.ofCode?_code (o : Opcode) : Opcode.ofCode? o.code = some o := by cases o <;> decide

theorem Opcode.code_of_ofCode? {c : BitVec 8} {o : Opcode} (h : Opcode.ofCode? c = some o) : o.code = c := by
  have := List.find?_some h
  simpa using this

@[simp] theorem Topology.ofCode_code (t : Topology) : Topology.ofCode t.code = t := by cases t <;> decide

@[simp] theorem Topology.code_ofCode (c : BitVec 2) : (Topology.ofCode c).code = c := by revert c; decide

@[simp] theorem Algorithm.ofCode?_code (a : Algorithm) : Algorithm.ofCode? a.code = some a := by cases a <;> decide

@[simp] theorem RegName.ofNumber?_number (r : RegName) : RegName.ofNumber? r.number = some r := by cases r <;> decide

/-! ### Fields of a command word -/

@[simp] theorem opcField_commandWord (o : Opcode) (imm : BitVec 8) : opcField (commandWord o imm) = o.code := by
  ext i hi
  have : 24 + i < 32 := by omega
  have himm : imm.getLsbD (24 + i) = false := BitVec.getLsbD_of_ge _ _ (by omega)
  simp [opcField, commandWord, this, himm, BitVec.getLsbD_eq_getElem hi]

@[simp] theorem rsvField_commandWord (o : Opcode) (imm : BitVec 8) : rsvField (commandWord o imm) = 0 := by
  ext i hi
  have : 8 + i < 24 := by omega
  simp [rsvField, commandWord, this]

@[simp] theorem immField_commandWord (o : Opcode) (imm : BitVec 8) : immField (commandWord o imm) = imm := by
  ext i hi
  have h24 : i < 24 := by omega
  have h32 : i < 32 := by omega
  simp [immField, commandWord, h24, h32, BitVec.getLsbD_eq_getElem hi]

/-! ### Operands -/

/-- The two words of an operand, put together again. -/
@[simp] theorem joinWords_halves (v : F64) : joinWords (v.extractLsb' 32 32) (v.extractLsb' 0 32) = v := by
  ext i hi
  by_cases h : i < 32
  · simp [joinWords, h, BitVec.getLsbD_eq_getElem hi]
  · have h32 : i - 32 < 32 := by omega
    have hsum : 32 + (i - 32) = i := by omega
    simp [joinWords, h, h32, hsum, BitVec.getLsbD_eq_getElem hi]

end Sys2Proof
end

