-- ==== Sys2Proof/Laws/State.lean ====
section
/-! SUPPORT. What each named update of the state leaves in each field, so that no proof unfolds a record update. Every lemma
holds by definition. -/

namespace Sys2Proof.Machine

variable (s : State)

/-! ### `consume` -/

@[simp] theorem consume_coef (n : Nat) : (consume n s).coef = s.coef := rfl
@[simp] theorem consume_hist (n : Nat) : (consume n s).hist = s.hist := rfl
@[simp] theorem consume_topo (n : Nat) : (consume n s).topo = s.topo := rfl
@[simp] theorem consume_alg (n : Nat) : (consume n s).alg = s.alg := rfl
@[simp] theorem consume_fc (n : Nat) : (consume n s).fc = s.fc := rfl
@[simp] theorem consume_q (n : Nat) : (consume n s).q = s.q := rfl
@[simp] theorem consume_gain (n : Nat) : (consume n s).gain = s.gain := rfl
@[simp] theorem consume_fs (n : Nat) : (consume n s).fs = s.fs := rfl
@[simp] theorem consume_dirty (n : Nat) : (consume n s).dirty = s.dirty := rfl
@[simp] theorem consume_prepared (n : Nat) : (consume n s).prepared = s.prepared := rfl
@[simp] theorem consume_cmderr (n : Nat) : (consume n s).cmderr = s.cmderr := rfl
@[simp] theorem consume_stream (n : Nat) : (consume n s).stream = s.stream := rfl
@[simp] theorem consume_pos (n : Nat) : (consume n s).pos = s.pos + n := rfl
@[simp] theorem consume_received (n : Nat) : (consume n s).received = 0 := rfl
@[simp] theorem consume_responses (n : Nat) : (consume n s).responses = s.responses := rfl
@[simp] theorem consume_rst (n : Nat) : (consume n s).rst = s.rst := rfl
@[simp] theorem consume_nanIx (n : Nat) : (consume n s).nanIx = s.nanIx := rfl

/-! ### `holdPartial` -/

@[simp] theorem holdPartial_coef : (holdPartial s).coef = s.coef := rfl
@[simp] theorem holdPartial_hist : (holdPartial s).hist = s.hist := rfl
@[simp] theorem holdPartial_topo : (holdPartial s).topo = s.topo := rfl
@[simp] theorem holdPartial_alg : (holdPartial s).alg = s.alg := rfl
@[simp] theorem holdPartial_fc : (holdPartial s).fc = s.fc := rfl
@[simp] theorem holdPartial_q : (holdPartial s).q = s.q := rfl
@[simp] theorem holdPartial_gain : (holdPartial s).gain = s.gain := rfl
@[simp] theorem holdPartial_fs : (holdPartial s).fs = s.fs := rfl
@[simp] theorem holdPartial_dirty : (holdPartial s).dirty = s.dirty := rfl
@[simp] theorem holdPartial_prepared : (holdPartial s).prepared = s.prepared := rfl
@[simp] theorem holdPartial_cmderr : (holdPartial s).cmderr = s.cmderr := rfl
@[simp] theorem holdPartial_stream : (holdPartial s).stream = s.stream := rfl
@[simp] theorem holdPartial_pos : (holdPartial s).pos = s.pos := rfl
@[simp] theorem holdPartial_received : (holdPartial s).received = (unconsumed s).length := rfl
@[simp] theorem holdPartial_responses : (holdPartial s).responses = s.responses := rfl
@[simp] theorem holdPartial_rst : (holdPartial s).rst = s.rst := rfl
@[simp] theorem holdPartial_nanIx : (holdPartial s).nanIx = s.nanIx := rfl

/-! ### `respWrite` -/

@[simp] theorem respWrite_coef (v : F64) : (respWrite v s).coef = s.coef := rfl
@[simp] theorem respWrite_hist (v : F64) : (respWrite v s).hist = s.hist := rfl
@[simp] theorem respWrite_topo (v : F64) : (respWrite v s).topo = s.topo := rfl
@[simp] theorem respWrite_alg (v : F64) : (respWrite v s).alg = s.alg := rfl
@[simp] theorem respWrite_fc (v : F64) : (respWrite v s).fc = s.fc := rfl
@[simp] theorem respWrite_q (v : F64) : (respWrite v s).q = s.q := rfl
@[simp] theorem respWrite_gain (v : F64) : (respWrite v s).gain = s.gain := rfl
@[simp] theorem respWrite_fs (v : F64) : (respWrite v s).fs = s.fs := rfl
@[simp] theorem respWrite_dirty (v : F64) : (respWrite v s).dirty = s.dirty := rfl
@[simp] theorem respWrite_prepared (v : F64) : (respWrite v s).prepared = s.prepared := rfl
@[simp] theorem respWrite_cmderr (v : F64) : (respWrite v s).cmderr = s.cmderr := rfl
@[simp] theorem respWrite_stream (v : F64) : (respWrite v s).stream = s.stream := rfl
@[simp] theorem respWrite_pos (v : F64) : (respWrite v s).pos = s.pos := rfl
@[simp] theorem respWrite_received (v : F64) : (respWrite v s).received = s.received := rfl
@[simp] theorem respWrite_responses (v : F64) : (respWrite v s).responses = s.responses ++ operandWords v := rfl
@[simp] theorem respWrite_rst (v : F64) : (respWrite v s).rst = s.rst := rfl
@[simp] theorem respWrite_nanIx (v : F64) : (respWrite v s).nanIx = s.nanIx := rfl

/-! ### `clearHistory` -/

@[simp] theorem clearHistory_coef : (clearHistory s).coef = s.coef := rfl
@[simp] theorem clearHistory_hist : (clearHistory s).hist = ⟨Fp.zero, Fp.zero, Fp.zero, Fp.zero⟩ := rfl
@[simp] theorem clearHistory_topo : (clearHistory s).topo = s.topo := rfl
@[simp] theorem clearHistory_alg : (clearHistory s).alg = s.alg := rfl
@[simp] theorem clearHistory_fc : (clearHistory s).fc = s.fc := rfl
@[simp] theorem clearHistory_q : (clearHistory s).q = s.q := rfl
@[simp] theorem clearHistory_gain : (clearHistory s).gain = s.gain := rfl
@[simp] theorem clearHistory_fs : (clearHistory s).fs = s.fs := rfl
@[simp] theorem clearHistory_dirty : (clearHistory s).dirty = s.dirty := rfl
@[simp] theorem clearHistory_prepared : (clearHistory s).prepared = s.prepared := rfl
@[simp] theorem clearHistory_cmderr : (clearHistory s).cmderr = s.cmderr := rfl
@[simp] theorem clearHistory_stream : (clearHistory s).stream = s.stream := rfl
@[simp] theorem clearHistory_pos : (clearHistory s).pos = s.pos := rfl
@[simp] theorem clearHistory_received : (clearHistory s).received = s.received := rfl
@[simp] theorem clearHistory_responses : (clearHistory s).responses = s.responses := rfl
@[simp] theorem clearHistory_rst : (clearHistory s).rst = s.rst := rfl
@[simp] theorem clearHistory_nanIx : (clearHistory s).nanIx = s.nanIx := rfl

/-! ### `markChanged` -/

@[simp] theorem markChanged_coef (c : Bool) : (markChanged c s).coef = s.coef := rfl
@[simp] theorem markChanged_hist (c : Bool) : (markChanged c s).hist = s.hist := rfl
@[simp] theorem markChanged_topo (c : Bool) : (markChanged c s).topo = s.topo := rfl
@[simp] theorem markChanged_alg (c : Bool) : (markChanged c s).alg = s.alg := rfl
@[simp] theorem markChanged_fc (c : Bool) : (markChanged c s).fc = s.fc := rfl
@[simp] theorem markChanged_q (c : Bool) : (markChanged c s).q = s.q := rfl
@[simp] theorem markChanged_gain (c : Bool) : (markChanged c s).gain = s.gain := rfl
@[simp] theorem markChanged_fs (c : Bool) : (markChanged c s).fs = s.fs := rfl
@[simp] theorem markChanged_dirty (c : Bool) : (markChanged c s).dirty = (s.dirty || c) := rfl
@[simp] theorem markChanged_prepared (c : Bool) : (markChanged c s).prepared = s.prepared := rfl
@[simp] theorem markChanged_cmderr (c : Bool) : (markChanged c s).cmderr = s.cmderr := rfl
@[simp] theorem markChanged_stream (c : Bool) : (markChanged c s).stream = s.stream := rfl
@[simp] theorem markChanged_pos (c : Bool) : (markChanged c s).pos = s.pos := rfl
@[simp] theorem markChanged_received (c : Bool) : (markChanged c s).received = s.received := rfl
@[simp] theorem markChanged_responses (c : Bool) : (markChanged c s).responses = s.responses := rfl
@[simp] theorem markChanged_rst (c : Bool) : (markChanged c s).rst = s.rst := rfl
@[simp] theorem markChanged_nanIx (c : Bool) : (markChanged c s).nanIx = s.nanIx := rfl

/-! ### `clearDirty` -/

@[simp] theorem clearDirty_coef : (clearDirty s).coef = s.coef := rfl
@[simp] theorem clearDirty_hist : (clearDirty s).hist = s.hist := rfl
@[simp] theorem clearDirty_topo : (clearDirty s).topo = s.topo := rfl
@[simp] theorem clearDirty_alg : (clearDirty s).alg = s.alg := rfl
@[simp] theorem clearDirty_fc : (clearDirty s).fc = s.fc := rfl
@[simp] theorem clearDirty_q : (clearDirty s).q = s.q := rfl
@[simp] theorem clearDirty_gain : (clearDirty s).gain = s.gain := rfl
@[simp] theorem clearDirty_fs : (clearDirty s).fs = s.fs := rfl
@[simp] theorem clearDirty_dirty : (clearDirty s).dirty = false := rfl
@[simp] theorem clearDirty_prepared : (clearDirty s).prepared = s.prepared := rfl
@[simp] theorem clearDirty_cmderr : (clearDirty s).cmderr = s.cmderr := rfl
@[simp] theorem clearDirty_stream : (clearDirty s).stream = s.stream := rfl
@[simp] theorem clearDirty_pos : (clearDirty s).pos = s.pos := rfl
@[simp] theorem clearDirty_received : (clearDirty s).received = s.received := rfl
@[simp] theorem clearDirty_responses : (clearDirty s).responses = s.responses := rfl
@[simp] theorem clearDirty_rst : (clearDirty s).rst = s.rst := rfl
@[simp] theorem clearDirty_nanIx : (clearDirty s).nanIx = s.nanIx := rfl

/-! ### `setPrepared` -/

@[simp] theorem setPrepared_coef : (setPrepared s).coef = s.coef := rfl
@[simp] theorem setPrepared_hist : (setPrepared s).hist = s.hist := rfl
@[simp] theorem setPrepared_topo : (setPrepared s).topo = s.topo := rfl
@[simp] theorem setPrepared_alg : (setPrepared s).alg = s.alg := rfl
@[simp] theorem setPrepared_fc : (setPrepared s).fc = s.fc := rfl
@[simp] theorem setPrepared_q : (setPrepared s).q = s.q := rfl
@[simp] theorem setPrepared_gain : (setPrepared s).gain = s.gain := rfl
@[simp] theorem setPrepared_fs : (setPrepared s).fs = s.fs := rfl
@[simp] theorem setPrepared_dirty : (setPrepared s).dirty = s.dirty := rfl
@[simp] theorem setPrepared_prepared : (setPrepared s).prepared = true := rfl
@[simp] theorem setPrepared_cmderr : (setPrepared s).cmderr = s.cmderr := rfl
@[simp] theorem setPrepared_stream : (setPrepared s).stream = s.stream := rfl
@[simp] theorem setPrepared_pos : (setPrepared s).pos = s.pos := rfl
@[simp] theorem setPrepared_received : (setPrepared s).received = s.received := rfl
@[simp] theorem setPrepared_responses : (setPrepared s).responses = s.responses := rfl
@[simp] theorem setPrepared_rst : (setPrepared s).rst = s.rst := rfl
@[simp] theorem setPrepared_nanIx : (setPrepared s).nanIx = s.nanIx := rfl

/-! ### `setCmderr` -/

@[simp] theorem setCmderr_coef : (setCmderr s).coef = s.coef := rfl
@[simp] theorem setCmderr_hist : (setCmderr s).hist = s.hist := rfl
@[simp] theorem setCmderr_topo : (setCmderr s).topo = s.topo := rfl
@[simp] theorem setCmderr_alg : (setCmderr s).alg = s.alg := rfl
@[simp] theorem setCmderr_fc : (setCmderr s).fc = s.fc := rfl
@[simp] theorem setCmderr_q : (setCmderr s).q = s.q := rfl
@[simp] theorem setCmderr_gain : (setCmderr s).gain = s.gain := rfl
@[simp] theorem setCmderr_fs : (setCmderr s).fs = s.fs := rfl
@[simp] theorem setCmderr_dirty : (setCmderr s).dirty = s.dirty := rfl
@[simp] theorem setCmderr_prepared : (setCmderr s).prepared = s.prepared := rfl
@[simp] theorem setCmderr_cmderr : (setCmderr s).cmderr = true := rfl
@[simp] theorem setCmderr_stream : (setCmderr s).stream = s.stream := rfl
@[simp] theorem setCmderr_pos : (setCmderr s).pos = s.pos := rfl
@[simp] theorem setCmderr_received : (setCmderr s).received = s.received := rfl
@[simp] theorem setCmderr_responses : (setCmderr s).responses = s.responses := rfl
@[simp] theorem setCmderr_rst : (setCmderr s).rst = s.rst := rfl
@[simp] theorem setCmderr_nanIx : (setCmderr s).nanIx = s.nanIx := rfl

/-! ### `clearCmderr` -/

@[simp] theorem clearCmderr_coef : (clearCmderr s).coef = s.coef := rfl
@[simp] theorem clearCmderr_hist : (clearCmderr s).hist = s.hist := rfl
@[simp] theorem clearCmderr_topo : (clearCmderr s).topo = s.topo := rfl
@[simp] theorem clearCmderr_alg : (clearCmderr s).alg = s.alg := rfl
@[simp] theorem clearCmderr_fc : (clearCmderr s).fc = s.fc := rfl
@[simp] theorem clearCmderr_q : (clearCmderr s).q = s.q := rfl
@[simp] theorem clearCmderr_gain : (clearCmderr s).gain = s.gain := rfl
@[simp] theorem clearCmderr_fs : (clearCmderr s).fs = s.fs := rfl
@[simp] theorem clearCmderr_dirty : (clearCmderr s).dirty = s.dirty := rfl
@[simp] theorem clearCmderr_prepared : (clearCmderr s).prepared = s.prepared := rfl
@[simp] theorem clearCmderr_cmderr : (clearCmderr s).cmderr = false := rfl
@[simp] theorem clearCmderr_stream : (clearCmderr s).stream = s.stream := rfl
@[simp] theorem clearCmderr_pos : (clearCmderr s).pos = s.pos := rfl
@[simp] theorem clearCmderr_received : (clearCmderr s).received = s.received := rfl
@[simp] theorem clearCmderr_responses : (clearCmderr s).responses = s.responses := rfl
@[simp] theorem clearCmderr_rst : (clearCmderr s).rst = s.rst := rfl
@[simp] theorem clearCmderr_nanIx : (clearCmderr s).nanIx = s.nanIx := rfl

/-! ### `illegalCommand` -/

@[simp] theorem illegalCommand_coef : (illegalCommand s).coef = s.coef := rfl
@[simp] theorem illegalCommand_hist : (illegalCommand s).hist = s.hist := rfl
@[simp] theorem illegalCommand_topo : (illegalCommand s).topo = s.topo := rfl
@[simp] theorem illegalCommand_alg : (illegalCommand s).alg = s.alg := rfl
@[simp] theorem illegalCommand_fc : (illegalCommand s).fc = s.fc := rfl
@[simp] theorem illegalCommand_q : (illegalCommand s).q = s.q := rfl
@[simp] theorem illegalCommand_gain : (illegalCommand s).gain = s.gain := rfl
@[simp] theorem illegalCommand_fs : (illegalCommand s).fs = s.fs := rfl
@[simp] theorem illegalCommand_dirty : (illegalCommand s).dirty = s.dirty := rfl
@[simp] theorem illegalCommand_prepared : (illegalCommand s).prepared = s.prepared := rfl
@[simp] theorem illegalCommand_cmderr : (illegalCommand s).cmderr = true := rfl
@[simp] theorem illegalCommand_stream : (illegalCommand s).stream = s.stream := rfl
@[simp] theorem illegalCommand_pos : (illegalCommand s).pos = s.pos := rfl
@[simp] theorem illegalCommand_received : (illegalCommand s).received = s.received := rfl
@[simp] theorem illegalCommand_responses : (illegalCommand s).responses = s.responses := rfl
@[simp] theorem illegalCommand_rst : (illegalCommand s).rst = s.rst := rfl
@[simp] theorem illegalCommand_nanIx : (illegalCommand s).nanIx = s.nanIx := rfl

/-! ### `recompute` -/

@[simp] theorem recompute_coef : (recompute s).coef = (Fp.eval (derive s.alg s.fc s.q s.gain s.fs) s.nanIx).1 := (rfl)
@[simp] theorem recompute_hist : (recompute s).hist = s.hist := rfl
@[simp] theorem recompute_topo : (recompute s).topo = s.topo := rfl
@[simp] theorem recompute_alg : (recompute s).alg = s.alg := rfl
@[simp] theorem recompute_fc : (recompute s).fc = s.fc := rfl
@[simp] theorem recompute_q : (recompute s).q = s.q := rfl
@[simp] theorem recompute_gain : (recompute s).gain = s.gain := rfl
@[simp] theorem recompute_fs : (recompute s).fs = s.fs := rfl
@[simp] theorem recompute_dirty : (recompute s).dirty = false := rfl
@[simp] theorem recompute_prepared : (recompute s).prepared = s.prepared := rfl
@[simp] theorem recompute_cmderr : (recompute s).cmderr = s.cmderr := rfl
@[simp] theorem recompute_stream : (recompute s).stream = s.stream := rfl
@[simp] theorem recompute_pos : (recompute s).pos = s.pos := rfl
@[simp] theorem recompute_received : (recompute s).received = s.received := rfl
@[simp] theorem recompute_responses : (recompute s).responses = s.responses := rfl
@[simp] theorem recompute_rst : (recompute s).rst = s.rst := rfl
@[simp] theorem recompute_nanIx : (recompute s).nanIx = (Fp.eval (derive s.alg s.fc s.q s.gain s.fs) s.nanIx).2 := (rfl)

/-! ### `runBiquad` -/

@[simp] theorem runBiquad_coef (x : F64) : (runBiquad x s).2.coef = s.coef := rfl
@[simp] theorem runBiquad_hist (x : F64) : (runBiquad x s).2.hist = (Fp.eval (biquadStep s.topo s.coef s.hist x) s.nanIx).1.2 := (rfl)
@[simp] theorem runBiquad_topo (x : F64) : (runBiquad x s).2.topo = s.topo := rfl
@[simp] theorem runBiquad_alg (x : F64) : (runBiquad x s).2.alg = s.alg := rfl
@[simp] theorem runBiquad_fc (x : F64) : (runBiquad x s).2.fc = s.fc := rfl
@[simp] theorem runBiquad_q (x : F64) : (runBiquad x s).2.q = s.q := rfl
@[simp] theorem runBiquad_gain (x : F64) : (runBiquad x s).2.gain = s.gain := rfl
@[simp] theorem runBiquad_fs (x : F64) : (runBiquad x s).2.fs = s.fs := rfl
@[simp] theorem runBiquad_dirty (x : F64) : (runBiquad x s).2.dirty = s.dirty := rfl
@[simp] theorem runBiquad_prepared (x : F64) : (runBiquad x s).2.prepared = s.prepared := rfl
@[simp] theorem runBiquad_cmderr (x : F64) : (runBiquad x s).2.cmderr = s.cmderr := rfl
@[simp] theorem runBiquad_stream (x : F64) : (runBiquad x s).2.stream = s.stream := rfl
@[simp] theorem runBiquad_pos (x : F64) : (runBiquad x s).2.pos = s.pos := rfl
@[simp] theorem runBiquad_received (x : F64) : (runBiquad x s).2.received = s.received := rfl
@[simp] theorem runBiquad_responses (x : F64) : (runBiquad x s).2.responses = s.responses := rfl
@[simp] theorem runBiquad_rst (x : F64) : (runBiquad x s).2.rst = s.rst := rfl
@[simp] theorem runBiquad_nanIx (x : F64) : (runBiquad x s).2.nanIx = (Fp.eval (biquadStep s.topo s.coef s.hist x) s.nanIx).2 := (rfl)

/-! ### `hostWrite` -/

@[simp] theorem hostWrite_coef (ws : List Word) : (hostWrite ws s).coef = s.coef := rfl
@[simp] theorem hostWrite_hist (ws : List Word) : (hostWrite ws s).hist = s.hist := rfl
@[simp] theorem hostWrite_topo (ws : List Word) : (hostWrite ws s).topo = s.topo := rfl
@[simp] theorem hostWrite_alg (ws : List Word) : (hostWrite ws s).alg = s.alg := rfl
@[simp] theorem hostWrite_fc (ws : List Word) : (hostWrite ws s).fc = s.fc := rfl
@[simp] theorem hostWrite_q (ws : List Word) : (hostWrite ws s).q = s.q := rfl
@[simp] theorem hostWrite_gain (ws : List Word) : (hostWrite ws s).gain = s.gain := rfl
@[simp] theorem hostWrite_fs (ws : List Word) : (hostWrite ws s).fs = s.fs := rfl
@[simp] theorem hostWrite_dirty (ws : List Word) : (hostWrite ws s).dirty = s.dirty := rfl
@[simp] theorem hostWrite_prepared (ws : List Word) : (hostWrite ws s).prepared = s.prepared := rfl
@[simp] theorem hostWrite_cmderr (ws : List Word) : (hostWrite ws s).cmderr = s.cmderr := rfl
@[simp] theorem hostWrite_stream (ws : List Word) : (hostWrite ws s).stream = s.stream ++ ws := rfl
@[simp] theorem hostWrite_pos (ws : List Word) : (hostWrite ws s).pos = s.pos := rfl
@[simp] theorem hostWrite_received (ws : List Word) : (hostWrite ws s).received = s.received := rfl
@[simp] theorem hostWrite_responses (ws : List Word) : (hostWrite ws s).responses = s.responses := rfl
@[simp] theorem hostWrite_rst (ws : List Word) : (hostWrite ws s).rst = s.rst := rfl
@[simp] theorem hostWrite_nanIx (ws : List Word) : (hostWrite ws s).nanIx = s.nanIx := rfl

/-! ### `assertRst` -/

@[simp] theorem assertRst_coef : (assertRst s).coef = s.coef := rfl
@[simp] theorem assertRst_hist : (assertRst s).hist = s.hist := rfl
@[simp] theorem assertRst_topo : (assertRst s).topo = s.topo := rfl
@[simp] theorem assertRst_alg : (assertRst s).alg = s.alg := rfl
@[simp] theorem assertRst_fc : (assertRst s).fc = s.fc := rfl
@[simp] theorem assertRst_q : (assertRst s).q = s.q := rfl
@[simp] theorem assertRst_gain : (assertRst s).gain = s.gain := rfl
@[simp] theorem assertRst_fs : (assertRst s).fs = s.fs := rfl
@[simp] theorem assertRst_dirty : (assertRst s).dirty = s.dirty := rfl
@[simp] theorem assertRst_prepared : (assertRst s).prepared = s.prepared := rfl
@[simp] theorem assertRst_cmderr : (assertRst s).cmderr = s.cmderr := rfl
@[simp] theorem assertRst_stream : (assertRst s).stream = s.stream := rfl
@[simp] theorem assertRst_pos : (assertRst s).pos = s.pos := rfl
@[simp] theorem assertRst_received : (assertRst s).received = s.received := rfl
@[simp] theorem assertRst_responses : (assertRst s).responses = s.responses := rfl
@[simp] theorem assertRst_rst : (assertRst s).rst = true := rfl
@[simp] theorem assertRst_nanIx : (assertRst s).nanIx = s.nanIx := rfl

/-! ### `runFp`, and the result of `runBiquad` -/

@[simp] theorem runFp_coef {α : Type} (m : FpM α) : (runFp m s).2.coef = s.coef := rfl
@[simp] theorem runFp_hist {α : Type} (m : FpM α) : (runFp m s).2.hist = s.hist := rfl
@[simp] theorem runFp_topo {α : Type} (m : FpM α) : (runFp m s).2.topo = s.topo := rfl
@[simp] theorem runFp_alg {α : Type} (m : FpM α) : (runFp m s).2.alg = s.alg := rfl
@[simp] theorem runFp_fc {α : Type} (m : FpM α) : (runFp m s).2.fc = s.fc := rfl
@[simp] theorem runFp_q {α : Type} (m : FpM α) : (runFp m s).2.q = s.q := rfl
@[simp] theorem runFp_gain {α : Type} (m : FpM α) : (runFp m s).2.gain = s.gain := rfl
@[simp] theorem runFp_fs {α : Type} (m : FpM α) : (runFp m s).2.fs = s.fs := rfl
@[simp] theorem runFp_dirty {α : Type} (m : FpM α) : (runFp m s).2.dirty = s.dirty := rfl
@[simp] theorem runFp_prepared {α : Type} (m : FpM α) : (runFp m s).2.prepared = s.prepared := rfl
@[simp] theorem runFp_cmderr {α : Type} (m : FpM α) : (runFp m s).2.cmderr = s.cmderr := rfl
@[simp] theorem runFp_stream {α : Type} (m : FpM α) : (runFp m s).2.stream = s.stream := rfl
@[simp] theorem runFp_pos {α : Type} (m : FpM α) : (runFp m s).2.pos = s.pos := rfl
@[simp] theorem runFp_received {α : Type} (m : FpM α) : (runFp m s).2.received = s.received := rfl
@[simp] theorem runFp_responses {α : Type} (m : FpM α) : (runFp m s).2.responses = s.responses := rfl
@[simp] theorem runFp_rst {α : Type} (m : FpM α) : (runFp m s).2.rst = s.rst := rfl
@[simp] theorem runFp_nanIx {α : Type} (m : FpM α) : (runFp m s).2.nanIx = (Fp.eval m s.nanIx).2 := (rfl)
@[simp] theorem runFp_result {α : Type} (m : FpM α) : (runFp m s).1 = (Fp.eval m s.nanIx).1 := (rfl)
@[simp] theorem runBiquad_result (x : F64) :
    (runBiquad x s).1 = (Fp.eval (biquadStep s.topo s.coef s.hist x) s.nanIx).1.1 := (rfl)

/-! ### `runFilter`, by its parts -/

@[simp] theorem runFilter_coef (x : F64) : (runFilter x s).2.coef = (recomputeIfDirty s).coef := (rfl)
@[simp] theorem runFilter_hist (x : F64) : (runFilter x s).2.hist = (runBiquad x (recomputeIfDirty s)).2.hist := (rfl)
@[simp] theorem runFilter_result (x : F64) : (runFilter x s).1 =
    (Fp.eval (mixDryWet (recomputeIfDirty s).coef.d0 (recomputeIfDirty s).coef.c0 x (runBiquad x (recomputeIfDirty s)).1)
      (runBiquad x (recomputeIfDirty s)).2.nanIx).1 := (rfl)

end Sys2Proof.Machine
end

