-- ==== Sys2Proof/Laws/Exec.lean ====
section
/-! SUPPORT. What the decoder, `exec` and `step` can do, each said once: later proofs cite these and do not unfold them. -/

namespace Sys2Proof.Machine

/-! ### Decoding -/

theorem decode_nil : decode [] = .error (.incomplete 0 1) := rfl

theorem decode_cons_unassigned {w : Word} {rest : List Word} (h : Opcode.ofCode? (opcField w) = none) :
    decode (w :: rest) = .error (.unassignedOpcode (opcField w)) := by
  simp [decode, h]

theorem decode_cons_incomplete {w : Word} {rest : List Word} {o : Opcode} (h : Opcode.ofCode? (opcField w) = some o)
    (hl : (w :: rest).length < o.length) : decode (w :: rest) = .error (.incomplete (w :: rest).length o.length) := by
  simp only [decode, h, hl, ↓reduceIte]

theorem decode_cons_command {w : Word} {rest : List Word} {o : Opcode} (h : Opcode.ofCode? (opcField w) = some o)
    (hl : o.length ≤ (w :: rest).length) :
    decode (w :: rest) = .ok (buildInstr o w (w :: rest), (w :: rest).drop o.length) := by
  simp only [decode, h, Nat.not_lt.mpr hl, ↓reduceIte]

/-- The command that an opcode builds has that opcode. -/
@[simp] theorem buildInstr_opcode (o : Opcode) (w : Word) (ws : List Word) : (buildInstr o w ws).opcode = o := by
  cases o <;> rfl

/-- Everything a successful decoding says: the words begin with an assigned opcode, hold the whole command, and what follows
it is the rest. -/
theorem decode_ok {ws rest : List Word} {i : Instr} (h : decode ws = .ok (i, rest)) :
    ∃ w tail, ws = w :: tail ∧ Opcode.ofCode? (opcField w) = some i.opcode ∧ i = buildInstr i.opcode w ws ∧
      i.length ≤ ws.length ∧ rest = ws.drop i.length := by
  cases ws with
  | nil => simp [decode] at h
  | cons w tail =>
    cases ho : Opcode.ofCode? (opcField w) with
    | none => rw [decode_cons_unassigned ho] at h; cases h
    | some o =>
      by_cases hl : (w :: tail).length < o.length
      · rw [decode_cons_incomplete ho hl] at h; cases h
      · rw [decode_cons_command ho (Nat.not_lt.mp hl)] at h
        obtain ⟨rfl, rfl⟩ : buildInstr o w (w :: tail) = i ∧ (w :: tail).drop o.length = rest := by
          simpa only [Except.ok.injEq, Prod.mk.injEq] using h
        exact ⟨w, tail, rfl, by simp [ho], by simp, by simpa [Instr.length] using hl, by simp [Instr.length]⟩

/-- Words that lack a part say how many are here. -/
theorem decode_incomplete {ws : List Word} {got need : Nat} (h : decode ws = .error (.incomplete got need)) :
    got = ws.length ∧ ws.length < need := by
  cases ws with
  | nil => cases h; exact ⟨rfl, by decide⟩
  | cons w tail =>
    cases ho : Opcode.ofCode? (opcField w) with
    | none => rw [decode_cons_unassigned ho] at h; cases h
    | some o =>
      by_cases hl : (w :: tail).length < o.length
      · rw [decode_cons_incomplete ho hl] at h
        obtain ⟨rfl, rfl⟩ : (w :: tail).length = got ∧ o.length = need := by
          simpa only [Except.error.injEq, DecodeError.incomplete.injEq] using h
        exact ⟨rfl, hl⟩
      · rw [decode_cons_command ho (Nat.not_lt.mp hl)] at h; cases h

/-- An illegal command word is there. -/
theorem decode_unassigned {ws : List Word} {c : BitVec 8} (h : decode ws = .error (.unassignedOpcode c)) :
    ∃ w tail, ws = w :: tail ∧ opcField w = c ∧ Opcode.ofCode? c = none := by
  cases ws with
  | nil => cases h
  | cons w tail =>
    cases ho : Opcode.ofCode? (opcField w) with
    | none =>
      rw [decode_cons_unassigned ho] at h
      obtain rfl : opcField w = c := by simpa only [Except.error.injEq, DecodeError.unassignedOpcode.injEq] using h
      exact ⟨w, tail, rfl, rfl, ho⟩
    | some o =>
      by_cases hl : (w :: tail).length < o.length
      · rw [decode_cons_incomplete ho hl] at h; cases h
      · rw [decode_cons_command ho (Nat.not_lt.mp hl)] at h; cases h

/-! ### Executing -/

/-- `recomputeIfDirty` leaves DIRTY clear. -/
@[simp] theorem recomputeIfDirty_dirty (s : State) : (recomputeIfDirty s).dirty = false := by
  unfold recomputeIfDirty
  split
  next => rfl
  next h => simpa using h

/-- `recomputeIfDirty` writes the coefficients, DIRTY and the free-value counter only. -/
theorem recomputeIfDirty_frame (s : State) :
    recomputeIfDirty s =
      { s with coef := (recomputeIfDirty s).coef, dirty := false, nanIx := (recomputeIfDirty s).nanIx } := by
  unfold recomputeIfDirty
  split
  next => rfl
  next h =>
    have hd : s.dirty = false := by simpa using h
    cases s
    simp_all

/-- `runFilter` writes the coefficients, the history, DIRTY and the free-value counter only. -/
theorem runFilter_frame (x : F64) (s : State) :
    (runFilter x s).2 =
      { s with
        coef := (recomputeIfDirty s).coef, hist := (runBiquad x (recomputeIfDirty s)).2.hist, dirty := false
        nanIx := (runFilter x s).2.nanIx } := by
  have h : (runFilter x s).2 = { recomputeIfDirty s with
      hist := (runBiquad x (recomputeIfDirty s)).2.hist, nanIx := (runFilter x s).2.nanIx } := rfl
  rw [h]
  generalize (runBiquad x (recomputeIfDirty s)).2.hist = k
  generalize (runFilter x s).2.nanIx = n
  rw [recomputeIfDirty_frame s]

/-! ### `recomputeIfDirty` and `runFilter`, field by field -/

@[simp] theorem recomputeIfDirty_hist (s : State) : (recomputeIfDirty s).hist = s.hist := by rw [recomputeIfDirty_frame]
@[simp] theorem recomputeIfDirty_topo (s : State) : (recomputeIfDirty s).topo = s.topo := by rw [recomputeIfDirty_frame]
@[simp] theorem recomputeIfDirty_alg (s : State) : (recomputeIfDirty s).alg = s.alg := by rw [recomputeIfDirty_frame]
@[simp] theorem recomputeIfDirty_fc (s : State) : (recomputeIfDirty s).fc = s.fc := by rw [recomputeIfDirty_frame]
@[simp] theorem recomputeIfDirty_q (s : State) : (recomputeIfDirty s).q = s.q := by rw [recomputeIfDirty_frame]
@[simp] theorem recomputeIfDirty_gain (s : State) : (recomputeIfDirty s).gain = s.gain := by rw [recomputeIfDirty_frame]
@[simp] theorem recomputeIfDirty_fs (s : State) : (recomputeIfDirty s).fs = s.fs := by rw [recomputeIfDirty_frame]
@[simp] theorem recomputeIfDirty_prepared (s : State) : (recomputeIfDirty s).prepared = s.prepared := by rw [recomputeIfDirty_frame]
@[simp] theorem recomputeIfDirty_cmderr (s : State) : (recomputeIfDirty s).cmderr = s.cmderr := by rw [recomputeIfDirty_frame]
@[simp] theorem recomputeIfDirty_stream (s : State) : (recomputeIfDirty s).stream = s.stream := by rw [recomputeIfDirty_frame]
@[simp] theorem recomputeIfDirty_pos (s : State) : (recomputeIfDirty s).pos = s.pos := by rw [recomputeIfDirty_frame]
@[simp] theorem recomputeIfDirty_received (s : State) : (recomputeIfDirty s).received = s.received := by rw [recomputeIfDirty_frame]
@[simp] theorem recomputeIfDirty_responses (s : State) : (recomputeIfDirty s).responses = s.responses := by rw [recomputeIfDirty_frame]
@[simp] theorem recomputeIfDirty_rst (s : State) : (recomputeIfDirty s).rst = s.rst := by rw [recomputeIfDirty_frame]
@[simp] theorem runFilter_dirty (x : F64) (s : State) : (runFilter x s).2.dirty = false := by rw [runFilter_frame]
@[simp] theorem runFilter_topo (x : F64) (s : State) : (runFilter x s).2.topo = s.topo := by rw [runFilter_frame]
@[simp] theorem runFilter_alg (x : F64) (s : State) : (runFilter x s).2.alg = s.alg := by rw [runFilter_frame]
@[simp] theorem runFilter_fc (x : F64) (s : State) : (runFilter x s).2.fc = s.fc := by rw [runFilter_frame]
@[simp] theorem runFilter_q (x : F64) (s : State) : (runFilter x s).2.q = s.q := by rw [runFilter_frame]
@[simp] theorem runFilter_gain (x : F64) (s : State) : (runFilter x s).2.gain = s.gain := by rw [runFilter_frame]
@[simp] theorem runFilter_fs (x : F64) (s : State) : (runFilter x s).2.fs = s.fs := by rw [runFilter_frame]
@[simp] theorem runFilter_prepared (x : F64) (s : State) : (runFilter x s).2.prepared = s.prepared := by rw [runFilter_frame]
@[simp] theorem runFilter_cmderr (x : F64) (s : State) : (runFilter x s).2.cmderr = s.cmderr := by rw [runFilter_frame]
@[simp] theorem runFilter_stream (x : F64) (s : State) : (runFilter x s).2.stream = s.stream := by rw [runFilter_frame]
@[simp] theorem runFilter_pos (x : F64) (s : State) : (runFilter x s).2.pos = s.pos := by rw [runFilter_frame]
@[simp] theorem runFilter_received (x : F64) (s : State) : (runFilter x s).2.received = s.received := by rw [runFilter_frame]
@[simp] theorem runFilter_responses (x : F64) (s : State) : (runFilter x s).2.responses = s.responses := by rw [runFilter_frame]
@[simp] theorem runFilter_rst (x : F64) (s : State) : (runFilter x s).2.rst = s.rst := by rw [runFilter_frame]

/-! ### `exec` -/

/-- Every command completes, and none touches the command stream, the position, the partial count or RST. -/
theorem exec_next (i : Instr) (s : State) :
    ∃ t, exec i s = .next t ∧ t.stream = s.stream ∧ t.pos = s.pos ∧ t.received = s.received ∧ t.rst = s.rst := by
  cases i with
  | fltProcess x =>
    refine ⟨_, rfl, ?_⟩
    rw [runFilter_frame]
    exact ⟨rfl, rfl, rfl, rfl⟩
  | rdReg n =>
    refine ⟨_, rfl, ?_⟩
    split <;> exact ⟨rfl, rfl, rfl, rfl⟩
  | _ => exact ⟨_, rfl, rfl, rfl, rfl, rfl⟩

/-! ### Stepping -/

theorem step_rst {s : State} (h : s.rst = true) : step s = .next s := by simp [step, h]

theorem step_command {s : State} {i : Instr} {rest : List Word} (h : s.rst = false)
    (hd : decode (unconsumed s) = .ok (i, rest)) : step s = exec i (consume i.length s) := by
  simp [step, fetch, h, hd]

theorem step_unassigned {s : State} {c : BitVec 8} (h : s.rst = false)
    (hd : decode (unconsumed s) = .error (.unassignedOpcode c)) : step s = .next (illegalCommand (consume 1 s)) := by
  simp [step, fetch, h, hd]

theorem step_incomplete {s : State} {got need : Nat} (h : s.rst = false)
    (hd : decode (unconsumed s) = .error (.incomplete got need)) : step s = .next (holdPartial s) := by
  simp [step, fetch, h, hd]

/-- Everything a step can do: nothing under RST, one whole command, one illegal command word, or waiting. -/
theorem step_cases {s t : State} (h : step s = .next t) :
    (s.rst = true ∧ t = s) ∨
    (s.rst = false ∧ ∃ i rest, decode (unconsumed s) = .ok (i, rest) ∧ exec i (consume i.length s) = .next t) ∨
    (s.rst = false ∧ ∃ c, decode (unconsumed s) = .error (.unassignedOpcode c) ∧ t = illegalCommand (consume 1 s)) ∨
    (s.rst = false ∧ ∃ got need, decode (unconsumed s) = .error (.incomplete got need) ∧ t = holdPartial s) := by
  cases hr : s.rst with
  | true =>
    rw [step_rst hr] at h
    cases h; exact .inl ⟨rfl, rfl⟩
  | false =>
    refine .inr ?_
    cases hd : decode (unconsumed s) with
    | ok p =>
      obtain ⟨i, rest⟩ := p
      rw [step_command hr hd] at h
      exact .inl ⟨rfl, i, rest, rfl, h⟩
    | error e =>
      cases e with
      | unassignedOpcode c =>
        rw [step_unassigned hr hd] at h
        cases h; exact .inr (.inl ⟨rfl, c, rfl, rfl⟩)
      | incomplete got need =>
        rw [step_incomplete hr hd] at h
        cases h; exact .inr (.inr ⟨rfl, got, need, rfl, rfl⟩)

end Sys2Proof.Machine
end

