-- ==== Sys2Proof/Laws/Fp.lean ====
section
/-! SUPPORT. What the arithmetic can be relied on for: how a computation runs, that a free NaN is a NaN, and that no operation
looks at the sign or payload of a NaN operand. -/

namespace Sys2Proof.Machine

/-! ### Running a computation -/

@[simp] theorem Fp.eval_pure {α : Type} (a : α) (n : Nat) : Fp.eval (pure a) n = (a, n) := rfl

@[simp] theorem Fp.eval_bind {α β : Type} (m : FpM α) (f : α → FpM β) (n : Nat) :
    Fp.eval (m >>= f) n = Fp.eval (f (Fp.eval m n).1) (Fp.eval m n).2 := rfl

@[simp] theorem Fp.eval_settle (r : Option F64) (n : Nat) :
    Fp.eval (Fp.settle r) n = (r.getD (Fp.nanOf (Config.nanChoice n)), n + 1) := rfl

/-! ### NaN bits -/

theorem Fp.toNat_pack (neg : Bool) {m : Nat} (h : m < 2 ^ 63) :
    (Fp.pack neg m).toNat = m + if neg then 2 ^ 63 else 0 := by
  unfold Fp.pack
  rw [BitVec.toNat_ofNat]
  split <;> omega

theorem Fp.isNaN_iff (v : F64) : Fp.isNaN v = true ↔ Fp.expField v = 2047 ∧ Fp.fracField v ≠ 0 := by
  simp [Fp.isNaN]

/-- A free NaN is a NaN, whatever was chosen. -/
@[simp] theorem Fp.isNaN_nanOf (c : BitVec 53) : Fp.isNaN (Fp.nanOf c) = true := by
  have hp : c.toNat % 2 ^ 52 < 2 ^ 52 := Nat.mod_lt _ (by decide)
  generalize hk : (if c.toNat % 2 ^ 52 = 0 then 1 else c.toNat % 2 ^ 52) = k
  have hk0 : 0 < k := by subst hk; split <;> omega
  have hk1 : k < 2 ^ 52 := by subst hk; split <;> omega
  have ht : (Fp.nanOf c).toNat = (Fp.infMagnitude + k) + if c.msb then 2 ^ 63 else 0 := by
    unfold Fp.nanOf
    rw [hk]
    exact Fp.toNat_pack _ (by unfold Fp.infMagnitude; omega)
  rw [Fp.isNaN_iff]
  unfold Fp.expField Fp.fracField
  rw [ht]
  unfold Fp.infMagnitude
  split <;> omega

@[simp] theorem Fp.datum_of_isNaN {v : F64} (h : Fp.isNaN v = true) : Fp.datum v = .nan := by
  rw [Fp.isNaN_iff] at h
  simp [Fp.datum, h.1, h.2]

/-- Every NaN is the free NaN of some choice: the free values leave nothing out (R10). -/
theorem Fp.nanOf_surjective {v : F64} (h : Fp.isNaN v = true) : ∃ c, Fp.nanOf c = v := by
  rw [Fp.isNaN_iff] at h
  obtain ⟨he, hf⟩ := h
  have hlt := v.isLt
  refine ⟨BitVec.ofNat 53 (v.toNat % 2 ^ 52 + v.toNat / 2 ^ 63 * 2 ^ 52), ?_⟩
  unfold Fp.expField at he
  unfold Fp.fracField at hf
  have hc : (BitVec.ofNat 53 (v.toNat % 2 ^ 52 + v.toNat / 2 ^ 63 * 2 ^ 52)).toNat =
      v.toNat % 2 ^ 52 + v.toNat / 2 ^ 63 * 2 ^ 52 := by
    rw [BitVec.toNat_ofNat]; omega
  apply BitVec.eq_of_toNat_eq
  unfold Fp.nanOf
  rw [BitVec.msb_eq_decide, hc, Fp.toNat_pack _ (by unfold Fp.infMagnitude; split <;> omega)]
  unfold Fp.infMagnitude
  have : v.toNat / 2 ^ 63 = 0 ∨ v.toNat / 2 ^ 63 = 1 := by omega
  rcases this with h | h <;> rw [h] <;> simp only [decide_eq_true_eq] <;> split <;> split <;> omega

/-! ### `Same` -/

theorem Same.refl (a : F64) : Same a a := .inl rfl

theorem Same.symm {a b : F64} (h : Same a b) : Same b a := by
  rcases h with rfl | ⟨ha, hb⟩
  · exact .inl rfl
  · exact .inr ⟨hb, ha⟩

theorem Same.trans {a b c : F64} (h : Same a b) (k : Same b c) : Same a c := by
  rcases h with rfl | ⟨ha, hb⟩
  · exact k
  · rcases k with rfl | ⟨_, hc⟩
    · exact .inr ⟨ha, hb⟩
    · exact .inr ⟨ha, hc⟩

theorem Same.isNaN_eq {a b : F64} (h : Same a b) : Fp.isNaN a = Fp.isNaN b := by
  rcases h with rfl | ⟨ha, hb⟩
  · rfl
  · rw [ha, hb]

theorem Same.datum_eq {a b : F64} (h : Same a b) : Fp.datum a = Fp.datum b := by
  rcases h with rfl | ⟨ha, hb⟩
  · rfl
  · rw [Fp.datum_of_isNaN ha, Fp.datum_of_isNaN hb]

/-- What a result settles to is the same value from any free-value index. -/
theorem Same.settle (r : Option F64) (n m : Nat) :
    Same (Fp.eval (Fp.settle r) n).1 (Fp.eval (Fp.settle r) m).1 := by
  cases r with
  | some v => exact .inl rfl
  | none => exact .inr ⟨by simp, by simp⟩

/-- The value an operation settles to and the plain value of the same result. -/
theorem Same.plain (r : Option F64) (n : Nat) : Same (Fp.eval (Fp.settle r) n).1 (r.getD Plain.aNaN) := by
  cases r with
  | some v => exact .inl rfl
  | none => exact .inr ⟨by simp, by decide⟩

theorem Fp.isNaN_neg (v : F64) : Fp.isNaN (Fp.neg v) = Fp.isNaN v := by
  have h : (Fp.neg v).toNat % 2 ^ 63 = v.toNat % 2 ^ 63 := by
    have : (Fp.neg v).setWidth 63 = v.setWidth 63 := by
      ext i hi
      simp [Fp.neg, BitVec.getElem_setWidth]
    simpa [BitVec.toNat_setWidth] using congrArg BitVec.toNat this
  have he : Fp.expField (Fp.neg v) = Fp.expField v := by unfold Fp.expField; omega
  have hf : Fp.fracField (Fp.neg v) = Fp.fracField v := by unfold Fp.fracField; omega
  simp [Fp.isNaN, he, hf]

theorem Same.neg {a b : F64} (h : Same a b) : Same (Fp.neg a) (Fp.neg b) := by
  rcases h with rfl | ⟨ha, hb⟩
  · exact .inl rfl
  · exact .inr ⟨by rw [Fp.isNaN_neg, ha], by rw [Fp.isNaN_neg, hb]⟩

/-! ### No operation looks at the bits of a NaN operand -/

theorem Fp.addCore_same {a a' b b' : F64} (ha : Same a a') (hb : Same b b') : Fp.addCore a b = Fp.addCore a' b' := by
  unfold Fp.addCore; rw [ha.datum_eq, hb.datum_eq]

theorem Fp.subCore_same {a a' b b' : F64} (ha : Same a a') (hb : Same b b') : Fp.subCore a b = Fp.subCore a' b' :=
  Fp.addCore_same ha hb.neg

theorem Fp.mulCore_same {a a' b b' : F64} (ha : Same a a') (hb : Same b b') : Fp.mulCore a b = Fp.mulCore a' b' := by
  unfold Fp.mulCore; rw [ha.datum_eq, hb.datum_eq]

theorem Fp.divCore_same {a a' b b' : F64} (ha : Same a a') (hb : Same b b') : Fp.divCore a b = Fp.divCore a' b' := by
  unfold Fp.divCore; rw [ha.datum_eq, hb.datum_eq]

theorem Fp.sqrtCore_same {a a' : F64} (ha : Same a a') : Fp.sqrtCore a = Fp.sqrtCore a' := by
  unfold Fp.sqrtCore; rw [ha.datum_eq]

theorem Fp.sinCore_same {a a' : F64} (ha : Same a a') : Fp.sinCore a = Fp.sinCore a' := by
  rcases ha with rfl | ⟨h, h'⟩
  · rfl
  · simp [Fp.sinCore, h, h']

theorem Fp.cosCore_same {a a' : F64} (ha : Same a a') : Fp.cosCore a = Fp.cosCore a' := by
  rcases ha with rfl | ⟨h, h'⟩
  · rfl
  · simp [Fp.cosCore, h, h']

theorem Fp.tanCore_same {a a' : F64} (ha : Same a a') : Fp.tanCore a = Fp.tanCore a' := by
  rcases ha with rfl | ⟨h, h'⟩
  · rfl
  · simp [Fp.tanCore, h, h']

theorem Fp.expCore_same {a a' : F64} (ha : Same a a') : Fp.expCore a = Fp.expCore a' := by
  rcases ha with rfl | ⟨h, h'⟩
  · rfl
  · simp [Fp.expCore, h, h']

theorem Fp.coshCore_same {a a' : F64} (ha : Same a a') : Fp.coshCore a = Fp.coshCore a' := by
  rcases ha with rfl | ⟨h, h'⟩
  · rfl
  · simp [Fp.coshCore, h, h']

theorem Fp.log10Core_same {a a' : F64} (ha : Same a a') : Fp.log10Core a = Fp.log10Core a' := by
  rcases ha with rfl | ⟨h, h'⟩
  · rfl
  · simp [Fp.log10Core, h, h']

theorem Fp.powCore_same {a a' b b' : F64} (ha : Same a a') (hb : Same b b') : Fp.powCore a b = Fp.powCore a' b' := by
  rcases ha with rfl | ⟨h, h'⟩
  · rcases hb with rfl | ⟨k, k'⟩
    · rfl
    · simp [Fp.powCore, k, k']
  · simp [Fp.powCore, h, h']

theorem Fp.lt_same {a a' b b' : F64} (ha : Same a a') (hb : Same b b') : Fp.lt a b = Fp.lt a' b' := by
  rcases ha with rfl | ⟨h, h'⟩
  · rcases hb with rfl | ⟨k, k'⟩
    · rfl
    · simp [Fp.lt, k, k']
  · simp [Fp.lt, h, h']

theorem Fp.le_same {a a' b b' : F64} (ha : Same a a') (hb : Same b b') : Fp.le a b = Fp.le a' b' := by
  rcases ha with rfl | ⟨h, h'⟩
  · rcases hb with rfl | ⟨k, k'⟩
    · rfl
    · simp [Fp.le, k, k']
  · simp [Fp.le, h, h']

/-- Flushing a NaN leaves it, so it does not look at its bits either. -/
theorem flush_same {a a' : F64} (ha : Same a a') : Same (flush a) (flush a') := by
  rcases ha with rfl | ⟨h, h'⟩
  · exact .inl rfl
  · exact .inr ⟨by simp [flush, flushWith, Fp.lt, h], by simp [flush, flushWith, Fp.lt, h']⟩

/-! ### Computations related from any two free-value indexes -/

/-- From any two free-value indexes the two computations give related results. -/
def FpRel {α β : Type} (R : α → β → Prop) (m : FpM α) (m' : FpM β) : Prop :=
  ∀ n n', R (Fp.eval m n).1 (Fp.eval m' n').1

theorem FpRel.pure {α β : Type} {R : α → β → Prop} {a : α} {b : β} (h : R a b) :
    FpRel R (Pure.pure a) (Pure.pure b) := fun _ _ => h

theorem FpRel.bind {α β γ δ : Type} {R : α → β → Prop} {T : γ → δ → Prop} {m : FpM α} {m' : FpM β} {f : α → FpM γ}
    {f' : β → FpM δ} (h : FpRel R m m') (k : ∀ a b, R a b → FpRel T (f a) (f' b)) : FpRel T (m >>= f) (m' >>= f') :=
  fun n n' => k _ _ (h n n') _ _

theorem FpRel.settle {r r' : Option F64} (h : r = r') : FpRel Same (Fp.settle r) (Fp.settle r') := by
  subst h; exact Same.settle r

theorem FpRel.add {a a' b b' : F64} (ha : Same a a') (hb : Same b b') : FpRel Same (Fp.add a b) (Fp.add a' b') :=
  .settle (Fp.addCore_same ha hb)

theorem FpRel.sub {a a' b b' : F64} (ha : Same a a') (hb : Same b b') : FpRel Same (Fp.sub a b) (Fp.sub a' b') :=
  .settle (Fp.subCore_same ha hb)

theorem FpRel.mul {a a' b b' : F64} (ha : Same a a') (hb : Same b b') : FpRel Same (Fp.mul a b) (Fp.mul a' b') :=
  .settle (Fp.mulCore_same ha hb)

theorem FpRel.div {a a' b b' : F64} (ha : Same a a') (hb : Same b b') : FpRel Same (Fp.div a b) (Fp.div a' b') :=
  .settle (Fp.divCore_same ha hb)

theorem FpRel.sqrt {a a' : F64} (ha : Same a a') : FpRel Same (Fp.sqrt a) (Fp.sqrt a') := .settle (Fp.sqrtCore_same ha)

theorem FpRel.sin {a a' : F64} (ha : Same a a') : FpRel Same (Fp.sin a) (Fp.sin a') := .settle (Fp.sinCore_same ha)

theorem FpRel.cos {a a' : F64} (ha : Same a a') : FpRel Same (Fp.cos a) (Fp.cos a') := .settle (Fp.cosCore_same ha)

theorem FpRel.tan {a a' : F64} (ha : Same a a') : FpRel Same (Fp.tan a) (Fp.tan a') := .settle (Fp.tanCore_same ha)

theorem FpRel.exp {a a' : F64} (ha : Same a a') : FpRel Same (Fp.exp a) (Fp.exp a') := .settle (Fp.expCore_same ha)

theorem FpRel.cosh {a a' : F64} (ha : Same a a') : FpRel Same (Fp.cosh a) (Fp.cosh a') := .settle (Fp.coshCore_same ha)

theorem FpRel.log10 {a a' : F64} (ha : Same a a') : FpRel Same (Fp.log10 a) (Fp.log10 a') :=
  .settle (Fp.log10Core_same ha)

theorem FpRel.pow {a a' b b' : F64} (ha : Same a a') (hb : Same b b') : FpRel Same (Fp.pow a b) (Fp.pow a' b') :=
  .settle (Fp.powCore_same ha hb)

/-! ### Each operation and its plain function -/

theorem Same.add_plain {a a' b b' : F64} (ha : Same a a') (hb : Same b b') (n : Nat) :
    Same (Fp.eval (Fp.add a b) n).1 (Plain.add a' b') := by
  unfold Plain.add; rw [← Fp.addCore_same ha hb]; exact Same.plain _ n

theorem Same.sub_plain {a a' b b' : F64} (ha : Same a a') (hb : Same b b') (n : Nat) :
    Same (Fp.eval (Fp.sub a b) n).1 (Plain.sub a' b') := by
  unfold Plain.sub; rw [← Fp.subCore_same ha hb]; exact Same.plain _ n

theorem Same.mul_plain {a a' b b' : F64} (ha : Same a a') (hb : Same b b') (n : Nat) :
    Same (Fp.eval (Fp.mul a b) n).1 (Plain.mul a' b') := by
  unfold Plain.mul; rw [← Fp.mulCore_same ha hb]; exact Same.plain _ n

theorem Same.div_plain {a a' b b' : F64} (ha : Same a a') (hb : Same b b') (n : Nat) :
    Same (Fp.eval (Fp.div a b) n).1 (Plain.div a' b') := by
  unfold Plain.div; rw [← Fp.divCore_same ha hb]; exact Same.plain _ n

theorem Same.pow_plain {a a' b b' : F64} (ha : Same a a') (hb : Same b b') (n : Nat) :
    Same (Fp.eval (Fp.pow a b) n).1 (Plain.pow a' b') := by
  unfold Plain.pow; rw [← Fp.powCore_same ha hb]; exact Same.plain _ n

theorem Same.sqrt_plain {a a' : F64} (ha : Same a a') (n : Nat) :
    Same (Fp.eval (Fp.sqrt a) n).1 (Plain.sqrt a') := by
  unfold Plain.sqrt; rw [← Fp.sqrtCore_same ha]; exact Same.plain _ n

theorem Same.sin_plain {a a' : F64} (ha : Same a a') (n : Nat) :
    Same (Fp.eval (Fp.sin a) n).1 (Plain.sin a') := by
  unfold Plain.sin; rw [← Fp.sinCore_same ha]; exact Same.plain _ n

theorem Same.cos_plain {a a' : F64} (ha : Same a a') (n : Nat) :
    Same (Fp.eval (Fp.cos a) n).1 (Plain.cos a') := by
  unfold Plain.cos; rw [← Fp.cosCore_same ha]; exact Same.plain _ n

theorem Same.tan_plain {a a' : F64} (ha : Same a a') (n : Nat) :
    Same (Fp.eval (Fp.tan a) n).1 (Plain.tan a') := by
  unfold Plain.tan; rw [← Fp.tanCore_same ha]; exact Same.plain _ n

theorem Same.exp_plain {a a' : F64} (ha : Same a a') (n : Nat) :
    Same (Fp.eval (Fp.exp a) n).1 (Plain.exp a') := by
  unfold Plain.exp; rw [← Fp.expCore_same ha]; exact Same.plain _ n

theorem Same.cosh_plain {a a' : F64} (ha : Same a a') (n : Nat) :
    Same (Fp.eval (Fp.cosh a) n).1 (Plain.cosh a') := by
  unfold Plain.cosh; rw [← Fp.coshCore_same ha]; exact Same.plain _ n

theorem Same.log10_plain {a a' : F64} (ha : Same a a') (n : Nat) :
    Same (Fp.eval (Fp.log10 a) n).1 (Plain.log10 a') := by
  unfold Plain.log10; rw [← Fp.log10Core_same ha]; exact Same.plain _ n

end Sys2Proof.Machine
end

