-- ==== Sys2Proof/Laws/Related.lean ====
section
/-! SUPPORT. The recurrences and the formulas as computations that do not look at NaN bits: from related inputs, and from any
two free-value indexes, they give related results. -/

namespace Sys2Proof.Machine

/-! ### Choices -/

theorem FpRel.ite {α β : Type} {R : α → β → Prop} {c d : Prop} [Decidable c] [Decidable d] {m n : FpM α} {m' n' : FpM β}
    (hc : c ↔ d) (h : FpRel R m m') (k : FpRel R n n') : FpRel R (if c then m else n) (if d then m' else n') := by
  by_cases hh : c
  · rw [if_pos hh, if_pos (hc.1 hh)]; exact h
  · rw [if_neg hh, if_neg (fun x => hh (hc.2 x))]; exact k

theorem Same.ite {c d : Prop} [Decidable c] [Decidable d] {a b a' b' : F64} (hc : c ↔ d) (h : Same a a') (k : Same b b') :
    Same (if c then a else b) (if d then a' else b') := by
  by_cases hh : c
  · rw [if_pos hh, if_pos (hc.1 hh)]; exact h
  · rw [if_neg hh, if_neg (fun x => hh (hc.2 x))]; exact k

theorem Fp.le_iff {a a' b b' : F64} (ha : Same a a') (hb : Same b b') : Fp.le a b = true ↔ Fp.le a' b' = true := by
  rw [Fp.le_same ha hb]

theorem Fp.lt_iff {a a' b b' : F64} (ha : Same a a') (hb : Same b b') : Fp.lt a b = true ↔ Fp.lt a' b' = true := by
  rw [Fp.lt_same ha hb]

/-! ### The recurrences -/

/-- The same output and the same history up to NaN bits. -/
def SameOutput (r r' : F64 × History) : Prop := Same r.1 r'.1 ∧ SameHistory r.2 r'.2

theorem SameCoefs.refl (c : Coefs) : SameCoefs c c :=
  ⟨.refl _, .refl _, .refl _, .refl _, .refl _, .refl _, .refl _⟩

theorem SameHistory.refl (h : History) : SameHistory h h := ⟨.refl _, .refl _, .refl _, .refl _⟩

section

variable {c c' : Coefs} {h h' : History} {x x' : F64}

theorem stepDirect_same (hc : SameCoefs c c') (hh : SameHistory h h') (hx : Same x x') :
    FpRel SameOutput (stepDirect f64Arith c h x) (stepDirect f64Arith c' h' x') := by
  obtain ⟨a0, a1, a2, b1, b2, -, -⟩ := hc
  obtain ⟨s1, s2, s3, s4⟩ := hh
  exact .bind (.mul a0 hx) fun _ _ p => .bind (.mul a1 s1) fun _ _ q => .bind (.add p q) fun _ _ r =>
    .bind (.mul a2 s2) fun _ _ p => .bind (.add r p) fun _ _ q => .bind (.mul b1 s3) fun _ _ p =>
    .bind (.sub q p) fun _ _ r => .bind (.mul b2 s4) fun _ _ p => .bind (.sub r p) fun _ _ y =>
    .pure ⟨flush_same y, hx, s1, flush_same y, s3⟩

theorem stepCanonical_same (hc : SameCoefs c c') (hh : SameHistory h h') (hx : Same x x') :
    FpRel SameOutput (stepCanonical f64Arith c h x) (stepCanonical f64Arith c' h' x') := by
  obtain ⟨a0, a1, a2, b1, b2, -, -⟩ := hc
  obtain ⟨s1, s2, s3, s4⟩ := hh
  exact .bind (.mul b1 s1) fun _ _ p => .bind (.sub hx p) fun _ _ q => .bind (.mul b2 s2) fun _ _ p =>
    .bind (.sub q p) fun _ _ w => .bind (.mul a0 w) fun _ _ p => .bind (.mul a1 s1) fun _ _ q =>
    .bind (.add p q) fun _ _ r => .bind (.mul a2 s2) fun _ _ p => .bind (.add r p) fun _ _ y =>
    .pure ⟨flush_same y, w, s1, s3, s4⟩

theorem stepTransposeDirect_same (hc : SameCoefs c c') (hh : SameHistory h h') (hx : Same x x') :
    FpRel SameOutput (stepTransposeDirect f64Arith c h x) (stepTransposeDirect f64Arith c' h' x') := by
  obtain ⟨a0, a1, a2, b1, b2, -, -⟩ := hc
  obtain ⟨s1, s2, s3, s4⟩ := hh
  exact .bind (.add hx s3) fun _ _ w => .bind (.mul a0 w) fun _ _ p => .bind (.add p s1) fun _ _ y =>
    .bind (.mul b1 w) fun _ _ p => .bind (.sub s4 p) fun _ _ t3 => .bind (.mul b2 w) fun _ _ t4 =>
    .bind (.mul a1 w) fun _ _ p => .bind (.add s2 p) fun _ _ t1 => .bind (.mul a2 w) fun _ _ t2 =>
    .pure ⟨flush_same y, t1, t2, t3, t4.neg⟩

theorem stepTransposeCanonical_same (hc : SameCoefs c c') (hh : SameHistory h h') (hx : Same x x') :
    FpRel SameOutput (stepTransposeCanonical f64Arith c h x) (stepTransposeCanonical f64Arith c' h' x') := by
  obtain ⟨a0, a1, a2, b1, b2, -, -⟩ := hc
  obtain ⟨s1, s2, s3, s4⟩ := hh
  exact .bind (.mul a0 hx) fun _ _ p => .bind (.add p s1) fun _ _ y => .bind (.mul a1 hx) fun _ _ p =>
    .bind (.mul b1 (flush_same y)) fun _ _ q => .bind (.sub p q) fun _ _ r => .bind (.add r s2) fun _ _ t1 =>
    .bind (.mul a2 hx) fun _ _ p => .bind (.mul b2 (flush_same y)) fun _ _ q => .bind (.sub p q) fun _ _ t2 =>
    .pure ⟨flush_same y, t1, t2, s3, s4⟩

/-- A biquad step does not look at NaN bits. -/
theorem biquadStep_same (t : Topology) (hc : SameCoefs c c') (hh : SameHistory h h') (hx : Same x x') :
    FpRel SameOutput (biquadStep t c h x) (biquadStep t c' h' x') := by
  cases t
  · exact stepDirect_same hc hh hx
  · exact stepCanonical_same hc hh hx
  · exact stepTransposeDirect_same hc hh hx
  · exact stepTransposeCanonical_same hc hh hx

end

/-- The mix does not look at NaN bits. -/
theorem mixDryWet_same {d d' c c' x x' b b' : F64} (hd : Same d d') (hc : Same c c') (hx : Same x x') (hb : Same b b') :
    FpRel Same (mixDryWet d c x b) (mixDryWet d' c' x' b') :=
  .bind (.mul hd hx) fun _ _ p => .bind (.mul hc hb) fun _ _ q => .add p q

/-! ### The formulas -/

theorem FpRel.taps {a0 a0' a1 a1' a2 a2' b1 b1' b2 b2' : F64} (h0 : Same a0 a0') (h1 : Same a1 a1') (h2 : Same a2 a2')
    (k1 : Same b1 b1') (k2 : Same b2 b2') :
    FpRel SameTaps (Pure.pure ⟨a0, a1, a2, b1, b2⟩) (Pure.pure ⟨a0', a1', a2', b1', b2'⟩) := .pure ⟨h0, h1, h2, k1, k2⟩

theorem matchedPoles_same {theta theta' q q' : F64} (ht : Same theta theta') (hq : Same q q') :
    FpRel (fun p p' : F64 × F64 => Same p.1 p'.1 ∧ Same p.2 p'.2) (matchedPoles theta q) (matchedPoles theta' q') := by
  refine .bind (.mul (.refl _) hq) fun _ _ p => .bind (.div (.refl _) p) fun _ _ qd => .bind (.mul (.refl _) qd) fun _ _ p =>
    .bind (.mul p ht) fun _ _ p => .bind (.exp p) fun _ _ pb2 => .bind (.mul qd.neg ht) fun _ _ p =>
    .bind (.exp p) fun _ _ p => .bind (.mul (.refl _) p) fun _ _ scale => .ite (Fp.le_iff qd (.refl _)) ?_ ?_
  · exact .bind (.mul qd qd) fun _ _ p => .bind (.sub (.refl _) p) fun _ _ p => .bind (.pow p (.refl _)) fun _ _ p =>
      .bind (.mul p ht) fun _ _ p => .bind (.cos p) fun _ _ p => .bind (.mul scale p) fun _ _ pb1 => .pure ⟨pb1, pb2⟩
  · exact .bind (.mul qd qd) fun _ _ p => .bind (.sub p (.refl _)) fun _ _ p => .bind (.pow p (.refl _)) fun _ _ p =>
      .bind (.mul p ht) fun _ _ p => .bind (.cosh p) fun _ _ p => .bind (.mul scale p) fun _ _ pb1 => .pure ⟨pb1, pb2⟩

theorem designMatchLp_same (fc q fs : F64) :
    FpRel SameTaps (designMatchLp2a fc q fs) (designMatchLp2a fc q fs) ∧
      FpRel SameTaps (designMatchLp2b fc q fs) (designMatchLp2b fc q fs) := by
  constructor
  all_goals
    simp only [theta2, matchEnergy, matchSum, matchDen, clampNegative, designMatchLp2a, designMatchLp2b, bind_assoc, pure_bind]
    repeat' (with_reducible first
      | refine FpRel.bind (matchedPoles_same (by assumption) (Same.refl _)) fun _ _ ⟨_, _⟩ => ?_
      | refine FpRel.bind (R := Same) ?_ fun _ _ _ => ?_
      | assumption
      | exact Same.refl _
      | apply FpRel.mul | apply FpRel.add | apply FpRel.sub | apply FpRel.div | apply FpRel.sqrt
      | apply FpRel.sin | apply FpRel.cos | apply FpRel.tan | apply FpRel.exp
      | apply FpRel.log10 | apply FpRel.pow
      | apply Same.neg | apply FpRel.ite | apply Same.ite | apply Fp.le_iff | apply Fp.lt_iff
      | exact Iff.rfl
      | apply FpRel.taps | apply FpRel.pure)

theorem designMatchBp_same (fc q fs : F64) :
    FpRel SameTaps (designMatchBp2a fc q fs) (designMatchBp2a fc q fs) ∧
      FpRel SameTaps (designMatchBp2b fc q fs) (designMatchBp2b fc q fs) := by
  constructor
  all_goals
    simp only [theta2, matchEnergy, matchSum, matchDen, designMatchBp2a, designMatchBp2b, bind_assoc, pure_bind]
    repeat' (with_reducible first
      | refine FpRel.bind (matchedPoles_same (by assumption) (Same.refl _)) fun _ _ ⟨_, _⟩ => ?_
      | refine FpRel.bind (R := Same) ?_ fun _ _ _ => ?_
      | assumption
      | exact Same.refl _
      | apply FpRel.mul | apply FpRel.add | apply FpRel.sub | apply FpRel.div | apply FpRel.sqrt
      | apply FpRel.sin | apply FpRel.cos | apply FpRel.tan | apply FpRel.exp
      | apply FpRel.log10 | apply FpRel.pow
      | apply Same.neg | apply FpRel.ite | apply Same.ite | apply Fp.le_iff | apply Fp.lt_iff
      | exact Iff.rfl
      | apply FpRel.taps | apply FpRel.pure)

/-- A formula gives the same coefficients, up to NaN bits, from any two free-value indexes. -/
theorem formula_same (a : Algorithm) (fc q g fs : F64) : FpRel SameTaps (formula a fc q g fs) (formula a fc q g fs) := by
  cases a
  case matchLp2a => exact (designMatchLp_same fc q fs).1
  case matchLp2b => exact (designMatchLp_same fc q fs).2
  case matchBp2a => exact (designMatchBp_same fc q fs).1
  case matchBp2b => exact (designMatchBp_same fc q fs).2
  all_goals
    simp only [formula, designLpf1p, theta2, theta1, bandwidthAngle, onePoleGamma, designLpf1, designHpf1, betaGamma,
      designLpf2, designHpf2, bandDelta, bandB1, bandB2, designBpf2, designBsf2, butterA0, butterB2, designButterLpf2,
      designButterHpf2, designButterBpf2, designButterBsf2, resonanceDb, resonance, mmaTaps, designMmaLpf2, designMmaLpf2b,
      linearGain, shelfGamma, designLowShelf, designHiShelf, designNcqParaEq, eqPlus, eqMinus, designCqParaEq,
      linkwitzRiley, designLwrLpf2, designLwrHpf2, allPassAlpha, designApf1, designApf2, resonPoles, designResonA,
      designResonB, designImpInvLp1, designImpInvLp2, bind_assoc, pure_bind]
    repeat' (with_reducible first
      | refine FpRel.bind (R := Same) ?_ fun _ _ _ => ?_
      | assumption
      | exact Same.refl _
      | apply FpRel.mul | apply FpRel.add | apply FpRel.sub | apply FpRel.div | apply FpRel.sqrt
      | apply FpRel.sin | apply FpRel.cos | apply FpRel.tan | apply FpRel.exp
      | apply FpRel.log10 | apply FpRel.pow
      | apply Same.neg | apply FpRel.ite | apply Same.ite | apply Fp.le_iff | apply Fp.lt_iff
      | exact Iff.rfl
      | apply FpRel.taps | apply FpRel.pure)

theorem linearGain_same (g : F64) : FpRel Same (linearGain g) (linearGain g) :=
  .bind (.div (.refl _) (.refl _)) fun _ _ p => .pow (.refl _) p

/-- `Derive` gives the same set, up to NaN bits, from any two free-value indexes. -/
theorem deriveWith_same (cq : CqMix) (alg : BitVec 8) (fc q g fs : F64) :
    FpRel SameCoefs (deriveWith cq alg fc q g fs) (deriveWith cq alg fc q g fs) := by
  unfold deriveWith
  cases Algorithm.ofCode? alg with
  | none => exact .pure (SameCoefs.refl _)
  | some a =>
    refine .bind (formula_same a fc q g fs) fun t t' ⟨h0, h1, h2, k1, k2⟩ => ?_
    refine FpRel.bind (R := fun m m' : F64 × F64 => Same m.1 m'.1 ∧ Same m.2 m'.2) ?_
      fun m m' ⟨hw, hd⟩ => .pure ⟨h0, h1, h2, k1, k2, hw, hd⟩
    unfold mixOf
    split
    · exact .bind (linearGain_same g) fun _ _ p => .bind (.sub p (.refl _)) fun _ _ w => .pure ⟨w, .refl _⟩
    · exact .pure ⟨.refl _, .refl _⟩

end Sys2Proof.Machine
end

