-- ==== Sys2Proof/Laws/Formulas.lean ====
section
/-! SUPPORT. How a formula is followed to its plain value: one lemma for each operation bind, for the pole pair, and for the
resonance, so that a statement about `Derive` is proved without unfolding a whole formula at once. -/

namespace Sys2Proof.Machine

/-- From any free-value index the computation gives `v`, up to NaN bits. -/
abbrev Gives (m : FpM F64) (v : F64) : Prop := ∀ n, Same (Fp.eval m n).1 v

/-- From any free-value index the computation gives the coefficients `t`, up to NaN bits. -/
abbrev GivesTaps (m : FpM Taps) (t : Taps) : Prop := ∀ n, SameTaps (Fp.eval m n).1 t

theorem GivesTaps.bind {m : FpM F64} {v : F64} {f : F64 → FpM Taps} {t : Taps} (h : Gives m v)
    (k : ∀ a, Same a v → GivesTaps (f a) t) : GivesTaps (m >>= f) t := fun n => k _ (h n) _

theorem GivesTaps.pure {a0 a1 a2 b1 b2 a0' a1' a2' b1' b2' : F64} (h0 : Same a0 a0') (h1 : Same a1 a1') (h2 : Same a2 a2')
    (k1 : Same b1 b1') (k2 : Same b2 b2') : GivesTaps (Pure.pure ⟨a0, a1, a2, b1, b2⟩) ⟨a0', a1', a2', b1', b2'⟩ :=
  fun _ => ⟨h0, h1, h2, k1, k2⟩

/-- The resonance in dB (R164). -/
theorem Gives.resonanceDb (q : F64) :
    Gives (resonanceDb q)
      (if Fp.lt Fp.qDefault q then
        Plain.mul Fp.twenty
          (Plain.log10 (Plain.div (Plain.mul q q) (Plain.pow (Plain.sub (Plain.mul q q) Fp.quarter) Fp.half)))
      else Fp.zero) := by
  intro n
  unfold Machine.resonanceDb
  split
  · simp only [bind_assoc, Fp.eval_bind]
    with_reducible exact Same.mul_plain (.refl _) (Same.log10_plain (Same.div_plain (Same.mul_plain (.refl _) (.refl _) _)
      (Same.pow_plain (Same.sub_plain (Same.mul_plain (.refl _) (.refl _) _) (.refl _) _) (.refl _) _) _) _) _
  · exact .refl _

/-- The plain feedback coefficient `pb1` of R152, over `qd = 1 / (2 · Q)`. -/
def plainPole1 (theta qd : F64) : F64 :=
  if Fp.le qd Fp.one then
    Plain.mul (Plain.mul Fp.negTwo (Plain.exp (Plain.mul (Fp.neg qd) theta)))
      (Plain.cos (Plain.mul (Plain.pow (Plain.sub Fp.one (Plain.mul qd qd)) Fp.half) theta))
  else
    Plain.mul (Plain.mul Fp.negTwo (Plain.exp (Plain.mul (Fp.neg qd) theta)))
      (Plain.cosh (Plain.mul (Plain.pow (Plain.sub (Plain.mul qd qd) Fp.one) Fp.half) theta))

theorem GivesTaps.poles {theta q theta' q' : F64} (h1 : Same theta theta') (h2 : Same q q') {f : F64 × F64 → FpM Taps}
    {t : Taps}
    (k : ∀ b1 b2 : F64, Same b1 (plainPole1 theta' (Plain.div Fp.one (Plain.mul Fp.two q'))) →
      Same b2 (Plain.exp (Plain.mul (Plain.mul Fp.negTwo (Plain.div Fp.one (Plain.mul Fp.two q'))) theta')) →
      GivesTaps (f (b1, b2)) t) :
    GivesTaps (matchedPoles theta q >>= f) t := by
  unfold matchedPoles
  simp only [bind_assoc]
  refine .bind (fun n => Same.mul_plain (.refl _) h2 n) fun _ p => ?_
  refine .bind (fun n => Same.div_plain (.refl _) p n) fun _ qd => ?_
  refine .bind (fun n => Same.mul_plain (.refl _) qd n) fun _ p => ?_
  refine .bind (fun n => Same.mul_plain p h1 n) fun _ p => ?_
  refine .bind (fun n => Same.exp_plain p n) fun _ pb2 => ?_
  refine .bind (fun n => Same.mul_plain qd.neg h1 n) fun _ p => ?_
  refine .bind (fun n => Same.exp_plain p n) fun _ p => ?_
  refine .bind (fun n => Same.mul_plain (.refl _) p n) fun _ scale => ?_
  intro n
  have hle := Fp.le_iff qd (.refl Fp.one)
  split
  · next hc =>
    simp only [bind_assoc, pure_bind]
    revert n
    refine GivesTaps.bind (fun n => Same.mul_plain qd qd n) fun _ p => ?_
    refine .bind (fun n => Same.sub_plain (.refl _) p n) fun _ p => ?_
    refine .bind (fun n => Same.pow_plain p (.refl _) n) fun _ p => ?_
    refine .bind (fun n => Same.mul_plain p h1 n) fun _ p => ?_
    refine .bind (fun n => Same.cos_plain p n) fun _ p => ?_
    refine .bind (fun n => Same.mul_plain scale p n) fun _ p => ?_
    refine k _ _ ?_ pb2
    rw [plainPole1, if_pos (hle.1 hc)]; exact p
  · next hc =>
    simp only [bind_assoc, pure_bind]
    revert n
    refine GivesTaps.bind (fun n => Same.mul_plain qd qd n) fun _ p => ?_
    refine .bind (fun n => Same.sub_plain p (.refl _) n) fun _ p => ?_
    refine .bind (fun n => Same.pow_plain p (.refl _) n) fun _ p => ?_
    refine .bind (fun n => Same.mul_plain p h1 n) fun _ p => ?_
    refine .bind (fun n => Same.cosh_plain p n) fun _ p => ?_
    refine .bind (fun n => Same.mul_plain scale p n) fun _ p => ?_
    refine k _ _ ?_ pb2
    rw [plainPole1, if_neg (fun h => hc (hle.2 h))]; exact p

/-- A mix that is not overridden. -/
theorem mixOf_plain {cq : CqMix} {a : Algorithm} (g : F64) (h : overridesMix cq a = false) (n : Nat) :
    Same (Fp.eval (mixOf cq a g) n).1.1 Fp.one ∧ Same (Fp.eval (mixOf cq a g) n).1.2 Fp.zero := by
  unfold mixOf; rw [h]; exact ⟨.refl _, .refl _⟩

/-- An overridden mix. -/
theorem mixOf_overridden {cq : CqMix} {a : Algorithm} (g : F64) (h : overridesMix cq a = true) (n : Nat) :
    Same (Fp.eval (mixOf cq a g) n).1.1 (Plain.sub (Plain.pow Fp.ten (Plain.div g Fp.twenty)) Fp.one) ∧
      Same (Fp.eval (mixOf cq a g) n).1.2 Fp.one := by
  unfold mixOf; rw [h]
  simp only [if_true, linearGain, Fp.eval_bind, Fp.eval_pure]
  exact ⟨.sub_plain (.pow_plain (.refl _) (.div_plain (.refl _) (.refl _) _) _) (.refl _) _, .refl _⟩

/-- `Derive` for a recognized code, from its formula and its mix. -/
theorem deriveWith_gives {cq : CqMix} (a : Algorithm) {alg : BitVec 8} {fc q g fs a0 a1 a2 b1 b2 wet dry : F64}
    (ha : Algorithm.ofCode? alg = some a)
    (hw : ∀ n, Same (Fp.eval (mixOf cq a g) n).1.1 wet ∧ Same (Fp.eval (mixOf cq a g) n).1.2 dry)
    (hm : GivesTaps (formula a fc q g fs) ⟨a0, a1, a2, b1, b2⟩) (n : Nat) :
    SameCoefs (Fp.eval (deriveWith cq alg fc q g fs) n).1 ⟨a0, a1, a2, b1, b2, wet, dry⟩ := by
  unfold deriveWith
  rw [ha]
  simp only [Fp.eval_bind, Fp.eval_pure]
  obtain ⟨h0, h1, h2, h3, h4⟩ := hm n
  obtain ⟨k0, k1⟩ := hw (Fp.eval (formula a fc q g fs) n).2
  exact ⟨h0, h1, h2, h3, h4, k0, k1⟩

end Sys2Proof.Machine
end

