-- ==== Sys2Proof/Laws/Rounding.lean ====
section
/-! SUPPORT. `roundRatio` is correct rounding: to nearest, ties to even, with gradual underflow and overflow to an infinity. -/

namespace Sys2Proof.Machine

/-! ### The number of a magnitude -/

/-- `−1` or `1`. -/
def sgn (neg : Bool) : ℚ := if neg then -1 else 1

theorem abs_sgn (neg : Bool) : |sgn neg| = 1 := by cases neg <;> simp [sgn]

theorem sgn_mul_self (neg : Bool) : sgn neg * sgn neg = 1 := by cases neg <;> simp [sgn]

/-- The number that the 63 bits below the sign stand for, where they are finite. -/
def magVal (m : ℕ) : ℚ :=
  if m / 2 ^ 52 = 0 then (m : ℚ) * 2 ^ (-1074 : ℤ)
  else ((2 ^ 52 + m % 2 ^ 52 : ℕ) : ℚ) * 2 ^ ((m / 2 ^ 52 : ℕ) - 1075 : ℤ)

theorem Fp.expField_pack (neg : Bool) {m : ℕ} (h : m < 2 ^ 63) : Fp.expField (Fp.pack neg m) = m / 2 ^ 52 := by
  unfold Fp.expField
  rw [Fp.toNat_pack neg h]
  split <;> omega

theorem Fp.fracField_pack (neg : Bool) {m : ℕ} (h : m < 2 ^ 63) : Fp.fracField (Fp.pack neg m) = m % 2 ^ 52 := by
  unfold Fp.fracField
  rw [Fp.toNat_pack neg h]
  split <;> omega

theorem Fp.signBit_pack (neg : Bool) {m : ℕ} (h : m < 2 ^ 63) : Fp.signBit (Fp.pack neg m) = neg := by
  unfold Fp.signBit
  rw [BitVec.msb_eq_decide, Fp.toNat_pack neg h]
  cases neg
  · simp; omega
  · simp

/-- Every value is its sign and its magnitude. -/
theorem Fp.pack_self (v : F64) : Fp.pack (Fp.signBit v) (v.toNat % 2 ^ 63) = v := by
  have hv := v.isLt
  apply BitVec.eq_of_toNat_eq
  rw [Fp.toNat_pack _ (Nat.mod_lt _ (by decide))]
  unfold Fp.signBit
  rw [BitVec.msb_eq_decide]
  simp only [decide_eq_true_eq]
  split <;> omega

theorem Fp.toRat_pack (neg : Bool) {m : ℕ} (h : m < Fp.infMagnitude) : toRat (Fp.pack neg m) = sgn neg * magVal m := by
  have h63 : m < 2 ^ 63 := by unfold Fp.infMagnitude at h; omega
  have hne : m / 2 ^ 52 ≠ 2047 := by unfold Fp.infMagnitude at h; omega
  unfold toRat Fp.datum
  rw [Fp.expField_pack neg h63, Fp.fracField_pack neg h63, Fp.signBit_pack neg h63]
  unfold magVal sgn
  by_cases h0 : m / 2 ^ 52 = 0
  · have : m % 2 ^ 52 = m := by omega
    simp only [h0, this]
    norm_num
  · simp only [hne, h0, if_false]
    push_cast
    ring

theorem Fp.isFinite_pack (neg : Bool) {m : ℕ} (h : m < Fp.infMagnitude) : Fp.isFinite (Fp.pack neg m) = true := by
  have h63 : m < 2 ^ 63 := by unfold Fp.infMagnitude at h; omega
  have hne : m / 2 ^ 52 ≠ 2047 := by unfold Fp.infMagnitude at h; omega
  simpa [Fp.isFinite, Fp.expField_pack neg h63] using hne

/-- A finite value's magnitude is below that of an infinity. -/
theorem Fp.magnitude_lt {v : F64} (h : Fp.isFinite v = true) : v.toNat % 2 ^ 63 < Fp.infMagnitude := by
  have hv := v.isLt
  have he : Fp.expField v ≠ 2047 := by simpa [Fp.isFinite] using h
  unfold Fp.expField at he
  unfold Fp.infMagnitude
  omega

theorem Fp.toRat_eq {v : F64} (h : Fp.isFinite v = true) : toRat v = sgn (Fp.signBit v) * magVal (v.toNat % 2 ^ 63) := by
  have := Fp.toRat_pack (Fp.signBit v) (Fp.magnitude_lt h)
  rwa [Fp.pack_self] at this

/-! ### The grid of multiples of `2^(k − 1074)` -/

theorem magVal_grid {k q : ℕ} (hq : q ≤ 2 ^ 53) (hk : k = 0 ∨ 2 ^ 52 ≤ q) :
    magVal (k * 2 ^ 52 + q) = (q : ℚ) * 2 ^ ((k : ℤ) - 1074) := by
  unfold magVal
  by_cases h1 : q < 2 ^ 52
  · have hk0 : k = 0 := by omega
    subst hk0
    have hdiv : (0 * 2 ^ 52 + q) / 2 ^ 52 = 0 := by omega
    rw [if_pos hdiv]
    norm_num
  · by_cases h2 : q = 2 ^ 53
    · have hdiv : (k * 2 ^ 52 + q) / 2 ^ 52 = k + 2 := by omega
      have hmod : (k * 2 ^ 52 + q) % 2 ^ 52 = 0 := by omega
      rw [if_neg (by omega), hdiv, hmod, h2]
      have : ((k + 2 : ℕ) : ℤ) - 1075 = ((k : ℤ) - 1074) + 1 := by push_cast; ring
      rw [this, zpow_add₀ (by norm_num : (2 : ℚ) ≠ 0)]
      push_cast
      ring
    · have hdiv : (k * 2 ^ 52 + q) / 2 ^ 52 = k + 1 := by omega
      have hmod : 2 ^ 52 + (k * 2 ^ 52 + q) % 2 ^ 52 = q := by omega
      rw [if_neg (by omega), hdiv, hmod]
      have : ((k + 1 : ℕ) : ℤ) - 1075 = (k : ℤ) - 1074 := by push_cast; ring
      rw [this]

theorem magVal_nonneg (m : ℕ) : 0 ≤ magVal m := by unfold magVal; split <;> positivity

/-- A finite magnitude is on the grid, or lies below the first grid point with a full significand. -/
theorem magVal_on_grid (m k : ℕ) :
    (∃ n : ℕ, magVal m = (n : ℚ) * 2 ^ ((k : ℤ) - 1074)) ∨ (0 < k ∧ magVal m < 2 ^ 52 * 2 ^ ((k : ℤ) - 1074)) := by
  have hmod : m % 2 ^ 52 < 2 ^ 52 := Nat.mod_lt _ (by decide)
  by_cases h0 : m / 2 ^ 52 = 0
  · unfold magVal
    rw [if_pos h0]
    by_cases hk : k = 0
    · subst hk; exact .inl ⟨m, by norm_num⟩
    · refine .inr ⟨by omega, ?_⟩
      have hm : (m : ℚ) < 2 ^ 52 := by exact_mod_cast (by omega : m < 2 ^ 52)
      have hp : (2 : ℚ) ^ (-1074 : ℤ) ≤ 2 ^ ((k : ℤ) - 1074) := zpow_le_zpow_right₀ (by norm_num) (by omega)
      have hp0 : (0 : ℚ) < 2 ^ (-1074 : ℤ) := by positivity
      exact mul_lt_mul hm hp hp0 (by norm_num)
  · unfold magVal
    rw [if_neg h0]
    by_cases hk : k < m / 2 ^ 52
    · obtain ⟨d, hd⟩ : ∃ d, m / 2 ^ 52 = k + 1 + d := ⟨m / 2 ^ 52 - (k + 1), by omega⟩
      refine .inl ⟨(2 ^ 52 + m % 2 ^ 52) * 2 ^ d, ?_⟩
      have : ((m / 2 ^ 52 : ℕ) : ℤ) - 1075 = (d : ℤ) + ((k : ℤ) - 1074) := by rw [hd]; push_cast; ring
      rw [this, zpow_add₀ (by norm_num : (2 : ℚ) ≠ 0)]
      push_cast
      rw [zpow_natCast]
      ring
    · refine .inr ⟨by omega, ?_⟩
      have hm : ((2 ^ 52 + m % 2 ^ 52 : ℕ) : ℚ) < 2 ^ 52 * 2 := by
        exact_mod_cast (by omega : 2 ^ 52 + m % 2 ^ 52 < 2 ^ 52 * 2)
      have hp : (2 : ℚ) * 2 ^ (((m / 2 ^ 52 : ℕ) : ℤ) - 1075) ≤ 2 ^ ((k : ℤ) - 1074) := by
        rw [← zpow_one_add₀ (by norm_num : (2 : ℚ) ≠ 0)]
        exact zpow_le_zpow_right₀ (by norm_num) (by omega)
      have hp0 : (0 : ℚ) < 2 ^ (((m / 2 ^ 52 : ℕ) : ℤ) - 1075) := by positivity
      calc ((2 ^ 52 + m % 2 ^ 52 : ℕ) : ℚ) * 2 ^ (((m / 2 ^ 52 : ℕ) : ℤ) - 1075)
          < 2 ^ 52 * 2 * 2 ^ (((m / 2 ^ 52 : ℕ) : ℤ) - 1075) := mul_lt_mul_of_pos_right hm hp0
        _ = 2 ^ 52 * (2 * 2 ^ (((m / 2 ^ 52 : ℕ) : ℤ) - 1075)) := by ring
        _ ≤ 2 ^ 52 * 2 ^ ((k : ℤ) - 1074) := mul_le_mul_of_nonneg_left hp (by norm_num)

/-! ### Rounding to an integer -/

/-- `roundNearestEven` gives the nearest integer to `q + r / d`; where another is as near, it is even. -/
theorem roundNearestEven_nearest {q r d : ℕ} (hd : r < d) (z : ℤ) :
    |((q : ℚ) + r / d) - (Fp.roundNearestEven q r d : ℕ)| ≤ |((q : ℚ) + r / d) - z| ∧
    (|((q : ℚ) + r / d) - (Fp.roundNearestEven q r d : ℕ)| = |((q : ℚ) + r / d) - z| →
      z = (Fp.roundNearestEven q r d : ℕ) ∨ Fp.roundNearestEven q r d % 2 = 0) := by
  have hd0 : (0 : ℚ) < d := by exact_mod_cast (by omega : 0 < d)
  have hf0 : (0 : ℚ) ≤ r / d := by positivity
  have hf1 : (r : ℚ) / d < 1 := by rw [div_lt_one hd0]; exact_mod_cast hd
  generalize hf : (r : ℚ) / d = f at hf0 hf1 ⊢
  have hcases : (z : ℚ) ≤ q ∨ (q : ℚ) + 1 ≤ z := by
    rcases le_or_gt z (q : ℤ) with h | h
    · exact .inl (by exact_mod_cast h)
    · exact .inr (by exact_mod_cast h)
  unfold Fp.roundNearestEven
  by_cases hup : d < 2 * r ∨ (2 * r = d ∧ q % 2 = 1)
  · have hcond : (decide (d < 2 * r) || (decide (2 * r = d) && decide (q % 2 = 1))) = true := by simpa using hup
    rw [if_pos hcond]
    have hhalf : 1 / 2 ≤ f := by
      rw [← hf, div_le_div_iff₀ (by norm_num) hd0]
      have : d ≤ 2 * r := by omega
      have : (d : ℚ) ≤ 2 * r := by exact_mod_cast this
      linarith
    push_cast
    have habs : |(q : ℚ) + f - (q + 1)| = 1 - f := by rw [abs_of_nonpos (by linarith)]; ring
    rw [habs]
    rcases hcases with h | h
    · rw [abs_of_nonneg (by linarith)]
      refine ⟨by linarith, fun he => ?_⟩
      have hq : (z : ℚ) = q := by linarith
      have hfe : f = 1 / 2 := by linarith
      have h2 : 2 * r = d := by
        rw [← hf, div_eq_div_iff hd0.ne' (by norm_num)] at hfe
        have : (2 : ℚ) * r = d := by linarith
        exact_mod_cast this
      exact .inr (by omega)
    · rw [abs_of_nonpos (by linarith)]
      refine ⟨by linarith, fun he => .inl ?_⟩
      have : (z : ℚ) = q + 1 := by linarith
      exact_mod_cast this
  · have hcond : ¬ (decide (d < 2 * r) || (decide (2 * r = d) && decide (q % 2 = 1))) = true := by simpa using hup
    rw [if_neg hcond]
    have hhalf : f ≤ 1 / 2 := by
      rw [← hf, div_le_div_iff₀ hd0 (by norm_num)]
      have : 2 * r ≤ d := by omega
      have : (2 : ℚ) * r ≤ d := by exact_mod_cast this
      linarith
    have habs : |(q : ℚ) + f - q| = f := by rw [abs_of_nonneg (by linarith)]; ring
    rw [habs]
    rcases hcases with h | h
    · rw [abs_of_nonneg (by linarith)]
      refine ⟨by linarith, fun he => .inl ?_⟩
      have : (z : ℚ) = q := by linarith
      exact_mod_cast this
    · rw [abs_of_nonpos (by linarith)]
      refine ⟨by linarith, fun he => ?_⟩
      have hfe : f = 1 / 2 := by linarith
      have h2 : 2 * r = d := by
        rw [← hf, div_eq_div_iff hd0.ne' (by norm_num)] at hfe
        have : (2 : ℚ) * r = d := by linarith
        exact_mod_cast this
      exact .inr (by omega)

/-! ### The binade of a ratio -/

theorem floorLog2_spec {num den : ℕ} (hn : 0 < num) (hd : 0 < den) :
    (2 : ℚ) ^ Fp.floorLog2 num den ≤ (num : ℚ) / den ∧ (num : ℚ) / den < 2 ^ (Fp.floorLog2 num den + 1) := by
  have hd0 : (0 : ℚ) < den := by exact_mod_cast hd
  have hnl : 2 ^ Nat.log2 num ≤ num := Nat.log2_self_le (by omega)
  have hnu : num < 2 ^ (Nat.log2 num + 1) := Nat.lt_log2_self
  have hdl : 2 ^ Nat.log2 den ≤ den := Nat.log2_self_le (by omega)
  have hdu : den < 2 ^ (Nat.log2 den + 1) := Nat.lt_log2_self
  have hnl' : (2 : ℚ) ^ (Nat.log2 num : ℤ) ≤ num := by rw [zpow_natCast]; exact_mod_cast hnl
  have hnu' : (num : ℚ) < 2 ^ ((Nat.log2 num : ℤ) + 1) := by
    have : ((Nat.log2 num : ℤ) + 1) = ((Nat.log2 num + 1 : ℕ) : ℤ) := by push_cast; rfl
    rw [this, zpow_natCast]; exact_mod_cast hnu
  have hdl' : (2 : ℚ) ^ (Nat.log2 den : ℤ) ≤ den := by rw [zpow_natCast]; exact_mod_cast hdl
  have hdu' : (den : ℚ) < 2 ^ ((Nat.log2 den : ℤ) + 1) := by
    have : ((Nat.log2 den : ℤ) + 1) = ((Nat.log2 den + 1 : ℕ) : ℤ) := by push_cast; rfl
    rw [this, zpow_natCast]; exact_mod_cast hdu
  have h2 : (2 : ℚ) ≠ 0 := by norm_num
  unfold Fp.floorLog2
  generalize hl : ((Nat.log2 num : ℤ) - Nat.log2 den) = l
  have hcmp : (num <<< (-l).toNat < den <<< l.toNat) ↔ (num : ℚ) / den < 2 ^ l := by
    rw [Nat.shiftLeft_eq, Nat.shiftLeft_eq, div_lt_iff₀ hd0]
    rcases le_total 0 l with h | h
    · obtain ⟨k, rfl⟩ := Int.eq_ofNat_of_zero_le h
      simp only [Int.toNat_natCast, zpow_natCast]
      have : (-(k : ℤ)).toNat = 0 := by omega
      rw [this, pow_zero, mul_one, mul_comm]
      exact_mod_cast Iff.rfl
    · obtain ⟨k, hk⟩ := Int.eq_ofNat_of_zero_le (by omega : 0 ≤ -l)
      have hl0 : l.toNat = 0 := by omega
      have hln : l = -(k : ℤ) := by omega
      rw [hk, hl0, pow_zero, mul_one, Int.toNat_natCast, hln, zpow_neg, zpow_natCast, inv_mul_eq_div,
        lt_div_iff₀ (by positivity)]
      exact_mod_cast Iff.rfl
  simp only
  split
  next h =>
    have h := hcmp.mp h
    refine ⟨?_, by simpa using h⟩
    rw [le_div_iff₀ hd0]
    calc (2 : ℚ) ^ (l - 1) * den ≤ 2 ^ (l - 1) * 2 ^ ((Nat.log2 den : ℤ) + 1) :=
          mul_le_mul_of_nonneg_left hdu'.le (by positivity)
      _ = 2 ^ (Nat.log2 num : ℤ) := by rw [← zpow_add₀ h2]; congr 1; omega
      _ ≤ num := hnl'
  next h =>
    have h := not_lt.mp (mt hcmp.mpr h)
    refine ⟨h, ?_⟩
    rw [div_lt_iff₀ hd0]
    calc (num : ℚ) < 2 ^ ((Nat.log2 num : ℤ) + 1) := hnu'
      _ = 2 ^ (l + 1) * 2 ^ (Nat.log2 den : ℤ) := by rw [← zpow_add₀ h2]; congr 1; omega
      _ ≤ 2 ^ (l + 1) * den := mul_le_mul_of_nonneg_left hdl' (by positivity)

/-! ### Correct rounding -/

theorem Fp.isNaN_pack_of_le (neg : Bool) {m : ℕ} (h : m ≤ Fp.infMagnitude) : Fp.isNaN (Fp.pack neg m) = false := by
  have h63 : m < 2 ^ 63 := by unfold Fp.infMagnitude at h; omega
  have : ¬ (m / 2 ^ 52 = 2047 ∧ m % 2 ^ 52 ≠ 0) := by unfold Fp.infMagnitude at h; omega
  rw [Bool.eq_false_iff, ne_eq, Fp.isNaN_iff, Fp.expField_pack neg h63, Fp.fracField_pack neg h63]
  exact this

theorem Fp.isFinite_infinity (neg : Bool) : Fp.isFinite (Fp.infinity neg) = false := by cases neg <;> decide

/-- The nearest point of the grid `2^t · ℤ` is as near as every finite value, for a number with a full significand on that
grid (or on the finest grid); a finite value as near is on the grid. -/
theorem grid_nearest {x : ℚ} {k q : ℕ} (hge : 0 < k → 2 ^ 52 * 2 ^ ((k : ℤ) - 1074) ≤ x)
    (hq : ∀ z : ℤ, |x * 2 ^ (-((k : ℤ) - 1074)) - q| ≤ |x * 2 ^ (-((k : ℤ) - 1074)) - z| ∧
      (|x * 2 ^ (-((k : ℤ) - 1074)) - q| = |x * 2 ^ (-((k : ℤ) - 1074)) - z| → z = q ∨ q % 2 = 0))
    (neg : Bool) (m : ℕ) :
    |x - q * 2 ^ ((k : ℤ) - 1074)| ≤ |x - sgn neg * magVal m| ∧
    (|x - q * 2 ^ ((k : ℤ) - 1074)| = |x - sgn neg * magVal m| →
      sgn neg * magVal m = q * 2 ^ ((k : ℤ) - 1074) ∨ q % 2 = 0) := by
  have hu : (0 : ℚ) < 2 ^ ((k : ℤ) - 1074) := by positivity
  have hmag := magVal_on_grid m k
  rw [zpow_neg] at hq
  generalize (2 : ℚ) ^ ((k : ℤ) - 1074) = u at *
  have hscale : ∀ z : ℚ, |x - z * u| = |x * u⁻¹ - z| * u := by
    intro z
    rw [← abs_of_pos hu, ← abs_mul, abs_of_pos hu]
    congr 1
    field_simp
  have hgrid : ∀ z : ℤ, |x - q * u| ≤ |x - z * u| ∧ (|x - q * u| = |x - z * u| → (z : ℚ) * u = q * u ∨ q % 2 = 0) := by
    intro z
    rw [hscale q, hscale z]
    refine ⟨mul_le_mul_of_nonneg_right (hq z).1 hu.le, fun he => ?_⟩
    rcases (hq z).2 (mul_right_cancel₀ hu.ne' he) with h | h
    · exact .inl (by rw [h]; norm_cast)
    · exact .inr h
  rcases hmag with ⟨n, hn⟩ | ⟨hk, hlt⟩
  · obtain ⟨z, hz⟩ : ∃ z : ℤ, sgn neg * magVal m = z * u := by
      cases neg
      · exact ⟨n, by simp [sgn, hn]⟩
      · exact ⟨-n, by simp [sgn, hn]⟩
    rw [hz]
    exact hgrid z
  · have hx := hge hk
    have h0 := magVal_nonneg m
    have hfar : x - magVal m ≤ |x - sgn neg * magVal m| := by
      refine le_trans ?_ (le_abs_self _)
      cases neg <;> simp [sgn]
      linarith
    have hnear := (hgrid (2 ^ 52)).1
    rw [show (((2 ^ 52 : ℤ)) : ℚ) = 2 ^ 52 by norm_num] at hnear
    rw [abs_of_nonneg (by linarith : (0 : ℚ) ≤ x - 2 ^ 52 * u)] at hnear
    exact ⟨by linarith, fun he => by linarith⟩

/-- The rounded magnitude reaches that of an infinity exactly from half a unit above the largest finite value on. -/
theorem overflow_iff {x y : ℚ} {k q : ℕ} (hqle : q ≤ 2 ^ 53) (hqge : k = 0 ∨ 2 ^ 52 ≤ q)
    (hlt : x < 2 ^ 53 * 2 ^ ((k : ℤ) - 1074)) (hge : 0 < k → 2 ^ 52 * 2 ^ ((k : ℤ) - 1074) ≤ x)
    (hy : y * 2 ^ ((k : ℤ) - 1074) = x)
    (hq : ∀ z : ℤ, |y - q| ≤ |y - z| ∧ (|y - q| = |y - z| → z = q ∨ q % 2 = 0)) :
    Fp.infMagnitude ≤ k * 2 ^ 52 + q ↔ (2 : ℚ) ^ 1024 - 2 ^ 970 ≤ x := by
  have e1024 : (2 : ℚ) ^ 1024 = 2 ^ 53 * 2 ^ (971 : ℤ) := by rw [zpow_ofNat, ← pow_add]
  have e971 : (2 : ℚ) ^ (971 : ℤ) = 2 ^ (970 : ℤ) * 2 := by rw [zpow_ofNat, zpow_ofNat, ← pow_succ]
  have e970 : (2 : ℚ) ^ 970 = 2 ^ (971 : ℤ) / 2 := by
    rw [e971, zpow_ofNat, mul_div_cancel_right₀ _ (by norm_num : (2 : ℚ) ≠ 0)]
  have e972 : (2 : ℚ) ^ (972 : ℤ) = 2 * 2 ^ (971 : ℤ) := by rw [zpow_ofNat, zpow_ofNat, ← pow_succ']
  have e970' : (2 : ℚ) ^ (970 : ℤ) = 2 ^ (971 : ℤ) / 2 := by rw [e971]; ring
  have hU : (0 : ℚ) < 2 ^ (971 : ℤ) := by positivity
  rw [e1024, e970]
  clear e1024 e970 e971
  unfold Fp.infMagnitude
  rcases Nat.lt_trichotomy k 2045 with hk | hk | hk
  · have hp : (2 : ℚ) ^ ((k : ℤ) - 1074) ≤ 2 ^ (970 : ℤ) := zpow_le_zpow_right₀ (by norm_num) (by omega)
    rw [e970'] at hp
    clear e970' e972 hge hy hq
    generalize (2 : ℚ) ^ (971 : ℤ) = U at *
    generalize (2 : ℚ) ^ ((k : ℤ) - 1074) = A at *
    constructor
    · intro h; omega
    · intro h; exfalso; linarith
  · subst hk
    have hexp : ((2045 : ℕ) : ℤ) - 1074 = 971 := by norm_num
    rw [hexp] at hlt hy
    generalize (2 : ℚ) ^ (971 : ℤ) = U at *
    have hy53 : y < 2 ^ 53 := by
      by_contra hcon
      have := mul_le_mul_of_nonneg_right (not_lt.mp hcon) hU.le
      linarith
    constructor
    · intro h
      have hq53 : q = 2 ^ 53 := by omega
      have hqq : (q : ℚ) = 2 ^ 53 := by rw [hq53]; norm_num
      have h1 := (hq (2 ^ 53 - 1)).1
      rw [show (((2 ^ 53 - 1 : ℤ)) : ℚ) = 2 ^ 53 - 1 by norm_num, hqq, abs_of_neg (by linarith)] at h1
      have hhalf : 2 ^ 53 - 1 / 2 ≤ y := by
        rcases le_total (2 ^ 53 - 1) y with h2 | h2
        · rw [abs_of_nonneg (by linarith)] at h1; linarith
        · rw [abs_of_nonpos (by linarith)] at h1; linarith
      have := mul_le_mul_of_nonneg_right hhalf hU.le
      linarith
    · intro h
      have hhalf : 2 ^ 53 - 1 / 2 ≤ y := by
        by_contra hcon
        have := mul_lt_mul_of_pos_right (not_le.mp hcon) hU
        linarith
      by_contra hcon
      have hq1 : q ≤ 2 ^ 53 - 1 := by omega
      have hqq : (q : ℚ) ≤ 2 ^ 53 - 1 := by
        have : (q : ℚ) ≤ ((2 ^ 53 - 1 : ℕ) : ℚ) := by exact_mod_cast hq1
        refine le_trans this (by norm_num)
      have h1 := hq (2 ^ 53)
      rw [show (((2 ^ 53 : ℤ)) : ℚ) = 2 ^ 53 by norm_num, abs_of_nonneg (by linarith : 0 ≤ y - q),
        abs_of_neg (by linarith)] at h1
      have heq : y - q = -(y - 2 ^ 53) := by linarith [h1.1]
      have hqe : (q : ℚ) = 2 ^ 53 - 1 := by linarith
      have hqn : q = 2 ^ 53 - 1 := by
        have : (q : ℚ) = ((2 ^ 53 - 1 : ℕ) : ℚ) := by rw [hqe]; norm_num
        exact_mod_cast this
      rcases h1.2 heq with h | h <;> omega
  · have hp : (2 : ℚ) ^ (972 : ℤ) ≤ 2 ^ ((k : ℤ) - 1074) := zpow_le_zpow_right₀ (by norm_num) (by omega)
    have h1 := hge (by omega)
    rw [e972] at hp
    generalize (2 : ℚ) ^ (971 : ℤ) = U at *
    constructor
    · intro _; linarith
    · intro _; omega

/-- `roundRatio` is correct rounding of `± (num / den) · 2^exp` (R9, R10). -/
theorem roundRatio_correct (neg : Bool) {num den : ℕ} (hn : 0 < num) (hd : 0 < den) (exp : ℤ) :
    CorrectlyRounded (sgn neg * ((num : ℚ) / den * 2 ^ exp)) (Fp.roundRatio neg num den exp) := by
  have h2 : (2 : ℚ) ≠ 0 := by norm_num
  have hd0 : (0 : ℚ) < den := by exact_mod_cast hd
  have hn0 : (0 : ℚ) < num := by exact_mod_cast hn
  obtain ⟨hlo, hhi⟩ := floorLog2_spec hn hd
  unfold Fp.roundRatio
  generalize Fp.floorLog2 num den = l at hlo hhi
  generalize hx : (num : ℚ) / den * 2 ^ exp = x
  have hx0 : 0 < x := by rw [← hx]; positivity
  -- the unit of the last place
  obtain ⟨k, hk⟩ : ∃ k : ℕ, max (l + exp - 52) (-1074) = (k : ℤ) - 1074 :=
    ⟨(max (l + exp - 52) (-1074) + 1074).toNat, by omega⟩
  simp only [hk]
  have hkk : ((k : ℤ) - 1074 + 1074).toNat = k := by omega
  rw [hkk]
  have hu : (0 : ℚ) < 2 ^ ((k : ℤ) - 1074) := by positivity
  have hlt : x < 2 ^ 53 * 2 ^ ((k : ℤ) - 1074) := by
    have h53 : (2 : ℚ) ^ 53 = 2 ^ (53 : ℤ) := by norm_num
    rw [← hx, h53, ← zpow_add₀ h2]
    calc (num : ℚ) / den * 2 ^ exp < 2 ^ (l + 1) * 2 ^ exp := mul_lt_mul_of_pos_right hhi (by positivity)
      _ = 2 ^ (l + 1 + exp) := (zpow_add₀ h2 _ _).symm
      _ ≤ 2 ^ (53 + ((k : ℤ) - 1074)) := zpow_le_zpow_right₀ (by norm_num) (by omega)
  have hge : 0 < k → 2 ^ 52 * 2 ^ ((k : ℤ) - 1074) ≤ x := by
    intro hk0
    have h52 : (2 : ℚ) ^ 52 = 2 ^ (52 : ℤ) := by norm_num
    rw [← hx, h52, ← zpow_add₀ h2]
    calc (2 : ℚ) ^ (52 + ((k : ℤ) - 1074)) = 2 ^ (l + exp) := by congr 1; omega
      _ = 2 ^ l * 2 ^ exp := zpow_add₀ h2 _ _
      _ ≤ (num : ℚ) / den * 2 ^ exp := mul_le_mul_of_nonneg_right hlo (by positivity)
  -- the scaled quotient
  generalize hN : num <<< (exp - ((k : ℤ) - 1074)).toNat = N
  generalize hD : den <<< ((k : ℤ) - 1074 - exp).toNat = D
  have hD0 : 0 < D := by rw [← hD, Nat.shiftLeft_eq]; positivity
  have hDq : (0 : ℚ) < D := by exact_mod_cast hD0
  have hy : (N : ℚ) / D = x * 2 ^ (-((k : ℤ) - 1074)) := by
    rw [← hN, ← hD, Nat.shiftLeft_eq, Nat.shiftLeft_eq, ← hx, mul_assoc, ← zpow_add₀ h2]
    generalize hw : exp + -((k : ℤ) - 1074) = w
    have e1 : exp - ((k : ℤ) - 1074) = w := by omega
    have e2 : (k : ℤ) - 1074 - exp = -w := by omega
    rw [e1, e2]
    push_cast
    rw [mul_div_mul_comm, ← zpow_natCast, ← zpow_natCast, ← zpow_sub₀ h2]
    congr 2
    omega
  have hsplit : ((N / D : ℕ) : ℚ) + ((N % D : ℕ) : ℚ) / D = x * 2 ^ (-((k : ℤ) - 1074)) := by
    rw [← hy, eq_div_iff hDq.ne', add_mul, div_mul_cancel₀ _ hDq.ne']
    have := Nat.div_add_mod N D
    rw [mul_comm] at this
    exact_mod_cast this
  have hmodlt : N % D < D := Nat.mod_lt _ hD0
  have hnear := fun z : ℤ => roundNearestEven_nearest (q := N / D) hmodlt z
  rw [hsplit] at hnear
  generalize hq : Fp.roundNearestEven (N / D) (N % D) D = q at hnear
  -- the quotient's range
  have hyu : x * 2 ^ (-((k : ℤ) - 1074)) * 2 ^ ((k : ℤ) - 1074) = x := by
    rw [mul_assoc, ← zpow_add₀ h2]; simp
  have hy53 : x * 2 ^ (-((k : ℤ) - 1074)) < 2 ^ 53 := by
    by_contra hcon
    have := mul_le_mul_of_nonneg_right (not_lt.mp hcon) hu.le
    rw [hyu] at this
    linarith
  have hfl : ((N / D : ℕ) : ℚ) ≤ x * 2 ^ (-((k : ℤ) - 1074)) := by
    rw [← hsplit]; have : (0 : ℚ) ≤ ((N % D : ℕ) : ℚ) / D := by positivity
    linarith
  have hQ53 : N / D < 2 ^ 53 := by exact_mod_cast lt_of_le_of_lt hfl hy53
  have hqle : q ≤ 2 ^ 53 := by
    rw [← hq]; unfold Fp.roundNearestEven; split <;> omega
  have hQq : N / D ≤ q := by
    rw [← hq]; unfold Fp.roundNearestEven; split <;> omega
  have hqge : k = 0 ∨ 2 ^ 52 ≤ q := by
    by_cases hk0 : k = 0
    · exact .inl hk0
    · refine .inr (le_trans ?_ hQq)
      have h1 := hge (by omega)
      have h52 : (2 : ℚ) ^ 52 ≤ x * 2 ^ (-((k : ℤ) - 1074)) := by
        by_contra hcon
        have := mul_lt_mul_of_pos_right (not_le.mp hcon) hu
        rw [hyu] at this
        linarith
      rw [← hy, le_div_iff₀ hDq] at h52
      rw [Nat.le_div_iff_mul_le hD0]
      exact_mod_cast h52
  have hval := magVal_grid hqle hqge
  -- overflow
  have hover := overflow_iff hqle hqge hlt hge hyu hnear
  have habs : |sgn neg * x| = x := by rw [abs_mul, abs_sgn, one_mul, abs_of_pos hx0]
  have hsign : decide (sgn neg * x < 0) = neg := by
    cases neg
    · simp [sgn, hx0.le]
    · simp [sgn, hx0]
  have hInf : Fp.infMagnitude < 2 ^ 63 := by unfold Fp.infMagnitude; norm_num
  by_cases hM : Fp.infMagnitude ≤ k * 2 ^ 52 + q
  · rw [Nat.min_eq_right hM]
    have hinf : Fp.pack neg Fp.infMagnitude = Fp.infinity neg := rfl
    rw [hinf]
    refine ⟨Fp.isNaN_pack_of_le neg le_rfl, ?_, ?_, ?_, fun _ => by rw [hsign]; exact Fp.signBit_pack neg hInf⟩
    · rw [habs]; simp [Fp.isFinite_infinity, hover.mp hM]
    · intro _; rw [hsign]
    · intro h; rw [Fp.isFinite_infinity] at h; cases h
  · have hM' : k * 2 ^ 52 + q < Fp.infMagnitude := not_le.mp hM
    rw [Nat.min_eq_left hM'.le]
    have hfin := Fp.isFinite_pack neg hM'
    refine ⟨Fp.isNaN_pack_of_le neg hM'.le, ?_, ?_, ?_,
      fun _ => by rw [hsign]; exact Fp.signBit_pack neg (hM'.trans hInf)⟩
    · rw [habs, hfin]
      exact ⟨fun h => absurd h (by simp), fun h => absurd (hover.mpr h) hM⟩
    · intro h; rw [hfin] at h; cases h
    · intro _ v hv
      have h63 : k * 2 ^ 52 + q < 2 ^ 63 := by unfold Fp.infMagnitude at hM'; omega
      rw [Fp.toRat_pack neg hM', Fp.toRat_eq hv, hval, Fp.fracField_pack neg h63]
      have hg := grid_nearest hge (fun z => hnear z) (neg ^^ Fp.signBit v) (v.toNat % 2 ^ 63)
      have hs : sgn (neg ^^ Fp.signBit v) = sgn neg * sgn (Fp.signBit v) := by
        cases neg <;> cases Fp.signBit v <;> simp [sgn]
      have hl1 : |sgn neg * x - sgn neg * (q * 2 ^ ((k : ℤ) - 1074))| = |x - q * 2 ^ ((k : ℤ) - 1074)| := by
        rw [← mul_sub, abs_mul, abs_sgn, one_mul]
      have hl2 : |sgn neg * x - sgn (Fp.signBit v) * magVal (v.toNat % 2 ^ 63)| =
          |x - sgn (neg ^^ Fp.signBit v) * magVal (v.toNat % 2 ^ 63)| := by
        rw [hs]
        conv_lhs => rw [← one_mul (sgn (Fp.signBit v)), ← sgn_mul_self neg, mul_assoc, mul_assoc, ← mul_sub, abs_mul, abs_sgn,
          one_mul, ← mul_assoc]
      rw [hl1, hl2]
      refine ⟨hg.1, fun he => ?_⟩
      rcases hg.2 he with h | h
      · left
        rw [← h, hs, ← mul_assoc, ← mul_assoc, sgn_mul_self, one_mul]
      · right
        omega

end Sys2Proof.Machine
end

