-- ==== Sys2Proof/Laws/Order.lean ====
section
/-! SUPPORT. The order of the finite values is the order of their sign and magnitude, and a rounded value that is itself a
binary64 value is that value. -/

namespace Sys2Proof.Machine

/-! ### Magnitudes -/

/-- A magnitude in units of `2^-1074`. -/
theorem magVal_units (m : ℕ) :
    magVal m = ((if m / 2 ^ 52 = 0 then m else (2 ^ 52 + m % 2 ^ 52) * 2 ^ (m / 2 ^ 52 - 1) : ℕ) : ℚ) * 2 ^ (-1074 : ℤ) := by
  unfold magVal
  split
  · rfl
  · next h =>
    obtain ⟨j, hj⟩ : ∃ j, m / 2 ^ 52 = j + 1 := ⟨m / 2 ^ 52 - 1, by omega⟩
    rw [hj]
    push_cast
    rw [mul_assoc]
    congr 1
    rw [← zpow_natCast, ← zpow_add₀ (by norm_num)]
    congr 1
    push_cast; omega

theorem magVal_lt {m k : ℕ} (hm : m < k) : magVal m < magVal k := by
  rw [magVal_units, magVal_units]
  apply mul_lt_mul_of_pos_right _ (by positivity)
  suffices h : (if m / 2 ^ 52 = 0 then m else (2 ^ 52 + m % 2 ^ 52) * 2 ^ (m / 2 ^ 52 - 1)) <
      if k / 2 ^ 52 = 0 then k else (2 ^ 52 + k % 2 ^ 52) * 2 ^ (k / 2 ^ 52 - 1) by exact_mod_cast h
  split
  · next h1 =>
    split
    · exact hm
    · next h2 =>
      have : 1 ≤ 2 ^ (k / 2 ^ 52 - 1) := Nat.one_le_two_pow
      have h3 : m < 2 ^ 52 := by omega
      calc m < 2 ^ 52 := h3
        _ ≤ (2 ^ 52 + k % 2 ^ 52) * 1 := by omega
        _ ≤ _ := Nat.mul_le_mul_left _ this
  · next h1 =>
    rw [if_neg (by omega)]
    by_cases h : m / 2 ^ 52 = k / 2 ^ 52
    · rw [h]
      apply Nat.mul_lt_mul_of_pos_right _ (by positivity)
      omega
    · have h' : m / 2 ^ 52 < k / 2 ^ 52 := by omega
      obtain ⟨d, hd⟩ : ∃ d, k / 2 ^ 52 - 1 = (m / 2 ^ 52 - 1) + 1 + d := ⟨k / 2 ^ 52 - m / 2 ^ 52 - 1, by omega⟩
      rw [hd, pow_add, pow_add]
      have hp : 0 < 2 ^ (m / 2 ^ 52 - 1) := by positivity
      have hd1 : 1 ≤ 2 ^ d := Nat.one_le_two_pow
      calc (2 ^ 52 + m % 2 ^ 52) * 2 ^ (m / 2 ^ 52 - 1) < (2 ^ 52 * 2) * 2 ^ (m / 2 ^ 52 - 1) := by
            apply Nat.mul_lt_mul_of_pos_right _ hp; omega
        _ = 2 ^ 52 * (2 ^ (m / 2 ^ 52 - 1) * 2 ^ 1 * 1) := by ring
        _ ≤ (2 ^ 52 + k % 2 ^ 52) * (2 ^ (m / 2 ^ 52 - 1) * 2 ^ 1 * 2 ^ d) := by
            apply Nat.mul_le_mul (by omega)
            exact Nat.mul_le_mul_left _ hd1

theorem magVal_lt_iff {m k : ℕ} : magVal m < magVal k ↔ m < k := by
  constructor
  · intro h
    by_contra hc
    rcases Nat.lt_or_eq_of_le (Nat.le_of_not_lt hc) with h1 | h1
    · exact absurd h (not_lt.2 (magVal_lt h1).le)
    · subst h1; exact lt_irrefl _ h
  · exact magVal_lt

@[simp] theorem magVal_zero : magVal 0 = 0 := by simp [magVal]

/-! ### Values -/

/-- The order of the real numbers of finite values is the order that the comparisons use. -/
theorem Fp.toRat_lt_iff {a b : F64} (ha : Fp.isFinite a = true) (hb : Fp.isFinite b = true) :
    toRat a < toRat b ↔ Fp.orderKey a < Fp.orderKey b := by
  rw [Fp.toRat_eq ha, Fp.toRat_eq hb]
  unfold Fp.orderKey
  generalize a.toNat % 2 ^ 63 = m
  generalize b.toNat % 2 ^ 63 = k
  have k1 : magVal m < magVal k ↔ m < k := magVal_lt_iff
  have k2 : magVal k < magVal m ↔ k < m := magVal_lt_iff
  have na := magVal_nonneg m
  have nb := magVal_nonneg k
  have za : 0 < magVal m ↔ 0 < m := by rw [← magVal_zero, magVal_lt_iff]
  have zb : 0 < magVal k ↔ 0 < k := by rw [← magVal_zero, magVal_lt_iff]
  generalize magVal m = A at *
  generalize magVal k = B at *
  cases Fp.signBit a <;> cases Fp.signBit b <;>
    simp only [sgn, Fp.signedInt, Bool.false_eq_true, if_false, if_true, one_mul, neg_one_mul, neg_lt_neg_iff]
  · rw [k1]; omega
  · constructor
    · intro h; exfalso; linarith
    · intro h; exfalso; omega
  · constructor
    · intro h
      rcases lt_or_ge 0 A with h1 | h1
      · have := za.1 h1; omega
      · have := zb.1 (by linarith); omega
    · intro h
      rcases Nat.lt_or_ge 0 m with h1 | h1
      · have := za.2 h1; linarith
      · have := zb.2 (by omega); linarith
  · rw [k2]; omega

theorem Fp.isNaN_of_isFinite {a : F64} (h : Fp.isFinite a = true) : Fp.isNaN a = false := by
  have : Fp.expField a ≠ 2047 := by simpa [Fp.isFinite] using h
  simp [Fp.isNaN, this]

/-- The parts of `−v`. -/
theorem Fp.neg_parts (v : F64) :
    Fp.isFinite (Fp.neg v) = Fp.isFinite v ∧ Fp.signBit (Fp.neg v) = !Fp.signBit v ∧
      (Fp.neg v).toNat % 2 ^ 63 = v.toNat % 2 ^ 63 := by
  have h : (Fp.neg v).toNat % 2 ^ 63 = v.toNat % 2 ^ 63 := by
    have : (Fp.neg v).setWidth 63 = v.setWidth 63 := by
      ext i hi
      simp [Fp.neg, BitVec.getElem_setWidth]
    simpa [BitVec.toNat_setWidth] using congrArg BitVec.toNat this
  have he : Fp.expField (Fp.neg v) = Fp.expField v := by unfold Fp.expField; omega
  refine ⟨by simp [Fp.isFinite, he], ?_, h⟩
  have : BitVec.msb (0x8000000000000000 : F64) = true := by decide
  simp only [Fp.signBit, Fp.neg, BitVec.msb_xor, this, Bool.xor_true]

theorem Fp.toRat_neg {v : F64} (h : Fp.isFinite v = true) : toRat (Fp.neg v) = -toRat v := by
  obtain ⟨h1, h2, h3⟩ := Fp.neg_parts v
  rw [Fp.toRat_eq h, Fp.toRat_eq (h1.trans h), h2, h3]
  cases Fp.signBit v <;> simp [sgn]

/-- The datum of a finite value and its number. -/
theorem Fp.datum_of_isFinite {a : F64} (h : Fp.isFinite a = true) :
    ∃ m e, Fp.datum a = .fin (Fp.signBit a) m e ∧ toRat a = sgn (Fp.signBit a) * m * 2 ^ e := by
  have he : Fp.expField a ≠ 2047 := by simpa [Fp.isFinite] using h
  unfold toRat Fp.datum
  rw [if_neg he]
  split
  · exact ⟨_, _, rfl, by simp [sgn]⟩
  · exact ⟨_, _, rfl, by simp [sgn]⟩

/-- No finite value reaches the overflow bound. -/
theorem Fp.abs_toRat_lt {v : F64} (h : Fp.isFinite v = true) : |toRat v| < 2 ^ 1024 - 2 ^ 970 := by
  have hm := Fp.magnitude_lt h
  rw [Fp.toRat_eq h, abs_mul, abs_sgn, one_mul, abs_of_nonneg (magVal_nonneg _)]
  have h1 : magVal (v.toNat % 2 ^ 63) ≤ magVal (Fp.infMagnitude - 1) := by
    by_contra hc
    have := magVal_lt_iff.1 (not_le.1 hc)
    omega
  have h2 : magVal (Fp.infMagnitude - 1) = (2 ^ 53 - 1) * 2 ^ 971 := by
    unfold magVal Fp.infMagnitude
    norm_num
  refine lt_of_le_of_lt h1 ?_
  rw [h2]
  have e1 : (2 : ℚ) ^ 1024 = 2 ^ 54 * 2 ^ 970 := by rw [← pow_add]
  have e2 : (2 : ℚ) ^ 971 = 2 * 2 ^ 970 := by rw [← pow_succ']
  have hp : (0 : ℚ) < 2 ^ 970 := by positivity
  rw [e1, e2]
  generalize (2 : ℚ) ^ 970 = U at *
  have : (2 ^ 53 - 1) * (2 * U) = 2 ^ 54 * U - 2 * U := by ring
  rw [this]
  clear e1 e2 h1 h2 this
  linarith

/-- A number that is a finite value is rounded to a finite value of the same number. -/
theorem CorrectlyRounded.exact {v r : F64} (hv : Fp.isFinite v = true) (h : CorrectlyRounded (toRat v) r) :
    Fp.isFinite r = true ∧ toRat r = toRat v := by
  obtain ⟨-, hinf, -, hnear, -⟩ := h
  have hr : Fp.isFinite r = true := by
    cases hf : Fp.isFinite r with
    | true => rfl
    | false => exact absurd (hinf.1 hf) (not_le.2 (Fp.abs_toRat_lt hv))
  refine ⟨hr, ?_⟩
  have := (hnear hr v hv).1
  rw [sub_self, abs_zero] at this
  have := abs_eq_zero.1 (le_antisymm this (abs_nonneg _))
  linarith

/-! ### Library results (R11(d)) -/

/-- A result within the accuracy is no NaN, so the call gives it as it is. -/
theorem Fp.ofLib_within {n : ℕ} {x : ℝ} {r : F64} (h : Config.Within n x r) : Fp.ofLib r = some r := by
  simp [Fp.ofLib, Fp.isNaN_of_isFinite h.1]

/-- A result within the accuracy or an overflow is no NaN, so the call gives it as it is. -/
theorem Fp.ofLib_withinOrOverflow {n : ℕ} {x : ℝ} {r : F64} (h : Config.WithinOrOverflow n x r) : Fp.ofLib r = some r := by
  rcases h with h | ⟨rfl, _⟩ | ⟨rfl, _⟩
  · exact Fp.ofLib_within h
  · decide
  · decide

end Sys2Proof.Machine
end

