-- ==== Sys2Proof/Laws/PerInstr.lean ====
section
/-! SUPPORT. Statements about every command as syntax, one lemma per constructor. -/

namespace Sys2Proof.Laws.EncodesWellFormed

/-- The encoder writes what a conforming host writes: an assigned opcode, RSV zero, unused IMM8 bits zero (R71, R81) and
exactly the words that the opcode requires (R73, R246). -/
def Statement (i : Instr) : Prop := commandWellFormed (encode i) = true ∧ (encode i).length = i.length

/-- A command is written so when its IMM8 uses only the bits its opcode uses. -/
theorem of_imm {i : Instr} (himm : i.imm &&& ~~~ i.opcode.immMask = 0) (hlen : (encode i).length = i.length) :
    Statement i := by
  refine ⟨?_, hlen⟩
  have hlen' : (commandWord i.opcode i.imm :: i.operandList.flatMap operandWords).length = i.opcode.length := hlen
  simp [commandWellFormed, encode, opcodeAssigned, rsvZero, immUsed, lengthExact, himm, hlen']

/-- A command that ignores IMM8 and is written with zero there. -/
theorem noImm : (0x00 : BitVec 8) &&& ~~~ (0x00 : BitVec 8) = 0 := by decide

theorem nop : Statement .nop := of_imm (by decide) rfl

theorem bqReset : Statement .bqReset := of_imm (by decide) rfl

theorem bqSetcoef (a0 a1 a2 b1 b2 c0 d0 : F64) : Statement (.bqSetcoef a0 a1 a2 b1 b2 c0 d0) := of_imm noImm rfl

theorem bqSettopo (t : Topology) : Statement (.bqSettopo t) := by
  refine of_imm ?_ rfl
  cases t <;> decide

theorem bqProcess (x : F64) : Statement (.bqProcess x) := of_imm noImm rfl

theorem fltPrepare (fs : F64) : Statement (.fltPrepare fs) := of_imm noImm rfl

theorem fltReset : Statement .fltReset := of_imm (by decide) rfl

theorem fltSetalg (code : BitVec 8) : Statement (.fltSetalg code) := by
  refine of_imm ?_ rfl
  revert code; decide

theorem fltSetfc (v : F64) : Statement (.fltSetfc v) := of_imm noImm rfl

theorem fltSetq (v : F64) : Statement (.fltSetq v) := of_imm noImm rfl

theorem fltSetgain (v : F64) : Statement (.fltSetgain v) := of_imm noImm rfl

theorem fltProcess (x : F64) : Statement (.fltProcess x) := of_imm noImm rfl

theorem rdReg (n : BitVec 8) : Statement (.rdReg n) := by
  refine of_imm ?_ rfl
  revert n; decide

theorem errClr : Statement .errClr := of_imm (by decide) rfl

end Sys2Proof.Laws.EncodesWellFormed
end

