-- ==== Sys2Proof/Laws/Roots.lean ====
section
/-! SUPPORT. The square root (R11): `natSqrt` is the integer root, and rounding it with one more bit that says whether it is
inexact gives the rounded real root. -/

namespace Sys2Proof.Machine

/-! ### Finite values near a number -/

/-- A finite magnitude has a significand below `2^53`. -/
theorem magVal_significand (m : ℕ) : ∃ (n : ℕ) (k : ℤ), n < 2 ^ 53 ∧ magVal m = n * 2 ^ k := by
  unfold magVal
  split
  · exact ⟨m, _, by omega, rfl⟩
  · exact ⟨2^52 + m % 2^52, _, by omega, rfl⟩

/-- A finite value that is large against `2^e` is a multiple of `4 · 2^e`. -/
theorem Fp.multiple_of_unit {w : F64} (hw : Fp.isFinite w = true) {e : ℤ} (h : (2:ℝ) ^ 59 * 2 ^ e ≤ (toRat w : ℝ)) :
    ∃ k : ℤ, ((toRat w : ℚ) : ℝ) = k * (4 * 2 ^ e) := by
  obtain ⟨n, k, hn, hm⟩ := magVal_significand (w.toNat % 2 ^ 63)
  have e0 := Fp.toRat_eq hw
  rw [hm] at e0
  have hs : Fp.signBit w = false := by
    cases hb : Fp.signBit w with
    | false => rfl
    | true =>
      rw [hb] at e0
      have : (toRat w : ℝ) ≤ 0 := by
        rw [e0]; push_cast; simp only [sgn, if_true]; push_cast
        have : (0:ℝ) ≤ n * 2 ^ k := by positivity
        linarith
      have h2 : (0:ℝ) < 2 ^ 59 * 2 ^ e := by positivity
      linarith
  rw [hs] at e0
  have e1 : ((toRat w : ℚ) : ℝ) = n * 2 ^ k := by rw [e0]; simp [sgn]
  rw [e1] at h ⊢
  have hk : e + 2 ≤ k := by
    by_contra hc
    have h1 : (2:ℝ) ^ k ≤ 2 ^ (e + 1) := zpow_le_zpow_right₀ (by norm_num) (by omega)
    have h2 : (n:ℝ) < 2 ^ 53 := by exact_mod_cast hn
    have h3 : (0:ℝ) < 2 ^ e := by positivity
    rw [zpow_add_one₀ (by norm_num)] at h1
    have : (n:ℝ) * 2 ^ k ≤ 2 ^ 53 * (2 ^ e * 2) := mul_le_mul h2.le h1 (by positivity) (by positivity)
    norm_num at *
    linarith
  obtain ⟨j, rfl⟩ : ∃ j : ℕ, k = e + 2 + j := ⟨(k - (e + 2)).toNat, by omega⟩
  refine ⟨n * 2 ^ j, ?_⟩
  push_cast
  rw [zpow_add₀ (by norm_num), zpow_add₀ (by norm_num), zpow_natCast]
  norm_num
  ring

/-- Every power of two in the normal range is a value. -/
theorem Fp.exists_power_of_two (j : ℤ) (h1 : -1022 ≤ j) (h2 : j ≤ 1023) :
    ∃ y : F64, Fp.isFinite y = true ∧ toRat y = 2 ^ j := by
  have hm : (j + 1023).toNat * 2 ^ 52 < Fp.infMagnitude := by unfold Fp.infMagnitude; omega
  refine ⟨Fp.pack false ((j + 1023).toNat * 2 ^ 52), Fp.isFinite_pack _ hm, ?_⟩
  rw [Fp.toRat_pack _ hm]
  have := magVal_grid (k := (j + 1022).toNat) (q := 2 ^ 52) (by norm_num) (.inr le_rfl)
  rw [show (j + 1022).toNat * 2 ^ 52 + 2 ^ 52 = (j + 1023).toNat * 2 ^ 52 by omega] at this
  rw [this, show (((j + 1022).toNat : ℕ) : ℤ) - 1074 = j - 52 by omega, zpow_sub₀ (by norm_num)]
  simp [sgn]
  ring

/-! ### The root -/

/-- `natSqrt` is the integer root, for a number below `(r + 2^k)²` from a lower bound `r`. -/
theorem Fp.natSqrt_spec (n k r : ℕ) (h1 : r * r ≤ n) (h2 : n < (r + 2 ^ k) * (r + 2 ^ k)) :
    Fp.natSqrt n k r * Fp.natSqrt n k r ≤ n ∧ n < (Fp.natSqrt n k r + 1) * (Fp.natSqrt n k r + 1) := by
  induction k generalizing r with
  | zero => exact ⟨h1, by simpa [Fp.natSqrt] using h2⟩
  | succ k ih =>
    unfold Fp.natSqrt
    split
    · next h => exact ih _ h (by rw [pow_succ] at h2; convert h2 using 2 <;> ring)
    · next h => exact ih _ h1 (by omega)

/-- A number strictly between `2ru` and `(2r + 2)u` has the nearest value `R` of the midpoint, where every value of its size is a
multiple of `4u`. -/
theorem nearest_of_sticky {x xt u R W : ℝ} {r : ℕ} (hu : 0 < u) (hr : 2 ^ 60 ≤ r) (hxt : xt = (2 * r + 1) * u)
    (hx1 : 2 * r * u < x) (hx2 : x < (2 * r + 2) * u) (hR1 : xt / 2 ≤ R) (hR2 : R ≤ 3 / 2 * xt)
    (hRm : ∃ k : ℤ, R = k * (4 * u)) (hWm : 2 ^ 59 * u ≤ W → ∃ k : ℤ, W = k * (4 * u)) (hn : |xt - R| ≤ |xt - W|)
    (hne : R ≠ W) :
    |x - R| < |x - W| := by
  have hr' : (2:ℝ) ^ 60 ≤ r := by exact_mod_cast hr
  have side : ∀ M : ℝ, M = (R + W) / 2 → (R < W → xt ≤ M) ∧ (W < R → M ≤ xt) := by
    intro M hM
    refine ⟨fun h => ?_, fun h => ?_⟩
    · by_contra hc
      have hc := not_le.1 hc
      have : |xt - W| < |xt - R| := by
        rw [abs_of_pos (show 0 < xt - R by linarith)]
        rw [abs_lt]; constructor <;> linarith
      linarith
    · by_contra hc
      have hc := not_le.1 hc
      have : |xt - W| < |xt - R| := by
        rw [abs_of_neg (show xt - R < 0 by linarith)]
        rw [abs_lt]; constructor <;> linarith
      linarith
  have fin : (R < W → x < (R + W) / 2) ∧ (W < R → (R + W) / 2 < x) → |x - R| < |x - W| := by
    rintro ⟨h1, h2⟩
    rcases lt_or_gt_of_ne hne with h | h
    · have := h1 h
      rw [abs_of_neg (show x - W < 0 by linarith), abs_lt]; constructor <;> linarith
    · have := h2 h
      rw [abs_of_pos (show 0 < x - W by linarith), abs_lt]; constructor <;> linarith
  apply fin
  obtain ⟨s1, s2⟩ := side _ rfl
  by_cases hW : 2 ^ 59 * u ≤ W
  · obtain ⟨k, rfl⟩ := hRm
    obtain ⟨l, rfl⟩ := hWm hW
    have hM : ((k:ℝ) * (4 * u) + l * (4 * u)) / 2 = ((k + l : ℤ) : ℝ) * (2 * u) := by push_cast; ring
    rw [hM] at s1 s2 ⊢
    subst hxt
    refine ⟨fun h => ?_, fun h => ?_⟩
    · have h1 := s1 h
      have h2 : (2 * (r:ℝ) + 1) ≤ ((k + l : ℤ) : ℝ) * 2 := by
        by_contra hc
        have := mul_lt_mul_of_pos_right (not_le.1 hc) hu
        linarith
      have h3 : 2 * (r : ℤ) + 1 ≤ (k + l) * 2 := by exact_mod_cast h2
      have h4 : (r : ℤ) + 1 ≤ k + l := by omega
      have h5 : (r : ℝ) + 1 ≤ ((k + l : ℤ) : ℝ) := by exact_mod_cast h4
      have := mul_le_mul_of_nonneg_right h5 (show 0 ≤ 2 * u by linarith)
      linarith
    · have h1 := s2 h
      have h2 : ((k + l : ℤ) : ℝ) * 2 ≤ (2 * (r:ℝ) + 1) := by
        by_contra hc
        have := mul_lt_mul_of_pos_right (not_le.1 hc) hu
        linarith
      have h3 : (k + l) * 2 ≤ 2 * (r : ℤ) + 1 := by exact_mod_cast h2
      have h4 : k + l ≤ (r : ℤ) := by omega
      have h5 : ((k + l : ℤ) : ℝ) ≤ r := by exact_mod_cast h4
      have := mul_le_mul_of_nonneg_right h5 (show 0 ≤ 2 * u by linarith)
      linarith
  · have hW := not_le.1 hW
    have hq : (2 ^ 61 : ℝ) * u ≤ xt := by
      rw [hxt]; apply mul_le_mul_of_nonneg_right _ hu.le; linarith
    have hxl : xt - u < x := by rw [hxt]; linarith
    have : (R + W) / 2 < x := by norm_num at *; linarith
    exact ⟨fun h => by norm_num at *; linarith, fun _ => this⟩

/-- The rounding that `sqrtCore` makes is the rounded real root of `m · 2^e`. -/
theorem roundRatio_sqrt (m : ℕ) (e : ℤ) (hm : 0 < m) (hm2 : m < 2 ^ 53) (he1 : -1074 ≤ e) (he2 : e ≤ 971) :
    let odd := e % 2 = 1
    let square := (if odd then 2 * m else m) <<< 120
    let e' : Int := (if odd then e - 1 else e) - 120
    let r := Fp.natSqrt square 88 0
    RootCorrectlyRounded (m * 2 ^ e) (Fp.roundRatio false (2 * r + if r * r = square then 0 else 1) 1 (e' / 2 - 1)) := by
  intro odd square e' r
  obtain ⟨f, hf⟩ : ∃ f : ℤ, e' = 2 * f := by
    refine ⟨e' / 2, ?_⟩
    simp only [e', odd]; split <;> omega
  have hsq : (square : ℚ) * 2 ^ e' = m * 2 ^ e := by
    simp only [square, e']
    rw [Nat.shiftLeft_eq]
    split
    · push_cast
      rw [show (e - 1 - 120) = e - 1 - (120:ℕ) by norm_num, zpow_sub₀ (by norm_num), zpow_sub₀ (by norm_num)]
      norm_num
      ring
    · push_cast
      rw [show (e - 120) = e - (120:ℕ) by norm_num, zpow_sub₀ (by norm_num)]
      norm_num
      ring
  have hs1 : 2 ^ 120 ≤ square := by
    simp only [square]; rw [Nat.shiftLeft_eq]; split <;> omega
  have hs2 : square < 2 ^ 176 := by
    simp only [square]; rw [Nat.shiftLeft_eq]; split <;> omega
  obtain ⟨r1, r2⟩ := Fp.natSqrt_spec square 88 0 (by omega) (by norm_num; omega)
  change r * r ≤ square at r1
  change square < (r + 1) * (r + 1) at r2
  have hr : 2 ^ 60 ≤ r := by
    by_contra hc
    have : (r + 1) * (r + 1) ≤ 2 ^ 60 * 2 ^ 60 := Nat.mul_le_mul (by omega) (by omega)
    omega
  have hr2 : r < 2 ^ 88 := by
    by_contra hc
    have : 2 ^ 88 * 2 ^ 88 ≤ r * r := Nat.mul_le_mul (by omega) (by omega)
    omega
  have hf2 : e' / 2 - 1 = f - 1 := by omega
  have hfl : -1194 / 2 - 1 ≤ f := by
    have : -1074 - 1 - 120 ≤ e' := by simp only [e']; split <;> omega
    omega
  have hfu : f ≤ 426 := by
    have : e' ≤ 971 - 120 := by simp only [e']; split <;> omega
    omega
  rw [hf2]
  clear_value square e' r
  set q := 2 * r + if r * r = square then 0 else 1 with hq
  have hq0 : 2 ^ 61 ≤ q := by rw [hq]; split <;> omega
  have hq1 : q < 2 ^ 90 := by rw [hq]; split <;> omega
  have hC := roundRatio_correct false (num := q) (den := 1) (by omega) (by omega) (f - 1)
  rw [show sgn false * (((q : ℕ) : ℚ) / ((1:ℕ):ℚ) * 2 ^ (f - 1)) = q * 2 ^ (f - 1) by simp [sgn]] at hC
  generalize Fp.roundRatio false q 1 (f - 1) = R at hC
  obtain ⟨c1, c2, c3, c4, c5⟩ := hC
  have hxpos : (0:ℚ) < q * 2 ^ (f - 1) := by
    have : 0 < q := by omega
    positivity
  have hqQ : ((2:ℚ) ^ 61 ≤ q) ∧ (q : ℚ) < 2 ^ 90 := ⟨by exact_mod_cast hq0, by exact_mod_cast hq1⟩
  have hfin : Fp.isFinite R = true := by
    cases hF : Fp.isFinite R with
    | true => rfl
    | false =>
      exfalso
      have h1 := c2.1 hF
      rw [abs_of_pos hxpos] at h1
      have h2 : (q:ℚ) * 2 ^ (f - 1) ≤ 2 ^ 90 * 2 ^ (500:ℤ) :=
        mul_le_mul hqQ.2.le (zpow_le_zpow_right₀ (by norm_num) (by omega)) (by positivity) (by positivity)
      have h3 : (2:ℚ) ^ 90 * 2 ^ (500:ℤ) = 2 ^ 590 := by rw [zpow_ofNat, ← pow_add]
      have h4 : (2:ℚ) ^ 590 < 2 ^ 1024 - 2 ^ 970 := by
        have e1 : (2:ℚ) ^ 1024 = 2 ^ 434 * 2 ^ 590 := by rw [← pow_add]
        have e2 : (2:ℚ) ^ 970 = 2 ^ 380 * 2 ^ 590 := by rw [← pow_add]
        rw [e1, e2, ← sub_mul]
        have e3 : (2:ℚ) ^ 434 = 2 ^ 54 * 2 ^ 380 := by rw [← pow_add]
        have p1 : (1:ℚ) ≤ 2 ^ 380 := one_le_pow₀ (by norm_num)
        have : (1:ℚ) < 2 ^ 434 - 2 ^ 380 := by
          rw [e3]
          clear e1 e2 e3 h1 h2 h3 c2
          generalize (2:ℚ)^380 = Y at *
          norm_num
          linarith
        have p : (0:ℚ) < 2 ^ 590 := by positivity
        exact lt_mul_of_one_lt_left p this
      rw [h3] at h2
      exact absurd (lt_of_le_of_lt h2 h4) (not_lt.2 h1)
  refine ⟨hfin, by rw [c5 hxpos.ne']; simp [hxpos.le], ?_⟩
  intro w hw
  have hnear := c4 hfin w hw
  -- the real root
  have hroot : Real.sqrt ((m * 2 ^ e : ℚ) : ℝ) = Real.sqrt square * 2 ^ f := by
    rw [← hsq, hf]
    push_cast
    rw [Real.sqrt_mul (by positivity), two_mul, zpow_add₀ (by norm_num), Real.sqrt_mul_self (by positivity)]
  rw [hroot]
  have h2f : (2:ℝ) ^ f = 2 * 2 ^ (f - 1) := by rw [zpow_sub_one₀ (by norm_num)]; ring
  by_cases hex : r * r = square
  · have hx : Real.sqrt square * 2 ^ f = ((q * 2 ^ (f - 1) : ℚ) : ℝ) := by
      rw [hq, if_pos hex, ← hex]
      push_cast
      rw [Real.sqrt_mul_self (by positivity), h2f]
      ring
    rw [hx]
    exact_mod_cast hnear
  · have hqv : q = 2 * r + 1 := by rw [hq, if_neg hex]
    have hu : (0:ℝ) < 2 ^ (f - 1) := by positivity
    have hs : (r:ℝ) < Real.sqrt square ∧ Real.sqrt square < r + 1 := by
      constructor
      · apply Real.lt_sqrt_of_sq_lt
        have : r * r < square := by omega
        rw [sq]; exact_mod_cast this
      · rw [Real.sqrt_lt' (by positivity), sq]
        exact_mod_cast r2
    -- a power of two near
    set j : ℤ := Int.log 2 (q * 2 ^ (f - 1) : ℚ) with hj
    have j1 : (2:ℚ) ^ j ≤ q * 2 ^ (f - 1) := by have := Int.zpow_log_le_self (b := 2) (by norm_num) hxpos; exact_mod_cast this
    have j2 : (q * 2 ^ (f - 1) : ℚ) < 2 ^ (j + 1) := by
      have := Int.lt_zpow_succ_log_self (b := 2) (by norm_num) (q * 2 ^ (f - 1) : ℚ)
      exact_mod_cast this
    have jl : -1022 ≤ j := by
      by_contra hc
      have h1 : (2:ℚ) ^ (j + 1) ≤ 2 ^ (-1000 : ℤ) := zpow_le_zpow_right₀ (by norm_num) (by omega)
      have h2 : (2:ℚ) ^ 61 * 2 ^ (-700 : ℤ) ≤ q * 2 ^ (f - 1) :=
        mul_le_mul hqQ.1 (zpow_le_zpow_right₀ (by norm_num) (by omega)) (by positivity) (by positivity)
      have h3 : (2:ℚ) ^ 61 * 2 ^ (-700 : ℤ) = 2 ^ (-639:ℤ) := by rw [← zpow_natCast, ← zpow_add₀ (by norm_num)]; norm_num
      have h4 : (2:ℚ) ^ (-1000 : ℤ) < 2 ^ (-639:ℤ) := zpow_lt_zpow_right₀ (by norm_num) (by norm_num)
      linarith
    have ju : j ≤ 1023 := by
      by_contra hc
      have h1 : (2:ℚ) ^ (1000:ℤ) ≤ 2 ^ j := zpow_le_zpow_right₀ (by norm_num) (by omega)
      have h2 : (q:ℚ) * 2 ^ (f - 1) ≤ 2 ^ 90 * 2 ^ (500:ℤ) :=
        mul_le_mul hqQ.2.le (zpow_le_zpow_right₀ (by norm_num) (by omega)) (by positivity) (by positivity)
      have h3 : (2:ℚ) ^ 90 * 2 ^ (500:ℤ) = 2 ^ (590:ℤ) := by rw [← zpow_natCast, ← zpow_add₀ (by norm_num)]; norm_num
      have h4 : (2:ℚ) ^ (590 : ℤ) < 2 ^ (1000:ℤ) := zpow_lt_zpow_right₀ (by norm_num) (by norm_num)
      exact absurd (lt_of_lt_of_le h4 (h1.trans (j1.trans (h2.trans h3.le)))) (lt_irrefl _)
    obtain ⟨y, hy, hyv⟩ := Fp.exists_power_of_two j jl ju
    have hny := (c4 hfin y hy).1
    rw [hyv, abs_of_nonneg (by linarith : (0:ℚ) ≤ q * 2 ^ (f - 1) - 2 ^ j)] at hny
    rw [zpow_add_one₀ (by norm_num)] at j2
    have hb : |(q * 2 ^ (f - 1) : ℚ) - toRat R| ≤ q * 2 ^ (f - 1) / 2 := by linarith
    rw [abs_le] at hb
    have hb1 : (((q * 2 ^ (f - 1) : ℚ) : ℚ) : ℝ) / 2 ≤ toRat R := by
      have : (q * 2 ^ (f - 1) : ℚ) / 2 ≤ toRat R := by linarith
      have h2 : ((((q * 2 ^ (f - 1) : ℚ) / 2 : ℚ)) : ℝ) ≤ toRat R := Rat.cast_le.2 this
      rw [Rat.cast_div, Rat.cast_ofNat] at h2
      exact h2
    have hb2 : ((toRat R : ℚ) : ℝ) ≤ 3 / 2 * ((q * 2 ^ (f - 1) : ℚ) : ℝ) := by
      have : toRat R ≤ 3 / 2 * (q * 2 ^ (f - 1) : ℚ) := by linarith
      have h2 : ((toRat R : ℚ) : ℝ) ≤ ((3 / 2 * (q * 2 ^ (f - 1) : ℚ) : ℚ) : ℝ) := Rat.cast_le.2 this
      rw [Rat.cast_mul, Rat.cast_div, Rat.cast_ofNat, Rat.cast_ofNat] at h2
      exact h2
    by_cases hne : toRat R = toRat w
    · rw [hne]; exact ⟨le_rfl, fun _ => .inl rfl⟩
    · have hqr : ((2 : ℝ) ^ 61 ≤ q) := by exact_mod_cast hq0
      have key : |Real.sqrt square * 2 ^ f - toRat R| < |Real.sqrt square * 2 ^ f - toRat w| := by
        refine nearest_of_sticky (xt := ((q * 2 ^ (f - 1) : ℚ) : ℝ)) (r := r) hu hr ?_ ?_ ?_ hb1 hb2 ?_ ?_ ?_ ?_
        · rw [hqv]; push_cast; ring
        · rw [h2f]; have := mul_lt_mul_of_pos_right hs.1 (show (0:ℝ) < 2 * 2 ^ (f-1) by positivity); linarith
        · rw [h2f]; have := mul_lt_mul_of_pos_right hs.2 (show (0:ℝ) < 2 * 2 ^ (f-1) by positivity); linarith
        · apply Fp.multiple_of_unit hfin
          refine le_trans ?_ hb1
          push_cast
          have := mul_le_mul_of_nonneg_right hqr hu.le
          norm_num at *; linarith
        · exact fun h => Fp.multiple_of_unit hw h
        · exact_mod_cast hnear.1
        · exact_mod_cast hne
      exact ⟨key.le, fun h => absurd h key.ne⟩

end Sys2Proof.Machine
end

