-- ==== Sys2Proof/Tests/Slice0.lean ====
section
/-! SUPPORT. The model's own tests. Words are written out from the encoding rules of 30_encoding.md, expected values are those of
95_test_vectors.md (the section is named) or follow by hand from the rule named; then, for every statement with hypotheses, one
theorem `witness_<statement>` shows a state and operands that meet them, clause by clause at the ends of each range. -/

namespace Sys2Proof.Tests

open Sys2Proof.Machine

/-! ### Helpers -/

/-- The state after one command; no command stops. -/
def after (i : Instr) (s : State) : State :=
  match exec i s with
  | .next t => t
  | .fault _ => s
  | .refused _ => s

/-- The state after one step; no step stops. -/
def stepped (s : State) : State :=
  match step s with
  | .next t => t
  | .fault _ => s
  | .refused _ => s

/-- The reset state with these words on the command stream. -/
def streaming (ws : List Word) : State := { State.reset with stream := ws }

/-- The coefficient set `cd` of 95_test_vectors.md: 0.5, 0.25, 0.125, −0.5, 0.25, 1, 0. -/
def cd : Coefs :=
  ⟨0x3FE0000000000000, 0x3FD0000000000000, 0x3FC0000000000000, 0xBFE0000000000000, 0x3FD0000000000000, 0x3FF0000000000000, 0⟩

/-- Zero history, the set `cd`, a topology. -/
def cdState (t : Topology) : State := { State.reset with coef := cd, topo := t }

/-- History 1, 2, 3, 4. -/
def used : State := { cdState .direct with hist := ⟨0x3FF0000000000000, 0x4000000000000000, 0x4008000000000000, 0x4010000000000000⟩ }

/-- A positive and a negative NaN. -/
def nanA : F64 := 0x7FF8000000000000
def nanB : F64 := 0xFFF0000000000001

/-- A state just after FLT.PREPARE, as far as the flags go. -/
def settled : State := { State.reset with dirty := false, prepared := true }

/-! ### Decoding: one word list per command, written out from R70 to R77 -/

theorem test_decode_nop : decode [0x00000000] = .ok (.nop, []) := by decide
/-- RSV and IMM8 are ignored (L2.4). -/
theorem test_decode_nop_ignored_fields : decode [0x00FFFFFF] = .ok (.nop, []) := by decide
theorem test_decode_bqReset : decode [0x01000000] = .ok (.bqReset, []) := by decide
/-- L3 P2, line 2. -/
theorem test_decode_bqSetcoef :
    decode [0x02000000, 0x00000000, 0x3FE00000, 0x00000000, 0x3FD00000, 0x00000000, 0x3FC00000, 0x00000000, 0xBFE00000,
      0x00000000, 0x3FD00000, 0x00000000, 0x3FF00000, 0x00000000, 0x00000001] =
    .ok (.bqSetcoef 0x3FE0000000000000 0x3FD0000000000000 0x3FC0000000000000 0xBFE0000000000000 0x3FD0000000000000
      0x3FF0000000000000 0x0000000100000000, []) := by decide
theorem test_decode_bqSettopo : decode [0x03000003] = .ok (.bqSettopo .transposeCanonical, []) := by decide
/-- Only IMM8[1:0] is used (L2.1). -/
theorem test_decode_bqSettopo_low_bits : decode [0x030000FE] = .ok (.bqSettopo .transposeDirect, []) := by decide
/-- L2.5: `BQ.PROCESS -2`. -/
theorem test_decode_bqProcess :
    decode [0x04000000, 0x00000000, 0xC0000000, 0xAAAAAAAA] = .ok (.bqProcess 0xC000000000000000, [0xAAAAAAAA]) := by decide
theorem test_decode_fltPrepare :
    decode [0x10000000, 0x00000000, 0x40E77000] = .ok (.fltPrepare 0x40E7700000000000, []) := by decide
theorem test_decode_fltReset : decode [0x11000000] = .ok (.fltReset, []) := by decide
theorem test_decode_fltSetalg : decode [0x12000003] = .ok (.fltSetalg 3, []) := by decide
/-- L2.5: `FLT.SETALG ImpInvLP2`. -/
theorem test_decode_fltSetalg_last : decode [0x1200001C] = .ok (.fltSetalg Algorithm.impInvLp2.code, []) := by decide
/-- L2.5: `FLT.SETFC 1000`. -/
theorem test_decode_fltSetfc : decode [0x13000000, 0x00000000, 0x408F4000] = .ok (.fltSetfc 0x408F400000000000, []) := by decide
theorem test_decode_fltSetq : decode [0x14000000, 0x76C8B439, 0x3FE69FBE] = .ok (.fltSetq 0x3FE69FBE76C8B439, []) := by decide
/-- L2.5: `FLT.SETGAIN -6`. -/
theorem test_decode_fltSetgain : decode [0x15000000, 0x00000000, 0xC0180000] = .ok (.fltSetgain 0xC018000000000000, []) := by
  decide
theorem test_decode_fltProcess : decode [0x16000000, 0x00000000, 0x3FF00000] = .ok (.fltProcess 0x3FF0000000000000, []) := by
  decide
theorem test_decode_rdReg : decode [0x20000019] = .ok (.rdReg 0x19, []) := by decide
/-- L2.5: `RD.REG S4`. -/
theorem test_decode_rdReg_s4 : decode [0x2000000B] = .ok (.rdReg RegName.s4.number, []) := by decide
theorem test_decode_errClr : decode [0x21000000] = .ok (.errClr, []) := by decide

/-- L2.4 and R78: an unassigned opcode is rejected by name; R65: so is a command with a word missing. -/
theorem test_decode_rejects :
    decode [0x05000000] = .error (.unassignedOpcode 0x05) ∧ decode [0xFF123456] = .error (.unassignedOpcode 0xFF) ∧
    decode [0x04000000, 0x00000000] = .error (.incomplete 2 3) ∧ decode [] = .error (.incomplete 0 1) := by decide

/-- The opcode map has no two commands with one opcode. -/
theorem test_opcodes_distinct : (Opcode.all.map Opcode.code).Nodup := by decide

/-- The table's numbering: bit 32 is bit 0 of the second word. -/
theorem test_decodeTableWord :
    decodeTableWord 32 0x12000003 = some (.fltSetalg 3) ∧
    decodeTableWord 96 0x3FE69FBE76C8B43914000000 = some (.fltSetq 0x3FE69FBE76C8B439) ∧
    decodeTableWord 32 0x14000000 = some (.fltSetq 0) ∧ decodeTableWord 32 0x05000000 = none := by decide +kernel

/-! ### WellFormed: one ill-formed word list for each check, which it refuses -/

theorem test_wellFormed_accepts :
    commandWellFormed [0x03000003] = true ∧ commandWellFormed [0x14000000, 0x76C8B439, 0x3FE69FBE] = true := by decide
theorem test_wellFormed_refuses_nothing_at_all : commandWellFormed [] = false := by decide
theorem test_wellFormed_refuses_unassigned_opcode :
    opcodeAssigned 0x05000000 = false ∧ commandWellFormed [0x05000000] = false := by decide
theorem test_wellFormed_refuses_nonzero_rsv : rsvZero 0x12000103 = false ∧ commandWellFormed [0x12000103] = false := by decide
theorem test_wellFormed_refuses_unused_imm :
    immUsed 0x03000004 = false ∧ commandWellFormed [0x03000004] = false ∧ commandWellFormed [0x21000001] = false := by decide
theorem test_wellFormed_refuses_wrong_length :
    commandWellFormed [0x14000000, 0x76C8B439] = false ∧ commandWellFormed [0x00000000, 0x00000000] = false := by decide

/-! ### The assembler (L2.5, R83) -/

theorem test_asm_lines :
    Asm.line? "FLT.SETFC 1000".toList = some [0x13000000, 0x00000000, 0x408F4000] ∧
    Asm.line? "FLT.SETGAIN -6 ; cut".toList = some [0x15000000, 0x00000000, 0xC0180000] ∧
    Asm.line? "FLT.SETQ 0.707".toList = some [0x14000000, 0x76C8B439, 0x3FE69FBE] ∧
    Asm.line? ".word 0x05000000".toList = some [0x05000000] := by decide +kernel

/-- L2.5: `BQ.PASS`. -/
theorem test_asm_pass :
    Asm.line? "BQ.PASS".toList = some ([0x02000000, 0x00000000, 0x3FF00000] ++ List.replicate 8 0x00000000 ++
      [0x00000000, 0x3FF00000, 0x00000000, 0x00000000]) := by decide +kernel

/-! ### System commands (L2.4, L3 P3) -/

theorem test_nop : after .nop State.reset = State.reset := by decide
theorem test_rdReg_status : (after (.rdReg 0x19) State.reset).responses = [0x00000001, 0x00000000] := by decide
/-- L3 P3, line 3: DIRTY and CMDERR. -/
theorem test_rdReg_status_cmderr :
    (after (.rdReg 0x19) { State.reset with cmderr := true }).responses = [0x00000005, 0x00000000] := by decide
theorem test_rdReg_q_low_word_first : (after (.rdReg 0x12) State.reset).responses = [0x76C8B439, 0x3FE69FBE] := by decide
theorem test_rdReg_unassigned :
    after (.rdReg 0x07) State.reset = { State.reset with responses := [0, 0], cmderr := true } := by decide
theorem test_errClr : after .errClr { State.reset with cmderr := true } = State.reset := by decide

/-! ### Biquad commands (L2.1) -/

theorem test_bqReset : after .bqReset used = cdState .direct := by decide
/-- L2.1: BQ.SETCOEF leaves the history. -/
theorem test_bqSetcoef :
    after (.bqSetcoef 0x3FE0000000000000 0x3FD0000000000000 0x3FC0000000000000 0xBFE0000000000000 0x3FD0000000000000
      0x3FF0000000000000 0) { State.reset with hist := used.hist } = used := by decide
theorem test_bqSettopo : (after (.bqSettopo .transposeDirect) State.reset).topo.code = 2 := by decide

/-- L2.1: the first output of `cd` in every topology. -/
theorem test_bqProcess_output :
    [Topology.direct, .canonical, .transposeDirect, .transposeCanonical].map
      (fun t => (after (.bqProcess 0x3FF0000000000000) (cdState t)).responses) =
    List.replicate 4 [0x00000000, 0x3FE00000] := by decide +kernel
/-- L2.1: the history of `cd` after x = 1. -/
theorem test_bqProcess_history :
    [Topology.direct, .canonical, .transposeDirect, .transposeCanonical].map
      (fun t => (after (.bqProcess 0x3FF0000000000000) (cdState t)).hist) =
    [⟨0x3FF0000000000000, 0, 0x3FE0000000000000, 0⟩, ⟨0x3FF0000000000000, 0, 0, 0⟩,
     ⟨0x3FD0000000000000, 0x3FC0000000000000, 0x3FE0000000000000, 0xBFD0000000000000⟩,
     ⟨0x3FE0000000000000, 0, 0, 0⟩] := by decide +kernel
/-- L2.1: the third step of TransposeDirect, x = −2, from (0.25, 0.0625, 0, −0.125). -/
theorem test_bqProcess_transposeDirect_third :
    (after (.bqProcess 0xC000000000000000)
      { cdState .transposeDirect with hist := ⟨0x3FD0000000000000, 0x3FB0000000000000, 0, 0xBFC0000000000000⟩ }).hist =
    ⟨0xBFDC000000000000, 0xBFD0000000000000, 0xBFF2000000000000, 0x3FE0000000000000⟩ := by decide +kernel
/-- L2.1: the third step of TransposeCanonical, x = −2, from (0.25, −0.125, 0, 0). -/
theorem test_bqProcess_transposeCanonical_third :
    (after (.bqProcess 0xC000000000000000)
      { cdState .transposeCanonical with hist := ⟨0x3FD0000000000000, 0xBFC0000000000000, 0, 0⟩ }).hist =
    ⟨0xBFF0000000000000, 0xBFB0000000000000, 0, 0⟩ := by decide +kernel
/-- L2.1, signed zeros: `pass` on −0.0 answers +0.0 and keeps −0.0 in S4 under TransposeDirect. -/
theorem test_bqProcess_negative_zero :
    (after (.bqProcess 0x8000000000000000) { State.reset with topo := .transposeDirect }).hist.s4 = 0x8000000000000000 ∧
    (after (.bqProcess 0x8000000000000000) { State.reset with topo := .transposeDirect }).responses = [0, 0] := by
  decide +kernel

/-- L2.1, flush: 1e−38, −2e−38 and 4e−38 times 0.5, off and on. -/
theorem test_flush :
    [flushWith false, flushWith true].map (fun f => [0x37FB38FB9DAA78E4, 0xB80B38FB9DAA78E4, 0x381B38FB9DAA78E4].map f) =
    [[0x37FB38FB9DAA78E4, 0xB80B38FB9DAA78E4, 0x381B38FB9DAA78E4], [0, 0, 0x381B38FB9DAA78E4]] := by decide +kernel
/-- L2.1, flush: 1e−38 · 0.5 is 0x37FB38FB9DAA78E4. -/
theorem test_subdivision_of_tiny :
    Plain.mul Fp.half (Asm.decimalValue false 1 (-38)) = 0x37FB38FB9DAA78E4 := by decide +kernel

/-! ### Filter commands (L1.2, L1.4, L2.2) -/

theorem test_fltReset : after .fltReset used = cdState .direct := by decide
/-- L2.2, row 7: FLT.SETALG 3 defers. -/
theorem test_fltSetalg : after (.fltSetalg 3) settled = { settled with alg := 3, dirty := true } := by decide
/-- L2.2, row 6: unchanged. -/
theorem test_fltSetalg_unchanged : after (.fltSetalg 1) settled = settled := by decide
/-- L2.2, row 10. -/
theorem test_fltSetfc : after (.fltSetfc 0x408F400000000000) settled = { settled with fc := 0x408F400000000000, dirty := true } := by
  decide
theorem test_fltSetfc_unchanged : after (.fltSetfc 0x4059000000000000) settled = settled := by decide
/-- L1.4. -/
theorem test_fltSetq_values :
    [0, 0xC014000000000000, 0x8000000000000000, 0xFFF0000000000000, 0x0000000000000001, 0x7FF0000000000000,
      0x7FF8000000000000].map (fun v => (after (.fltSetq v) State.reset).q) =
    [0x3FE69FBE76C8B439, 0x3FE69FBE76C8B439, 0x3FE69FBE76C8B439, 0x3FE69FBE76C8B439, 0x0000000000000001,
      0x7FF0000000000000, 0x7FF8000000000000] := by decide +kernel
/-- L1.4: FLT.SETQ −5 with Q at its default leaves DIRTY clear. -/
theorem test_fltSetq_substituted_unchanged : after (.fltSetq 0xC014000000000000) settled = settled := by decide +kernel
/-- L2.2, row 4: −0.0 is a change of bits. -/
theorem test_fltSetgain_negative_zero :
    after (.fltSetgain 0x8000000000000000) settled = { settled with gain := 0x8000000000000000, dirty := true } := by decide
theorem test_fltSetgain_unchanged : after (.fltSetgain 0) settled = settled := by decide
/-- R123, R182: FLT.PREPARE with code 200 from a used history; L2.3 gives the set. -/
theorem test_fltPrepare_unrecognized :
    after (.fltPrepare 0x40E7700000000000) { used with alg := 200, dirty := false } =
    { State.reset with alg := 200, fs := 0x40E7700000000000, dirty := false, prepared := true } := by decide +kernel
/-- L1.2: code 29 answers 0.25 for 0.25; the recompute is done first. -/
theorem test_fltProcess_pass_through :
    (after (.fltProcess 0x3FD0000000000000) { State.reset with alg := 29, coef := cd }).responses =
      [0x00000000, 0x3FD00000] ∧
    (after (.fltProcess 0x3FD0000000000000) { State.reset with alg := 29, coef := cd }).dirty = false := by decide +kernel
/-- R129 by hand: D0 = 1, C0 = 0.5, A0 = 0.5, x = 1: 1·1 + 0.5·0.5 = 1.25. -/
theorem test_fltProcess_mix :
    (after (.fltProcess 0x3FF0000000000000)
      { settled with coef := ⟨0x3FE0000000000000, 0, 0, 0, 0, 0x3FE0000000000000, 0x3FF0000000000000⟩ }).responses =
    [0x00000000, 0x3FF40000] := by decide +kernel

/-! ### Steps -/

/-- L2.4: an unassigned opcode takes one word and the next word is a command word. -/
theorem test_step_unassigned :
    stepped (streaming [0xFF123456, 0x00000000]) =
    { streaming [0xFF123456, 0x00000000] with pos := 1, cmderr := true } := by decide
/-- R65: a command received in part waits. -/
theorem test_step_partial :
    stepped (streaming [0x04000000, 0x00000000]) = { streaming [0x04000000, 0x00000000] with received := 2 } := by decide
/-- From reset with nothing written a step waits (log entries 6, 9). -/
theorem test_step_reset : stepped State.reset = State.reset := by decide
/-- The words placed by `withFetchWord` are what the next step runs. -/
theorem test_withFetchWord :
    (stepped (State.reset.withFetchWord 32 0x12000003)).alg = 3 ∧
    (stepped ({ streaming [0, 0, 0] with pos := 2 }.withFetchWord 96 0x408F40000000000013000000)).fc = 0x408F400000000000 := by
  decide +kernel
/-- R235: reset while a command is half received drops its words. -/
theorem test_hardwareReset_partial :
    hardwareReset { used with stream := [0x04000000, 0], received := 2, cmderr := true } =
    { State.reset with stream := [0x04000000, 0], pos := 2 } := by decide

/-! ### Arithmetic, by hand from R9 and R10 -/

/-- Ties to even at 2^53, gradual underflow, overflow, and a division that rounds. -/
theorem test_rounding :
    Plain.add 0x4340000000000000 0x3FF0000000000000 = 0x4340000000000000 ∧
    Plain.add 0x4340000000000001 0x3FF0000000000000 = 0x4340000000000002 ∧
    Plain.mul 0x0010000000000000 0x3FE0000000000000 = 0x0008000000000000 ∧
    Plain.mul 0x7FEFFFFFFFFFFFFF 0x4000000000000000 = 0x7FF0000000000000 ∧
    Plain.div 0x3FF0000000000000 0x4008000000000000 = 0x3FD5555555555555 := by decide +kernel

/-- A zero sum is +0.0 unless both are −0.0. -/
theorem test_zero_sums :
    Plain.add 0x8000000000000000 0x8000000000000000 = 0x8000000000000000 ∧
    Plain.sub 0x3FF0000000000000 0x3FF0000000000000 = 0 := by decide +kernel

/-- R11: the root of 9 is 3, of the smallest subnormal (2^-1074) 2^-537, and of 2 is SQRT2 (R12). -/
theorem test_sqrt :
    Plain.sqrt 0x4022000000000000 = 0x4008000000000000 ∧ Plain.sqrt 0x0000000000000001 = 0x1E60000000000000 ∧
    Plain.sqrt 0x4000000000000000 = 0x3FF6A09E667F3BCD := by decide +kernel

/-! ### The coefficient engine, where R11 fixes every library result (L2.3, corner cases) -/

/-- FC = 0, Q = 0.707, FS = 48000: codes 0, 1, 8, 19 and 21, whose library operands are all zeros. -/
theorem test_derive_at_zero_cutoff :
    [0, 1, 8, 19, 21].map (fun a => Plain.derive a 0 Fp.qDefault 0 0x40E7700000000000) =
    [⟨0, 0, 0, 0xBFF0000000000000, 0, 0x3FF0000000000000, 0⟩, ⟨0, 0, 0, 0xBFF0000000000000, 0, 0x3FF0000000000000, 0⟩,
     ⟨0x3FF0000000000000, 0xC000000000000000, 0x3FF0000000000000, 0xC000000000000000, 0x3FF0000000000000,
       0x3FF0000000000000, 0⟩,
     ⟨0xBFF0000000000000, 0x3FF0000000000000, 0, 0xBFF0000000000000, 0, 0x3FF0000000000000, 0⟩,
     ⟨0, 0, 0, 0xC000000000000000, 0x3FF0000000000000, 0x3FF0000000000000, 0⟩] := by decide +kernel

/-- L1.5: at GAIN = +0.0 both shelves mix to C0 = 0, D0 = 1. -/
theorem test_derive_shelves_at_zero_gain :
    [13, 14].map (fun a => let c := Plain.derive a 0 Fp.qDefault 0 0x40E7700000000000; (c.c0, c.d0)) =
    [(0, 0x3FF0000000000000), (0, 0x3FF0000000000000)] := by decide +kernel

/-! ### Witnesses: for each statement with hypotheses, states and operands that meet them -/

theorem toRat_zeros : toRat 0x0000000000000000 = 0 ∧ toRat 0x8000000000000000 = 0 := by
  have h : Fp.datum 0x0000000000000000 = .fin false 0 (-1074) ∧ Fp.datum 0x8000000000000000 = .fin true 0 (-1074) := by decide
  constructor
  · rw [toRat, h.1]; simp
  · rw [toRat, h.2]; simp

theorem toRat_ne_zero_iff {v : F64} (h : Fp.isFinite v = true) : toRat v ≠ 0 ↔ Fp.orderKey v ≠ 0 := by
  have z : Fp.isFinite 0x0000000000000000 = true := by decide
  have k : Fp.orderKey 0x0000000000000000 = 0 := by decide
  rw [ne_iff_lt_or_gt, ne_iff_lt_or_gt, ← toRat_zeros.1, Fp.toRat_lt_iff h z, Fp.toRat_lt_iff z h, k]

theorem toRat_pos_iff {v : F64} (h : Fp.isFinite v = true) : 0 < toRat v ↔ 0 < Fp.orderKey v := by
  have z : Fp.isFinite 0x0000000000000000 = true := by decide
  have k : Fp.orderKey 0x0000000000000000 = 0 := by decide
  rw [← toRat_zeros.1, Fp.toRat_lt_iff z h, k]

theorem abs_toRat_lt_iff {v t : F64} (hv : Fp.isFinite v = true) (ht : Fp.isFinite t = true) (hn : Fp.isFinite (Fp.neg t) = true) :
    |toRat v| < toRat t ↔ Fp.orderKey (Fp.neg t) < Fp.orderKey v ∧ Fp.orderKey v < Fp.orderKey t := by
  rw [abs_lt, ← Fp.toRat_neg ht, Fp.toRat_lt_iff hn hv, Fp.toRat_lt_iff hv ht]

theorem witness_EncodeOfDecodeIsTheWords :
    commandWellFormed [0x00000000] = true ∧ commandWellFormed [0x120000FF] = true ∧
    commandWellFormed [0x16000000, 0xFFFFFFFF, 0xFFFFFFFF] = true ∧
    commandWellFormed (0x02000000 :: List.replicate 14 0xFFFFFFFF) = true := by decide

theorem witness_OpcodeMapAndOperandAssembly :
    [0x00000000, 0x01FFFFFF, 0x02000000, 0x03FFFFFE, 0x04000001, 0x10FFFFFF, 0x11000000, 0x12FFFFFF, 0x13000000, 0x14FFFFFF,
      0x15000000, 0x16FFFFFF, 0x20000000, 0x21FFFFFF].map opcField =
    [0x00, 0x01, 0x02, 0x03, 0x04, 0x10, 0x11, 0x12, 0x13, 0x14, 0x15, 0x16, 0x20, 0x21] := by decide

theorem witness_ReservedBitsIgnored :
    opcField 0x12000003 = opcField 0x12FFFF03 ∧ immField 0x12000003 = immField 0x12FFFF03 ∧
    opcField 0xFF0000FF = opcField 0xFFFFFFFF ∧ immField 0xFF0000FF = immField 0xFFFFFFFF := by decide

/-- A command that uses no IMM8, the topology's two bits, and the two commands that take all eight. -/
theorem witness_ImmediateFieldUse :
    (opcField 0x04000000 = opcField 0x040000FF ∧ opcField 0x04000000 ≠ 0x03 ∧ opcField 0x04000000 ≠ 0x12 ∧
      opcField 0x04000000 ≠ 0x20) ∧
    (opcField 0x03000002 = opcField 0x030000FE ∧ opcField 0x03000002 = 0x03 ∧
      (0x03000002 : Word).extractLsb' 0 2 = (0x030000FE : Word).extractLsb' 0 2) ∧
    opcField 0x120000FF = 0x12 ∧ opcField 0x20000000 = 0x20 := by decide

theorem witness_StepRunsTheDecodedCommand :
    (streaming [0x12000003, 0x00000000]).rst = false ∧
    decode ((streaming [0x12000003, 0x00000000]).stream.drop (streaming [0x12000003, 0x00000000]).pos) =
      .ok (.fltSetalg 3, [0x00000000]) := by decide

/-- The ends of the three unassigned ranges. -/
theorem witness_UnassignedOpcodeSetsCmderr :
    ∀ w ∈ [0x05000000, 0x0F000000, 0x17000000, 0x1F000000, 0x22000000, 0xFFFFFFFF],
      (streaming [w]).rst = false ∧ (streaming [w]).stream.drop (streaming [w]).pos = [w] ∧
      ((0x05 ≤ (opcField w).toNat ∧ (opcField w).toNat ≤ 0x0F) ∨ (0x17 ≤ (opcField w).toNat ∧ (opcField w).toNat ≤ 0x1F) ∨
        (0x22 ≤ (opcField w).toNat ∧ (opcField w).toNat ≤ 0xFF)) := by
  simp only [List.forall_mem_cons, List.not_mem_nil, false_implies, implies_true, and_true]; decide

/-- Nothing of the command here yet, and all of it but its last word. -/
theorem witness_PartialCommandIsHeldThenExecuted :
    (State.reset.rst = false ∧ State.reset.pos ≤ State.reset.stream.length ∧ encode .nop = [] ++ [0x00000000] ∧
      State.reset.stream.drop State.reset.pos = []) ∧
    ((streaming [0x04000000, 0x00000000]).rst = false ∧
      (streaming [0x04000000, 0x00000000]).pos ≤ (streaming [0x04000000, 0x00000000]).stream.length ∧
      encode (.bqProcess 0x3FF0000000000000) = [0x04000000, 0x00000000] ++ [0x3FF00000] ∧
      (streaming [0x04000000, 0x00000000]).stream.drop (streaming [0x04000000, 0x00000000]).pos =
        [0x04000000, 0x00000000]) := by decide

theorem witness_HardwareResetRestoresRegisters : (assertRst State.reset).rst = true := by decide

theorem witness_CommandStreamRunsInOrder :
    (streaming [0x12000003, 0x20000010, 0xFF000000]).rst = false ∧
    (streaming [0x12000003, 0x20000010, 0xFF000000]).stream.drop (streaming [0x12000003, 0x20000010, 0xFF000000]).pos =
      encodeAll [.fltSetalg 3, .rdReg 0x10] ++ [0xFF000000] := by decide

theorem witness_ChannelsAreIndependent :
    (0 : Nat) ≠ 1 ∧ ([State.reset, streaming [0]] : Channels)[0]? = some State.reset ∧
    ([State.reset, streaming [0]] : Channels)[1]? = some (streaming [0]) := by decide

/-- The ends of the four unassigned ranges of register numbers. -/
theorem witness_RegisterReadback :
    ∀ n ∈ ([0x07, 0x0C, 0x0F, 0x15, 0x17, 0x1A, 0xFF] : List (BitVec 8)),
      n = 0x07 ∨ (0x0C ≤ n.toNat ∧ n.toNat ≤ 0x0F) ∨ (0x15 ≤ n.toNat ∧ n.toNat ≤ 0x17) ∨ 0x1A ≤ n.toNat := by decide

theorem witness_StatusLayout : 3 ≤ 3 ∧ 3 ≤ 63 := by decide

theorem witness_SettopoSelectsTopology : opcField 0x03000000 = 0x03 ∧ opcField 0x03FFFFFF = 0x03 := by decide

theorem witness_ProcessUnderDirect : (cdState .direct).topo = .direct := rfl
theorem witness_ProcessUnderCanonical : (cdState .canonical).topo = .canonical := rfl
theorem witness_ProcessUnderTransposeDirect : (cdState .transposeDirect).topo = .transposeDirect := rfl
theorem witness_ProcessUnderTransposeCanonical : (cdState .transposeCanonical).topo = .transposeCanonical := rfl

/-- Flushed: the smallest subnormal and the value just below T_FLUSH, both signs. Kept: T_FLUSH itself, both zeros, the largest
finite value, an infinity and a NaN. -/
theorem witness_FlushRule :
    (∀ y ∈ [0x0000000000000001, 0x8000000000000001, 0x38100000000A639A, 0xB8100000000A639A],
      Fp.isFinite y = true ∧ toRat y ≠ 0 ∧ |toRat y| < toRat Fp.tFlush) ∧
    (∀ y ∈ [0x0000000000000000, 0x8000000000000000], Fp.isFinite y = true ∧ toRat y = 0) ∧
    (∀ y ∈ [0x38100000000A639B, 0xB8100000000A639B, 0x7FEFFFFFFFFFFFFF],
      Fp.isFinite y = true ∧ toRat Fp.tFlush ≤ |toRat y|) ∧
    Fp.isFinite (Fp.infinity true) = false ∧ Fp.isFinite nanA = false := by
  have ht : Fp.isFinite Fp.tFlush = true ∧ Fp.isFinite (Fp.neg Fp.tFlush) = true := by decide
  have low : ∀ y ∈ [0x0000000000000001, 0x8000000000000001, 0x38100000000A639A, 0xB8100000000A639A],
      Fp.isFinite y = true ∧ Fp.orderKey y ≠ 0 ∧
        Fp.orderKey (Fp.neg Fp.tFlush) < Fp.orderKey y ∧ Fp.orderKey y < Fp.orderKey Fp.tFlush := by
    simp only [List.forall_mem_cons, List.not_mem_nil, false_implies, implies_true, and_true]; decide
  have high : ∀ y ∈ [0x38100000000A639B, 0xB8100000000A639B, 0x7FEFFFFFFFFFFFFF],
      Fp.isFinite y = true ∧
        ¬ (Fp.orderKey (Fp.neg Fp.tFlush) < Fp.orderKey y ∧ Fp.orderKey y < Fp.orderKey Fp.tFlush) := by
    simp only [List.forall_mem_cons, List.not_mem_nil, false_implies, implies_true, and_true]; decide
  refine ⟨fun y hy => ?_, ?_, fun y hy => ?_, by decide, by decide⟩
  · obtain ⟨h1, h2, h3⟩ := low y hy
    exact ⟨h1, (toRat_ne_zero_iff h1).2 h2, (abs_toRat_lt_iff h1 ht.1 ht.2).2 h3⟩
  · simp only [List.forall_mem_cons]
    exact ⟨⟨by decide, toRat_zeros.1⟩, ⟨by decide, toRat_zeros.2⟩, by simp⟩
  · obtain ⟨h1, h2⟩ := high y hy
    exact ⟨h1, not_lt.1 fun h => h2 ((abs_toRat_lt_iff h1 ht.1 ht.2).1 h)⟩

theorem witness_NanPersistence :
    (∀ t : Topology, ∃ s : State, s.topo = t ∧ Fp.isNaN s.hist.s1 = true ∧ Fp.isNaN s.hist.s2 = true ∧
      Fp.isNaN s.hist.s3 = true ∧ Fp.isNaN s.hist.s4 = true) ∧
    (∀ t : Topology, ∃ s : State, s.topo = t ∧ s.hist = ⟨0, nanB, 0, nanA⟩) := by
  refine ⟨fun t => ⟨{ State.reset with topo := t, hist := ⟨nanA, nanB, nanA, nanB⟩ }, rfl, ?_⟩,
    fun t => ⟨{ State.reset with topo := t, hist := ⟨0, nanB, 0, nanA⟩ }, rfl, rfl⟩⟩
  show Fp.isNaN nanA = true ∧ Fp.isNaN nanB = true ∧ Fp.isNaN nanA = true ∧ Fp.isNaN nanB = true
  decide

/-- One topology, different histories: DIRTY set in both with the same parameters, and DIRTY clear in both with the same
coefficients and different parameters. -/
theorem witness_ResetIdempotence :
    (used ≠ cdState .direct ∧ used.topo = (cdState .direct).topo ∧ used.coef = (cdState .direct).coef ∧
      used.dirty = (cdState .direct).dirty ∧ used.dirty = true ∧ used.alg = (cdState .direct).alg ∧
      used.fc = (cdState .direct).fc ∧ used.q = (cdState .direct).q ∧ used.gain = (cdState .direct).gain ∧
      used.fs = (cdState .direct).fs) ∧
    (let s : State := { used with dirty := false, fc := 0 }
     let t : State := { cdState .direct with dirty := false }
     s.topo = t.topo ∧ s.coef = t.coef ∧ s.fc ≠ t.fc ∧ s.dirty = t.dirty ∧ s.dirty = false) := by decide

/-- The ends of each range of bit patterns: +0.0, −0.0, −Infinity; the smallest positive, the last positive NaN, the first and
the last negative NaN. -/
theorem witness_SetqSubstitutesNonPositive :
    (∀ v ∈ ([0, 0x8000000000000000, 0xFFF0000000000000] : List F64),
      v.toNat = 0 ∨ (0x8000000000000000 ≤ v.toNat ∧ v.toNat ≤ 0xFFF0000000000000)) ∧
    (∀ v ∈ ([1, 0x7FFFFFFFFFFFFFFF, 0xFFF0000000000001, 0xFFFFFFFFFFFFFFFF] : List F64),
      (0 < v.toNat ∧ v.toNat < 0x8000000000000000) ∨ 0xFFF0000000000000 < v.toNat) := by
  simp only [List.forall_mem_cons, List.not_mem_nil, false_implies, implies_true, and_true]; decide

theorem witness_ProcessRecomputesAndMixes : State.reset.dirty = true ∧ settled.dirty = false := by decide

theorem witness_DirtyTracksParameterChanges :
    exec (.fltSetgain 0x8000000000000000) settled =
      .next { settled with gain := 0x8000000000000000, dirty := true } ∧
    exec .bqReset settled = .next settled ∧
    ∃ t, exec (.fltProcess 0) State.reset = .next t := ⟨rfl, rfl, _, rfl⟩

/-- DIRTY set with the first and the last unrecognized code; DIRTY clear with the set loaded, as after FLT.SETALG 29 and
FLT.PREPARE (L1.2); zero history in any topology, and a finite nonzero history in Direct and Canonical. -/
theorem witness_PassThroughIdentity :
    (∀ a ∈ ([29, 255] : List (BitVec 8)), ∀ t ∈ [Topology.transposeDirect, Topology.transposeCanonical],
      let s : State := { State.reset with alg := a, topo := t }
      s.dirty = true ∧ 29 ≤ s.alg.toNat ∧ s.hist = ⟨0, 0, 0, 0⟩) ∧
    (∀ t ∈ [Topology.direct, Topology.canonical],
      let s : State := { settled with topo := t, hist := used.hist }
      s.dirty = false ∧ s.coef = ⟨0x3FF0000000000000, 0, 0, 0, 0, 0x3FF0000000000000, 0⟩ ∧ s.topo = t ∧
        Fp.isFinite s.hist.s1 = true ∧ Fp.isFinite s.hist.s2 = true ∧ Fp.isFinite s.hist.s3 = true ∧
        Fp.isFinite s.hist.s4 = true) ∧
    Fp.isFinite 0x8000000000000000 = true ∧ Fp.isFinite 0xFFEFFFFFFFFFFFFF = true := by
  simp only [List.forall_mem_cons, List.not_mem_nil, false_implies, implies_true, and_true]; decide

theorem witness_OnlyTheseCommandsWrite :
    exec (.bqSettopo .canonical) used = .next { used with topo := .canonical } ∧
    exec .errClr used = .next { used with cmderr := false } := ⟨rfl, rfl⟩

theorem witness_ResponsesOnlyGrow :
    exec (.rdReg 0x12) State.reset = .next { State.reset with responses := [0x76C8B439, 0x3FE69FBE] } ∧
    exec .nop State.reset = .next State.reset ∧
    (step State.reset = .next State.reset ∧
      ∀ i rest, decode (State.reset.stream.drop State.reset.pos) ≠ .ok (i, rest)) := by
  refine ⟨rfl, rfl, rfl, fun i rest h => ?_⟩
  cases h

/-- Two states that differ in the bits of a NaN coefficient, a NaN history slot and a NaN response. -/
theorem witness_NanBitsDoNotSpread :
    SameState
      { streaming [0x20000000] with coef := { cd with a0 := nanA }, hist := ⟨0, nanA, 0, 0⟩, responses := operandWords nanA }
      { streaming [0x20000000] with coef := { cd with a0 := nanB }, hist := ⟨0, nanB, 0, 0⟩, responses := operandWords nanB } := by
  have h : Same nanA nanB := .inr (by decide)
  refine ⟨⟨h, .inl rfl, .inl rfl, .inl rfl, .inl rfl, .inl rfl, .inl rfl⟩, ⟨.inl rfl, h, .inl rfl, .inl rfl⟩, rfl, rfl, rfl, rfl,
    rfl, rfl, rfl, rfl, rfl, rfl, rfl, rfl, rfl, [], [nanA], [nanB], rfl, rfl, .cons h .nil⟩

/-- The reset state, and a state that holds two words of a command of three. -/
theorem witness_StepKeepsInvariant :
    (Inv State.reset ∧ step State.reset = .next State.reset) ∧
    Inv { streaming [0x04000000, 0x00000000] with received := 2 } := by
  have q : Fp.le 0x3FE69FBE76C8B439 Fp.zero = false := by decide
  exact ⟨⟨⟨q, Nat.le_refl _, rfl, fun h => absurd rfl h⟩, rfl⟩, q, Nat.le_refl _, rfl, fun _ => ⟨3, rfl⟩⟩

theorem witness_HostActionsKeepInvariant : Inv { streaming [0x04000000, 0x00000000] with received := 2 } :=
  witness_StepKeepsInvariant.2

/-- The largest finite value and a zero; a nonzero divisor, the smallest; two −0.0 whose sum is zero; a positive value and a zero
under the root. -/
theorem witness_ArithmeticIsCorrectlyRounded :
    Fp.isFinite 0x7FEFFFFFFFFFFFFF = true ∧ Fp.isFinite 0x8000000000000000 = true ∧ Fp.isFinite 0x0000000000000001 = true ∧
    toRat 0x0000000000000001 ≠ 0 ∧ toRat 0x8000000000000000 + toRat 0x8000000000000000 = 0 ∧
    toRat 0x8000000000000000 - toRat 0x8000000000000000 = 0 ∧ 0 < toRat 0x0000000000000001 ∧
    toRat 0x8000000000000000 = 0 :=
  ⟨by decide, by decide, by decide, (toRat_ne_zero_iff (by decide)).2 (by decide), by rw [toRat_zeros.2, add_zero],
    sub_self _, (toRat_pos_iff (by decide)).2 (by decide), toRat_zeros.2⟩

theorem witness_ComparisonsAreQuiet :
    Fp.isFinite 0xFFEFFFFFFFFFFFFF = true ∧ Fp.isFinite 0x0000000000000000 = true ∧ Fp.isNaN nanA = true ∧
    Fp.isNaN nanB = true := by decide

theorem witness_InfinitiesAndInvalidOperations :
    (Fp.isFinite 0x8000000000000000 = true ∧ toRat 0x8000000000000000 = 0) ∧
    (Fp.isFinite 0xC000000000000000 = true ∧ toRat 0xC000000000000000 ≠ 0) ∧
    (Fp.isFinite 0x0000000000000000 = true ∧ toRat 0x0000000000000000 = 0) ∧ Fp.isNaN nanB = true :=
  ⟨⟨by decide, toRat_zeros.2⟩, ⟨by decide, (toRat_ne_zero_iff (by decide)).2 (by decide)⟩, ⟨by decide, toRat_zeros.1⟩, by decide⟩

/-- The clauses of R11(a) to (c); then, for R11(d), finite operands, a positive one for `Log10`, and one pair for each way in which
`v ^ p` has a real value: `v` positive, `v` zero and `p` positive, `v` negative and `p` an integer. -/
theorem witness_LibraryResultsTheSpecFixes :
    ((Fp.isZero 0x0000000000000000 = true ∧ Fp.isZero 0x8000000000000000 = true) ∧
      (Fp.isFinite 0x8000000000000001 = true ∧ Fp.lt 0x8000000000000001 Fp.zero = true) ∧
      (Fp.isFinite 0xFFEFFFFFFFFFFFFF = true ∧ Fp.lt 0xFFEFFFFFFFFFFFFF Fp.zero = true) ∧ Fp.isNaN nanA = true) ∧
    (Fp.isFinite Fp.half = true ∧ 0 < toRat Fp.half) ∧
    Config.PowDefined (toRat Fp.half) (toRat 0xFFEFFFFFFFFFFFFF) ∧
    Config.PowDefined (toRat 0x8000000000000000) (toRat Fp.half) ∧
    Config.PowDefined (toRat Fp.negTwo) (toRat Fp.two) := by
  have d2 : Fp.datum Fp.two = .fin false (2 ^ 52) (-51) := by decide
  have dn : Fp.datum Fp.negTwo = .fin true (2 ^ 52) (-51) := by decide
  have e2 : toRat Fp.two = 2 := by rw [toRat, d2]; norm_num
  have en : toRat Fp.negTwo = -2 := by rw [toRat, dn]; norm_num
  have hh : 0 < toRat Fp.half := (toRat_pos_iff (by decide)).2 (by decide)
  refine ⟨by decide, ⟨by decide, hh⟩, .inl hh, .inr (.inl ⟨toRat_zeros.2, hh⟩), .inr (.inr ⟨?_, ?_⟩)⟩
  · rw [en]; norm_num
  · rw [e2]; rfl

theorem witness_UnrecognizedCodesPassThrough : 29 ≤ (29 : BitVec 8).toNat ∧ 29 ≤ (255 : BitVec 8).toNat := by decide

/-- Code 12 and, under UNITY, code 16 are not overridden; 13 and, under DOC, 16 are; both zeros of GAIN. -/
theorem witness_WetDryRule :
    let overridden (cq : CqMix) (alg : BitVec 8) : Prop := alg = 13 ∨ alg = 14 ∨ alg = 15 ∨ (alg = 16 ∧ cq = .doc)
    (¬ overridden .doc 12 ∧ ¬ overridden .unity 16 ∧ ¬ overridden .doc 17) ∧
    (overridden .doc 13 ∧ overridden .unity 15 ∧ overridden .doc 16) ∧
    Fp.isZero 0x8000000000000000 = true ∧ Fp.isZero 0 = true := by decide

theorem witness_UnlistedParametersAreNotRead :
    (0 : BitVec 8).toNat ∈ [0, 1, 2, 7, 8, 17, 18, 19, 27] ∧ (27 : BitVec 8).toNat ∈ [0, 1, 2, 7, 8, 17, 18, 19, 27] ∧
    (3 : BitVec 8).toNat ∈ [3, 4, 5, 6, 9, 10, 11, 12, 20, 21, 22, 23, 24, 25, 26, 28] ∧
    (28 : BitVec 8).toNat ∈ [3, 4, 5, 6, 9, 10, 11, 12, 20, 21, 22, 23, 24, 25, 26, 28] ∧
    (14 : BitVec 8).toNat ∈ [13, 14] ∧ 29 ≤ (255 : BitVec 8).toNat := by decide

/-- CQParaEQ's two branches: −0.0 takes the boost formula, the least negative value and a NaN the cut formula. -/
theorem witness_ShelvingFormulas :
    Fp.le Fp.zero 0x8000000000000000 = true ∧ Fp.le Fp.zero 0x8000000000000001 = false ∧ Fp.le Fp.zero nanA = false := by decide

end Sys2Proof.Tests
end

section
/-! PROOF. Binary64 values by their data: what the statements on arithmetic need to know of a value before they speak of an
operation. -/

namespace Sys2Proof.Machine

/-! ### Data (R8) -/

@[simp] theorem sgn_false : sgn false = 1 := rfl

@[simp] theorem sgn_true : sgn true = -1 := rfl

theorem sgn_ne_zero (n : Bool) : sgn n ≠ 0 := by cases n <;> simp

theorem sgn_xor (n k : Bool) : sgn (n ^^ k) = sgn n * sgn k := by cases n <;> cases k <;> simp

@[simp] theorem Fp.datum_infinity (n : Bool) : Fp.datum (Fp.infinity n) = .inf n := by cases n <;> decide

@[simp] theorem Fp.neg_infinity (n : Bool) : Fp.neg (Fp.infinity n) = Fp.infinity !n := by cases n <;> decide

/-- A finite value as its datum, its number, and the range of its significand and exponent. -/
theorem Fp.exists_datum_fin {a : F64} (h : Fp.isFinite a = true) :
    ∃ m e, Fp.datum a = .fin a.msb m e ∧ toRat a = sgn a.msb * m * 2 ^ e ∧ m < 2 ^ 53 ∧ -1074 ≤ e ∧ e ≤ 971 := by
  obtain ⟨m, e, hd, hr⟩ := Fp.datum_of_isFinite h
  refine ⟨m, e, hd, hr, ?_⟩
  have hfrac : Fp.fracField a < 2 ^ 52 := Nat.mod_lt _ (by decide)
  have hexp : Fp.expField a < 2 ^ 11 := Nat.mod_lt _ (by decide)
  have hne : Fp.expField a ≠ 2047 := by simpa [Fp.isFinite] using h
  unfold Fp.datum at hd
  rw [if_neg hne] at hd
  split at hd
  · injection hd with _ hm he
    omega
  · injection hd with _ hm he
    omega

/-- The number of a finite value whose datum is known. -/
theorem Fp.toRat_of_datum {v : F64} {neg : Bool} {m : ℕ} {e : ℤ} (h : Fp.datum v = .fin neg m e) :
    toRat v = sgn neg * m * 2 ^ e := by
  rw [toRat, h, sgn]

theorem Fp.toRat_eq_zero_iff {v : F64} {n : Bool} {m : ℕ} {e : ℤ} (h : Fp.datum v = .fin n m e) : toRat v = 0 ↔ m = 0 := by
  have h2 : (2 : ℚ) ^ e ≠ 0 := zpow_ne_zero _ two_ne_zero
  rw [Fp.toRat_of_datum h]
  simp [sgn_ne_zero, h2]

/-- A finite value whose number is zero is the zero of its sign. -/
theorem Fp.eq_signedZero {v : F64} (h : Fp.isFinite v = true) (h0 : toRat v = 0) : v = Fp.signedZero v.msb := by
  rw [Fp.toRat_eq h, mul_eq_zero, or_iff_right (sgn_ne_zero _)] at h0
  have hmag : v.toNat % 2 ^ 63 = 0 := by
    by_contra hne
    have := magVal_lt (Nat.pos_of_ne_zero hne)
    rw [h0, magVal_zero] at this
    exact lt_irrefl _ this
  conv_lhs => rw [← Fp.pack_self v, hmag]
  rfl

@[simp] theorem Fp.toRat_signedZero (n : Bool) : toRat (Fp.signedZero n) = 0 := by
  rw [Fp.signedZero, Fp.toRat_pack n (by decide), magVal_zero, mul_zero]

@[simp] theorem Fp.msb_signedZero (n : Bool) : (Fp.signedZero n).msb = n := Fp.signBit_pack n (by decide)

@[simp] theorem Fp.msb_neg (v : F64) : (Fp.neg v).msb = !v.msb := by
  obtain ⟨-, hsign, -⟩ := Fp.neg_parts v
  exact hsign

/-! ### Zeros -/

section

variable {z : F64} (hz : Fp.isZero z = true)
include hz

theorem Fp.isFinite_of_isZero : Fp.isFinite z = true := by
  have hmag : z.toNat % 2 ^ 63 = 0 := by simpa [Fp.isZero] using hz
  have hexp : Fp.expField z ≠ 2047 := by unfold Fp.expField; omega
  simp [Fp.isFinite, hexp]

theorem Fp.toRat_of_isZero : toRat z = 0 := by
  have hmag : z.toNat % 2 ^ 63 = 0 := by simpa [Fp.isZero] using hz
  rw [Fp.toRat_eq (Fp.isFinite_of_isZero hz), hmag, magVal_zero, mul_zero]

theorem Fp.isNaN_of_isZero : Fp.isNaN z = false := Fp.isNaN_of_isFinite (Fp.isFinite_of_isZero hz)

end

/-! ### Literals (R12) -/

theorem Fp.toRat_one : toRat Fp.one = 1 := by
  have hd : Fp.datum Fp.one = .fin false (2 ^ 52) (-52) := by decide
  rw [Fp.toRat_of_datum hd]
  norm_num

theorem Fp.toRat_half : toRat Fp.half = 1 / 2 := by
  have hd : Fp.datum Fp.half = .fin false (2 ^ 52) (-53) := by decide
  rw [Fp.toRat_of_datum hd]
  norm_num

theorem Fp.toRat_ten : toRat Fp.ten = 10 := by
  have hd : Fp.datum Fp.ten = .fin false (5 * 2 ^ 50) (-49) := by decide
  rw [Fp.toRat_of_datum hd]
  norm_num

end Sys2Proof.Machine
end

section
/-! PROOF. Addition, subtraction, multiplication, division and the square root are correctly rounded (R9 to R11). -/

namespace Sys2Proof.Machine

/-! ### Rounding of exact results (R9, R10) -/

/-- Either zero is the rounding of an exact zero. -/
theorem CorrectlyRounded.signedZero (n : Bool) : CorrectlyRounded 0 (Fp.signedZero n) := by
  have hfin : Fp.isFinite (Fp.signedZero n) = true := Fp.isFinite_pack n (by decide)
  refine ⟨Fp.isNaN_of_isFinite hfin, ?_, ?_, fun _ v _ => ?_, fun h => absurd rfl h⟩
  · have : (0 : ℚ) < 2 ^ 1024 - 2 ^ 970 := lt_of_le_of_lt (abs_nonneg _) (Fp.abs_toRat_lt hfin)
    rw [hfin, abs_zero]
    exact iff_of_false (by simp) (not_le.2 this)
  · rw [hfin]
    intro h
    cases h
  · rw [Fp.toRat_signedZero, sub_self, abs_zero, zero_sub, abs_neg]
    exact ⟨abs_nonneg _, fun h => .inl (abs_eq_zero.1 h.symm)⟩

/-- `roundRatio` gives the sign it is asked for, also where it underflows or overflows. -/
@[simp] theorem Fp.msb_roundRatio (n : Bool) (num den : ℕ) (exp : ℤ) : (Fp.roundRatio n num den exp).msb = n :=
  Fp.signBit_pack n (lt_of_le_of_lt (min_le_right _ _) (by decide))

/-! ### Sums -/

/-- A term brought to a smaller exponent. -/
theorem signedInt_shiftLeft (n : Bool) (m : ℕ) {e f : ℤ} (h : e ≤ f) :
    (Fp.signedInt n (m <<< (f - e).toNat) : ℚ) * 2 ^ e = sgn n * m * 2 ^ f := by
  obtain ⟨k, rfl⟩ : ∃ k : ℕ, f = k + e := ⟨(f - e).toNat, by omega⟩
  rw [add_sub_cancel_right, Int.toNat_natCast, Nat.shiftLeft_eq, zpow_add₀ two_ne_zero, zpow_natCast]
  cases n <;> simp [Fp.signedInt] <;> ring

/-- A nonzero integer multiple of a power of two, rounded. -/
theorem CorrectlyRounded.roundRatio_int {z : ℤ} (hz : z ≠ 0) (e : ℤ) :
    CorrectlyRounded (z * 2 ^ e) (Fp.roundRatio (decide (z < 0)) z.natAbs 1 e) := by
  have habs : sgn (decide (z < 0)) * (z.natAbs : ℚ) = z := by
    rcases lt_or_ge z 0 with h | h
    · rw [decide_eq_true h, sgn_true, Nat.cast_natAbs, abs_of_neg h]
      push_cast
      ring
    · rw [decide_eq_false (not_lt.2 h), sgn_false, Nat.cast_natAbs, abs_of_nonneg h, one_mul]
  have hround := roundRatio_correct (decide (z < 0)) (num := z.natAbs) (den := 1) (by omega) one_pos e
  rwa [Nat.cast_one, div_one, ← mul_assoc, habs] at hround

/-- The sum of two finite values is correctly rounded, and an exact zero is −0.0 only where both terms are negative (R9). -/
theorem Fp.addCore_correct {a b : F64} (ha : Fp.isFinite a = true) (hb : Fp.isFinite b = true) :
    ∃ r, Fp.addCore a b = some r ∧ CorrectlyRounded (toRat a + toRat b) r ∧
      (toRat a + toRat b = 0 → r = Fp.signedZero (a.msb && b.msb)) := by
  obtain ⟨m, e, hda, hra, -⟩ := Fp.exists_datum_fin ha
  obtain ⟨k, f, hdb, hrb, -⟩ := Fp.exists_datum_fin hb
  simp only [Fp.addCore, hda, hdb]
  generalize hz : Fp.signedInt a.msb (m <<< (e - min e f).toNat) + Fp.signedInt b.msb (k <<< (f - min e f).toNat) = z
  have hsum : toRat a + toRat b = z * 2 ^ min e f := by
    rw [← hz, hra, hrb, Int.cast_add, add_mul, signedInt_shiftLeft _ _ (min_le_left e f),
      signedInt_shiftLeft _ _ (min_le_right e f)]
  rw [hsum]
  by_cases h0 : z = 0
  · rw [if_pos h0, h0, Int.cast_zero, zero_mul]
    exact ⟨_, rfl, .signedZero _, fun _ => rfl⟩
  · rw [if_neg h0]
    refine ⟨_, rfl, .roundRatio_int h0 _, fun h => absurd h ?_⟩
    exact mul_ne_zero (Int.cast_ne_zero.2 h0) (zpow_ne_zero _ two_ne_zero)

/-- A difference is the sum with the negated value. -/
theorem Fp.subCore_correct {a b : F64} (ha : Fp.isFinite a = true) (hb : Fp.isFinite b = true) :
    ∃ r, Fp.subCore a b = some r ∧ CorrectlyRounded (toRat a - toRat b) r ∧
      (toRat a - toRat b = 0 → r = Fp.signedZero (a.msb && !b.msb)) := by
  have hneg : Fp.isFinite (Fp.neg b) = true := (Fp.neg_parts b).1.trans hb
  have h := Fp.addCore_correct ha hneg
  rwa [Fp.toRat_neg hb, Fp.msb_neg, ← sub_eq_add_neg] at h

/-! ### Products and quotients -/

/-- The product of two finite values is correctly rounded, with the sign of its operands' signs (R9). -/
theorem Fp.mulCore_correct {a b : F64} (ha : Fp.isFinite a = true) (hb : Fp.isFinite b = true) :
    ∃ r, Fp.mulCore a b = some r ∧ CorrectlyRounded (toRat a * toRat b) r ∧ r.msb = (a.msb ^^ b.msb) := by
  obtain ⟨m, e, hda, hra, -⟩ := Fp.exists_datum_fin ha
  obtain ⟨k, f, hdb, hrb, -⟩ := Fp.exists_datum_fin hb
  have hprod : toRat a * toRat b = sgn (a.msb ^^ b.msb) * (((m * k : ℕ) : ℚ) / (1 : ℕ) * 2 ^ (e + f)) := by
    rw [hra, hrb, sgn_xor, zpow_add₀ two_ne_zero]
    push_cast
    ring
  simp only [Fp.mulCore, hda, hdb]
  by_cases h0 : m * k = 0
  · rw [if_pos h0, hprod, h0]
    exact ⟨_, rfl, by simpa using CorrectlyRounded.signedZero _, Fp.msb_signedZero _⟩
  · rw [if_neg h0, hprod]
    exact ⟨_, rfl, roundRatio_correct _ (Nat.pos_of_ne_zero h0) one_pos _, Fp.msb_roundRatio ..⟩

/-- The quotient of a finite value by a nonzero one is correctly rounded, with the sign of its operands' signs (R9). -/
theorem Fp.divCore_correct {a b : F64} (ha : Fp.isFinite a = true) (hb : Fp.isFinite b = true) (hb0 : toRat b ≠ 0) :
    ∃ r, Fp.divCore a b = some r ∧ CorrectlyRounded (toRat a / toRat b) r ∧ r.msb = (a.msb ^^ b.msb) := by
  obtain ⟨m, e, hda, hra, -⟩ := Fp.exists_datum_fin ha
  obtain ⟨k, f, hdb, hrb, -⟩ := Fp.exists_datum_fin hb
  have hk : k ≠ 0 := mt (Fp.toRat_eq_zero_iff hdb).2 hb0
  have hquot : toRat a / toRat b = sgn (a.msb ^^ b.msb) * ((m : ℚ) / k * 2 ^ (e - f)) := by
    have hinv : (sgn b.msb)⁻¹ = sgn b.msb := inv_eq_of_mul_eq_one_left (sgn_mul_self _)
    rw [hra, hrb, sgn_xor, zpow_sub₀ two_ne_zero, mul_div_mul_comm, mul_div_mul_comm, div_eq_mul_inv (sgn a.msb), hinv]
    ring
  simp only [Fp.divCore, hda, hdb, if_neg hk]
  by_cases h0 : m = 0
  · rw [if_pos h0, hquot, h0]
    exact ⟨_, rfl, by simpa using CorrectlyRounded.signedZero _, Fp.msb_signedZero _⟩
  · rw [if_neg h0, hquot]
    exact ⟨_, rfl, roundRatio_correct _ (Nat.pos_of_ne_zero h0) (Nat.pos_of_ne_zero hk) _, Fp.msb_roundRatio ..⟩

/-! ### Roots -/

/-- The root of a positive value is correctly rounded: its datum is in the range that `roundRatio_sqrt` asks for (R11). -/
theorem Fp.sqrtCore_correct {v : F64} (hv : Fp.isFinite v = true) (hpos : 0 < toRat v) :
    ∃ r, Fp.sqrtCore v = some r ∧ RootCorrectlyRounded (toRat v) r := by
  obtain ⟨m, e, hd, hr, hm, he1, he2⟩ := Fp.exists_datum_fin hv
  have hm0 : m ≠ 0 := mt (Fp.toRat_eq_zero_iff hd).2 hpos.ne'
  have hsign : v.msb = false := by
    by_contra hneg
    have hnum : (0 : ℚ) ≤ m * 2 ^ e := by positivity
    rw [hr, Bool.eq_true_of_not_eq_false hneg, sgn_true] at hpos
    linarith
  rw [hsign] at hd hr
  rw [hr, sgn_false, one_mul]
  simp only [Fp.sqrtCore, hd, if_neg hm0, Bool.false_eq_true, if_false]
  exact ⟨_, rfl, roundRatio_sqrt m e (Nat.pos_of_ne_zero hm0) hm he1 he2⟩

/-- The root of a zero is that zero (log entry 17). -/
theorem Fp.sqrtCore_zero {v : F64} (hv : Fp.isFinite v = true) (h0 : toRat v = 0) : Fp.sqrtCore v = some v := by
  obtain ⟨m, e, hd, -⟩ := Fp.exists_datum_fin hv
  have hm0 : m = 0 := (Fp.toRat_eq_zero_iff hd).1 h0
  simp only [Fp.sqrtCore, hd, if_pos hm0]
  rw [← Fp.eq_signedZero hv h0]

/-- Settles O44, one lemma per operation; each comes down to `roundRatio_correct` or `roundRatio_sqrt`. -/
theorem arithmeticIsCorrectlyRounded : Obligations.ArithmeticIsCorrectlyRounded :=
  ⟨fun _ _ ha hb => ⟨Fp.addCore_correct ha hb, Fp.subCore_correct ha hb, Fp.mulCore_correct ha hb, Fp.divCore_correct ha hb⟩,
    fun _ hv => ⟨Fp.sqrtCore_correct hv, Fp.sqrtCore_zero hv⟩⟩

end Sys2Proof.Machine
end

section
/-! PROOF. Comparisons, infinities and invalid operations (R9, R10). -/

namespace Sys2Proof.Machine

/-! ### Comparisons (R9) -/

/-- A comparison with a NaN is false. -/
theorem Fp.compare_nan {a b : F64} (h : Fp.isNaN a = true ∨ Fp.isNaN b = true) :
    Fp.lt a b = false ∧ Fp.le a b = false ∧ Fp.feq a b = false := by
  rcases h with h | h <;> simp [Fp.lt, Fp.le, Fp.feq, h]

section

variable {a b : F64} (ha : Fp.isFinite a = true) (hb : Fp.isFinite b = true)
include ha hb

theorem Fp.lt_iff_toRat : Fp.lt a b = true ↔ toRat a < toRat b := by
  simp [Fp.lt, Fp.isNaN_of_isFinite ha, Fp.isNaN_of_isFinite hb, Fp.toRat_lt_iff ha hb]

theorem Fp.le_iff_toRat : Fp.le a b = true ↔ toRat a ≤ toRat b := by
  rw [← not_lt, Fp.toRat_lt_iff hb ha, not_lt]
  simp [Fp.le, Fp.isNaN_of_isFinite ha, Fp.isNaN_of_isFinite hb]

theorem Fp.feq_iff_toRat : Fp.feq a b = true ↔ toRat a = toRat b := by
  have hfeq : Fp.feq a b = true ↔ Fp.le a b = true ∧ Fp.le b a = true := by
    simp [Fp.feq, Fp.le, Fp.isNaN_of_isFinite ha, Fp.isNaN_of_isFinite hb, Int.le_antisymm_iff]
  rw [hfeq, Fp.le_iff_toRat ha hb, Fp.le_iff_toRat hb ha, le_antisymm_iff]

end

/-- Every finite value lies strictly between the infinities. -/
theorem Fp.lt_infinity {a : F64} (ha : Fp.isFinite a = true) :
    Fp.lt a (Fp.infinity false) = true ∧ Fp.lt (Fp.infinity true) a = true := by
  have hmag := Fp.magnitude_lt ha
  have hkey : -(Fp.infMagnitude : ℤ) < Fp.orderKey a ∧ Fp.orderKey a < Fp.infMagnitude := by
    unfold Fp.orderKey Fp.signedInt
    split <;> omega
  have hpos : Fp.orderKey (Fp.infinity false) = Fp.infMagnitude := by decide
  have hneg : Fp.orderKey (Fp.infinity true) = -Fp.infMagnitude := by decide
  have hnan : ∀ n, Fp.isNaN (Fp.infinity n) = false := fun n => Fp.isNaN_pack_of_le n le_rfl
  simp [Fp.lt, Fp.isNaN_of_isFinite ha, hnan, hpos, hneg, hkey]

/-- Settles O45: finite values by `orderKey`, which orders them as their numbers do. -/
theorem comparisonsAreQuiet : Obligations.ComparisonsAreQuiet :=
  ⟨fun _ _ ha hb => ⟨Fp.lt_iff_toRat ha hb, Fp.le_iff_toRat ha hb, Fp.feq_iff_toRat ha hb⟩, fun _ _ => Fp.compare_nan,
    fun _ => Fp.lt_infinity, by decide⟩

/-! ### Infinities and invalid operations (R10) -/

/-- An operation on a NaN has a NaN result. -/
theorem Fp.arith_nan {a b : F64} (h : Fp.isNaN a = true ∨ Fp.isNaN b = true) :
    Fp.addCore a b = none ∧ Fp.subCore a b = none ∧ Fp.mulCore a b = none ∧ Fp.divCore a b = none := by
  unfold Fp.subCore Fp.addCore Fp.mulCore Fp.divCore
  rcases h with h | h
  · simp [Fp.datum_of_isNaN h]
  · have hn := Fp.datum_of_isNaN ((Fp.isNaN_neg b).trans h)
    rw [Fp.datum_of_isNaN h, hn]
    cases Fp.datum a <;> exact ⟨rfl, rfl, rfl, rfl⟩

/-- The sum and the difference of two infinities. -/
theorem Fp.add_sub_infinities (s : Bool) :
    Fp.addCore (Fp.infinity s) (Fp.infinity s) = some (Fp.infinity s) ∧
    Fp.addCore (Fp.infinity s) (Fp.infinity !s) = none ∧
    Fp.subCore (Fp.infinity s) (Fp.infinity !s) = some (Fp.infinity s) ∧
    Fp.subCore (Fp.infinity s) (Fp.infinity s) = none := by
  simp [Fp.subCore, Fp.addCore]

theorem Fp.mul_div_infinities (s t : Bool) :
    Fp.mulCore (Fp.infinity s) (Fp.infinity t) = some (Fp.infinity (s ^^ t)) ∧
    Fp.divCore (Fp.infinity s) (Fp.infinity t) = none := by
  simp [Fp.mulCore, Fp.divCore]

section

variable (s : Bool) {v z : F64} (hv : Fp.isFinite v = true)
include hv

/-- An infinity absorbs a finite term on either side. -/
theorem Fp.add_infinity_finite :
    Fp.addCore (Fp.infinity s) v = some (Fp.infinity s) ∧ Fp.addCore v (Fp.infinity s) = some (Fp.infinity s) := by
  obtain ⟨m, e, hd, -⟩ := Fp.exists_datum_fin hv
  simp [Fp.addCore, hd]

theorem Fp.sub_infinity_finite :
    Fp.subCore (Fp.infinity s) v = some (Fp.infinity s) ∧ Fp.subCore v (Fp.infinity s) = some (Fp.infinity !s) := by
  have hneg : Fp.isFinite (Fp.neg v) = true := (Fp.neg_parts v).1.trans hv
  refine ⟨(Fp.add_infinity_finite s hneg).1, ?_⟩
  rw [Fp.subCore, Fp.neg_infinity]
  exact (Fp.add_infinity_finite (!s) hv).2

theorem Fp.mul_infinity_zero (h0 : toRat v = 0) :
    Fp.mulCore (Fp.infinity s) v = none ∧ Fp.mulCore v (Fp.infinity s) = none := by
  obtain ⟨m, e, hd, -⟩ := Fp.exists_datum_fin hv
  have hm : m = 0 := (Fp.toRat_eq_zero_iff hd).1 h0
  simp [Fp.mulCore, hd, hm]

theorem Fp.mul_infinity_nonzero (h0 : toRat v ≠ 0) :
    Fp.mulCore (Fp.infinity s) v = some (Fp.infinity (s ^^ v.msb)) ∧
      Fp.mulCore v (Fp.infinity s) = some (Fp.infinity (v.msb ^^ s)) := by
  obtain ⟨m, e, hd, -⟩ := Fp.exists_datum_fin hv
  have hm : m ≠ 0 := mt (Fp.toRat_eq_zero_iff hd).2 h0
  simp [Fp.mulCore, hd, hm]

theorem Fp.div_infinity_finite :
    Fp.divCore (Fp.infinity s) v = some (Fp.infinity (s ^^ v.msb)) ∧
      Fp.divCore v (Fp.infinity s) = some (Fp.signedZero (v.msb ^^ s)) := by
  obtain ⟨m, e, hd, -⟩ := Fp.exists_datum_fin hv
  simp [Fp.divCore, hd]

/-- A quotient by a zero: an infinity of a nonzero value, invalid of a zero. -/
theorem Fp.divCore_zero (hz : Fp.isFinite z = true) (hz0 : toRat z = 0) :
    Fp.divCore v z = if toRat v = 0 then none else some (Fp.infinity (v.msb ^^ z.msb)) := by
  obtain ⟨m, e, hd, -⟩ := Fp.exists_datum_fin hv
  obtain ⟨k, f, hdz, -⟩ := Fp.exists_datum_fin hz
  have hk : k = 0 := (Fp.toRat_eq_zero_iff hdz).1 hz0
  simp [Fp.divCore, hd, hdz, hk, Fp.toRat_eq_zero_iff hd]

end

/-- Settles O46, by the data of the operands. -/
theorem infinitiesAndInvalidOperations : Obligations.InfinitiesAndInvalidOperations := by
  refine ⟨Fp.add_sub_infinities, Fp.mul_div_infinities, fun s v hv => ?_, fun z w hz hz0 hw hw0 => ?_, fun _ _ => Fp.arith_nan⟩
  · obtain ⟨hadd, hadd'⟩ := Fp.add_infinity_finite s hv
    obtain ⟨hsub, hsub'⟩ := Fp.sub_infinity_finite s hv
    refine ⟨hadd, hadd', hsub, hsub', Fp.mul_infinity_zero s hv, fun h0 => ?_, Fp.div_infinity_finite s hv⟩
    obtain ⟨hmul, hmul'⟩ := Fp.mul_infinity_nonzero s hv h0
    exact ⟨hmul, hmul', fun z hz hz0 => by rw [Fp.divCore_zero hv hz hz0, if_neg h0]⟩
  · rw [Fp.divCore_zero hz hw hw0, if_pos hz0]

end Sys2Proof.Machine
end

section
/-! PROOF. The library results that the spec fixes (R11) and the named constants (R12). -/

namespace Sys2Proof.Machine

/-! ### Library results (R11) -/

section

variable {z : F64} (hz : Fp.isZero z = true)
include hz

/-! The results at a zero operand (R11(a), (b)). -/

theorem Fp.sinCore_zero : Fp.sinCore z = some z := by simp [Fp.sinCore, hz, Fp.isNaN_of_isZero hz]

theorem Fp.tanCore_zero : Fp.tanCore z = some z := by simp [Fp.tanCore, hz, Fp.isNaN_of_isZero hz]

theorem Fp.cosCore_zero : Fp.cosCore z = some Fp.one := by simp [Fp.cosCore, hz, Fp.isNaN_of_isZero hz]

theorem Fp.expCore_zero : Fp.expCore z = some Fp.one := by simp [Fp.expCore, hz, Fp.isNaN_of_isZero hz]

theorem Fp.powCore_ten_zero : Fp.powCore Fp.ten z = some Fp.one := by
  have hten : Fp.isNaN Fp.ten = false := by decide
  simp [Fp.powCore, hz, Fp.isNaN_of_isZero hz, hten]

end

/-- The square root function has a NaN result at a negative finite value (R11(a)). -/
theorem Fp.powCore_negative_half {v : F64} (hv : Fp.isFinite v = true) (hneg : Fp.lt v Fp.zero = true) :
    Fp.powCore v Fp.half = none := by
  have hhalf : Fp.isNaN Fp.half = false := by decide
  have hne : Fp.isZero Fp.half = false := by decide
  simp [Fp.powCore, Fp.isNaN_of_isFinite hv, hv, hneg, hhalf, hne]

/-- Every function of a NaN has a NaN result (R11(c)). -/
theorem Fp.library_nan {v : F64} (p : F64) (h : Fp.isNaN v = true) :
    Fp.sinCore v = none ∧ Fp.cosCore v = none ∧ Fp.tanCore v = none ∧ Fp.expCore v = none ∧ Fp.coshCore v = none ∧
      Fp.log10Core v = none ∧ Fp.sqrtCore v = none ∧ Fp.powCore v p = none ∧ Fp.powCore p v = none := by
  simp [Fp.sinCore, Fp.cosCore, Fp.tanCore, Fp.expCore, Fp.coshCore, Fp.log10Core, Fp.sqrtCore, Fp.powCore, h]

/-! #### The stated accuracy (R11(d)) -/

/-- An exact result is within any accuracy. -/
theorem Fp.within_exact {x : ℝ} {r : F64} (n : ℕ) (hr : Fp.isFinite r = true) (h : ((toRat r : ℚ) : ℝ) = x) :
    Config.Within n x r := by
  refine ⟨hr, ?_⟩
  rw [h, sub_self, abs_zero]
  positivity

section

variable {v p : F64} (hv : Fp.isFinite v = true)
include hv

theorem Fp.sinCore_within :
    ∃ r, Fp.sinCore v = some r ∧ Config.Within Config.mathLib.accuracy (Real.sin (toRat v)) r := by
  obtain ⟨hlib, -⟩ := Config.mathLib_accurate.1 v hv
  by_cases hz : Fp.isZero v = true
  · exact ⟨v, Fp.sinCore_zero hz, Fp.within_exact _ hv (by simp [Fp.toRat_of_isZero hz])⟩
  · exact ⟨_, by simp [Fp.sinCore, Fp.isNaN_of_isFinite hv, hz, Fp.ofLib_within hlib], hlib⟩

theorem Fp.cosCore_within :
    ∃ r, Fp.cosCore v = some r ∧ Config.Within Config.mathLib.accuracy (Real.cos (toRat v)) r := by
  obtain ⟨-, hlib, -⟩ := Config.mathLib_accurate.1 v hv
  by_cases hz : Fp.isZero v = true
  · exact ⟨_, Fp.cosCore_zero hz, Fp.within_exact _ (by decide) (by simp [Fp.toRat_of_isZero hz, Fp.toRat_one])⟩
  · exact ⟨_, by simp [Fp.cosCore, Fp.isNaN_of_isFinite hv, hz, Fp.ofLib_within hlib], hlib⟩

theorem Fp.tanCore_within :
    ∃ r, Fp.tanCore v = some r ∧ Config.Within Config.mathLib.accuracy (Real.tan (toRat v)) r := by
  obtain ⟨-, -, hlib, -⟩ := Config.mathLib_accurate.1 v hv
  by_cases hz : Fp.isZero v = true
  · exact ⟨v, Fp.tanCore_zero hz, Fp.within_exact _ hv (by simp [Fp.toRat_of_isZero hz])⟩
  · exact ⟨_, by simp [Fp.tanCore, Fp.isNaN_of_isFinite hv, hz, Fp.ofLib_within hlib], hlib⟩

theorem Fp.expCore_within :
    ∃ r, Fp.expCore v = some r ∧ Config.WithinOrOverflow Config.mathLib.accuracy (Real.exp (toRat v)) r := by
  obtain ⟨-, -, -, hlib, -⟩ := Config.mathLib_accurate.1 v hv
  by_cases hz : Fp.isZero v = true
  · exact ⟨_, Fp.expCore_zero hz, .inl (Fp.within_exact _ (by decide) (by simp [Fp.toRat_of_isZero hz, Fp.toRat_one]))⟩
  · have hinf : v ≠ Fp.infinity true := by
      rintro rfl
      simp [Fp.isFinite_infinity] at hv
    exact ⟨_, by simp [Fp.expCore, Fp.isNaN_of_isFinite hv, hz, hinf, Fp.ofLib_withinOrOverflow hlib], hlib⟩

theorem Fp.coshCore_within :
    ∃ r, Fp.coshCore v = some r ∧ Config.WithinOrOverflow Config.mathLib.accuracy (Real.cosh (toRat v)) r := by
  obtain ⟨-, -, -, -, hlib, -⟩ := Config.mathLib_accurate.1 v hv
  exact ⟨_, by simp [Fp.coshCore, Fp.isNaN_of_isFinite hv, Fp.ofLib_withinOrOverflow hlib], hlib⟩

theorem Fp.log10Core_within (hpos : 0 < toRat v) :
    ∃ r, Fp.log10Core v = some r ∧ Config.Within Config.mathLib.accuracy (Real.logb 10 (toRat v)) r := by
  obtain ⟨-, -, -, -, -, hlib⟩ := Config.mathLib_accurate.1 v hv
  exact ⟨_, by simp [Fp.log10Core, Fp.isNaN_of_isFinite hv, Fp.ofLib_within (hlib hpos)], hlib hpos⟩

/-- No negative value has a real square root. -/
theorem Fp.not_powDefined_negative_half (hneg : Fp.lt v Fp.zero = true) :
    ¬ Config.PowDefined (toRat v) (toRat Fp.half) := by
  have hlt : toRat v < 0 := by
    have := (Fp.lt_iff_toRat hv (by decide)).1 hneg
    rwa [Fp.toRat_of_isZero (z := Fp.zero) (by decide)] at this
  have hden : (1 / 2 : ℚ).den ≠ 1 := by norm_num
  rw [Fp.toRat_half]
  rintro (h | ⟨h, -⟩ | ⟨-, h⟩)
  · exact absurd h (not_lt.2 hlt.le)
  · exact absurd h hlt.ne
  · exact hden h

theorem Fp.powCore_within (hp : Fp.isFinite p = true) (hdef : Config.PowDefined (toRat v) (toRat p)) :
    ∃ r, Fp.powCore v p = some r ∧
      Config.WithinOrOverflow Config.mathLib.accuracy (((toRat v : ℚ) : ℝ) ^ ((toRat p : ℚ) : ℝ)) r := by
  have hlib := Config.mathLib_accurate.2 v p hv hp hdef
  by_cases hten : v = Fp.ten ∧ Fp.isZero p = true
  · obtain ⟨rfl, hz⟩ := hten
    exact ⟨_, Fp.powCore_ten_zero hz, .inl (Fp.within_exact _ (by decide) (by simp [Fp.toRat_of_isZero hz, Fp.toRat_one]))⟩
  have hroot : ¬ (p = Fp.half ∧ Fp.lt v Fp.zero = true) := by
    rintro ⟨rfl, hneg⟩
    exact Fp.not_powDefined_negative_half hv hneg hdef
  by_cases hzero : p = Fp.half ∧ v = Fp.zero
  · obtain ⟨rfl, rfl⟩ := hzero
    refine ⟨Fp.zero, by decide, .inl (Fp.within_exact _ (by decide) ?_)⟩
    simp [Fp.toRat_of_isZero (z := Fp.zero) (by decide), Fp.toRat_half]
  · refine ⟨_, ?_, hlib⟩
    simp only [Fp.powCore, Fp.isNaN_of_isFinite hv, Fp.isNaN_of_isFinite hp, hv, Fp.ofLib_withinOrOverflow hlib, Bool.or_self,
      Bool.and_true, Bool.and_eq_true, decide_eq_true_eq, Bool.false_eq_true, if_false]
    rw [if_neg hten, if_neg hroot, if_neg hzero]

end

/-! #### From a free-value index -/

theorem Fp.eval_settle_of_eq_some {c : Option F64} {r : F64} (h : c = some r) (n : ℕ) : (Fp.eval (Fp.settle c) n).1 = r := by
  rw [h, Fp.eval_settle, Option.getD_some]

theorem Fp.isNaN_eval_settle {c : Option F64} (h : c = none) (n : ℕ) : Fp.isNaN (Fp.eval (Fp.settle c) n).1 = true := by
  rw [h, Fp.eval_settle, Option.getD_none, Fp.isNaN_nanOf]

theorem Fp.eval_settle_of_exists {c : Option F64} {P : F64 → Prop} (h : ∃ r, c = some r ∧ P r) (n : ℕ) :
    P (Fp.eval (Fp.settle c) n).1 := by
  obtain ⟨r, hc, hr⟩ := h
  rwa [Fp.eval_settle_of_eq_some hc]

/-- Settles O48: each call gives a fixed value, a NaN result, or a library value that meets R11(d). -/
theorem libraryResultsTheSpecFixes : Obligations.LibraryResultsTheSpecFixes := by
  intro n
  refine ⟨fun z hz => ?_, Fp.eval_settle_of_eq_some (by decide) n, Fp.eval_settle_of_eq_some (by decide) n,
    fun v hv hneg => Fp.isNaN_eval_settle (Fp.powCore_negative_half hv hneg) n, fun v p hv => ?_, fun v hv => ?_,
    fun v p hv hp hdef => Fp.eval_settle_of_exists (Fp.powCore_within hv hp hdef) n⟩
  · exact ⟨Fp.eval_settle_of_eq_some (Fp.powCore_ten_zero hz) n, Fp.eval_settle_of_eq_some (Fp.sinCore_zero hz) n,
      Fp.eval_settle_of_eq_some (Fp.tanCore_zero hz) n, Fp.eval_settle_of_eq_some (Fp.cosCore_zero hz) n,
      Fp.eval_settle_of_eq_some (Fp.expCore_zero hz) n⟩
  · obtain ⟨hsin, hcos, htan, hexp, hcosh, hlog, hsqrt, hpow, hpow'⟩ := Fp.library_nan p hv
    exact ⟨Fp.isNaN_eval_settle hsin n, Fp.isNaN_eval_settle hcos n, Fp.isNaN_eval_settle htan n,
      Fp.isNaN_eval_settle hexp n, Fp.isNaN_eval_settle hcosh n, Fp.isNaN_eval_settle hlog n,
      Fp.isNaN_eval_settle hsqrt n, Fp.isNaN_eval_settle hpow n, Fp.isNaN_eval_settle hpow' n⟩
  · exact ⟨Fp.eval_settle_of_exists (Fp.sinCore_within hv) n, Fp.eval_settle_of_exists (Fp.cosCore_within hv) n,
      Fp.eval_settle_of_exists (Fp.tanCore_within hv) n, Fp.eval_settle_of_exists (Fp.expCore_within hv) n,
      Fp.eval_settle_of_exists (Fp.coshCore_within hv) n,
      fun hpos => Fp.eval_settle_of_exists (Fp.log10Core_within hv hpos) n⟩

/-! ### Named constants (R12) -/

theorem Fp.toRat_literals :
    [Fp.zero, Fp.quarter, Fp.half, Fp.negHalf, Fp.one, Fp.two, Fp.negTwo, Fp.four, Fp.negFour, Fp.ten, Fp.twenty,
      Fp.forty].map toRat = [0, 1 / 4, 1 / 2, -1 / 2, 1, 2, -2, 4, -4, 10, 20, 40] := by
  have hquarter : Fp.datum Fp.quarter = .fin false (2 ^ 52) (-54) := by decide
  have hnegHalf : Fp.datum Fp.negHalf = .fin true (2 ^ 52) (-53) := by decide
  have htwo : Fp.datum Fp.two = .fin false (2 ^ 52) (-51) := by decide
  have hnegTwo : Fp.datum Fp.negTwo = .fin true (2 ^ 52) (-51) := by decide
  have hfour : Fp.datum Fp.four = .fin false (2 ^ 52) (-50) := by decide
  have hnegFour : Fp.datum Fp.negFour = .fin true (2 ^ 52) (-50) := by decide
  have htwenty : Fp.datum Fp.twenty = .fin false (5 * 2 ^ 50) (-48) := by decide
  have hforty : Fp.datum Fp.forty = .fin false (5 * 2 ^ 50) (-47) := by decide
  simp only [List.map_cons, List.map_nil, Fp.toRat_of_isZero (z := Fp.zero) (by decide), Fp.toRat_half, Fp.toRat_one,
    Fp.toRat_ten, Fp.toRat_of_datum hquarter, Fp.toRat_of_datum hnegHalf, Fp.toRat_of_datum htwo, Fp.toRat_of_datum hnegTwo,
    Fp.toRat_of_datum hfour, Fp.toRat_of_datum hnegFour, Fp.toRat_of_datum htwenty, Fp.toRat_of_datum hforty]
  norm_num

/-- Settles O47: each constant is evaluated, and the literals are `Fp.toRat_literals`. -/
theorem namedConstants : Obligations.NamedConstants :=
  ⟨rfl, by decide +kernel, rfl, by decide, rfl, by decide, by decide, Fp.toRat_literals⟩

end Sys2Proof.Machine
end

section
/-! PROOF. NaN bits do not spread: every operation on the state, every command and every step keeps `SameState` (R10, R58). -/

namespace Sys2Proof.Machine

/-! ### States that differ at most in NaN bits (R10, R58) -/

theorem SameResponses.append {r t : List Word} {v w : F64} (h : SameResponses r t) (hv : Same v w) :
    SameResponses (r ++ operandWords v) (t ++ operandWords w) := by
  obtain ⟨start, vs, ws, rfl, rfl, hall⟩ := h
  exact ⟨start, vs ++ [v], ws ++ [w], by simp, by simp, List.rel_append hall (.cons hv .nil)⟩

section

variable {s t : State}

theorem SameState.unconsumed_eq (h : SameState s t) : unconsumed s = unconsumed t := by
  obtain ⟨-, -, -, -, -, -, -, -, -, -, -, hstream, hpos, -⟩ := h
  simp only [unconsumed, hstream, hpos]

theorem SameState.rst_eq (h : SameState s t) : s.rst = t.rst := by
  obtain ⟨-, -, -, -, -, -, -, -, -, -, -, -, -, -, hrst, -⟩ := h
  exact hrst

/-! #### Updates of the state keep the relation: what they write is equal in both, or related -/

theorem SameState.consume (n : Nat) (h : SameState s t) : SameState (consume n s) (consume n t) := by
  simp_all [SameState]

theorem SameState.holdPartial (h : SameState s t) : SameState (holdPartial s) (holdPartial t) := by
  have hu := h.unconsumed_eq
  simp_all [SameState]

theorem SameState.setCmderr (h : SameState s t) : SameState (setCmderr s) (setCmderr t) := by
  simp_all [SameState]

theorem SameState.illegalCommand (h : SameState s t) : SameState (illegalCommand s) (illegalCommand t) := h.setCmderr

theorem SameState.clearCmderr (h : SameState s t) : SameState (clearCmderr s) (clearCmderr t) := by
  simp_all [SameState]

theorem SameState.setPrepared (h : SameState s t) : SameState (setPrepared s) (setPrepared t) := by
  simp_all [SameState]

theorem SameState.clearHistory (h : SameState s t) : SameState (clearHistory s) (clearHistory t) := by
  simp_all [SameState, SameHistory.refl]

theorem SameState.respWrite {v w : F64} (hv : Same v w) (h : SameState s t) :
    SameState (respWrite v s) (respWrite w t) := by
  have hr : SameResponses (s.responses ++ operandWords v) (t.responses ++ operandWords w) := by
    obtain ⟨-, -, -, -, -, -, -, -, -, -, -, -, -, -, -, hr⟩ := h
    exact hr.append hv
  simp_all [SameState]

/-! #### Operations that compute -/

theorem SameState.runFp {α β : Type} (m : FpM α) (m' : FpM β) (h : SameState s t) :
    SameState (runFp m s).2 (runFp m' t).2 := by
  simp_all [SameState]

theorem SameState.recompute (h : SameState s t) : SameState (recompute s) (recompute t) := by
  have hcoef : SameCoefs (Machine.recompute s).coef (Machine.recompute t).coef := by
    obtain ⟨-, -, -, halg, hfc, hq, hgain, hfs, -⟩ := h
    rw [recompute_coef, recompute_coef, halg, hfc, hq, hgain, hfs]
    exact deriveWith_same _ _ _ _ _ _ _ _
  simp_all [-recompute_coef, SameState]

theorem SameState.recomputeIfDirty (h : SameState s t) : SameState (recomputeIfDirty s) (recomputeIfDirty t) := by
  have hdirty : s.dirty = t.dirty := by
    obtain ⟨-, -, -, -, -, -, -, -, hdirty, -⟩ := h
    exact hdirty
  unfold Machine.recomputeIfDirty
  rw [hdirty]
  split
  · exact h.recompute
  · exact h

theorem SameState.runBiquad (x : F64) (h : SameState s t) :
    Same (runBiquad x s).1 (runBiquad x t).1 ∧ SameState (runBiquad x s).2 (runBiquad x t).2 := by
  have hout : SameOutput (Machine.runFp (biquadStep s.topo s.coef s.hist x) s).1
      (Machine.runFp (biquadStep t.topo t.coef t.hist x) t).1 := by
    obtain ⟨hcoef, hhist, htopo, -⟩ := h
    rw [htopo]
    exact biquadStep_same t.topo hcoef hhist (.refl x) _ _
  obtain ⟨hy, hhist⟩ := hout
  have hrun := h.runFp (biquadStep s.topo s.coef s.hist x) (biquadStep t.topo t.coef t.hist x)
  obtain ⟨hcoef, -, hrest⟩ := hrun
  exact ⟨hy, hcoef, hhist, hrest⟩

theorem SameState.runFilter (x : F64) (h : SameState s t) :
    Same (runFilter x s).1 (runFilter x t).1 ∧ SameState (runFilter x s).2 (runFilter x t).2 := by
  obtain ⟨hy, hb⟩ := h.recomputeIfDirty.runBiquad x
  have ⟨⟨_, _, _, _, _, hc0, hd0⟩, _⟩ := hb
  exact ⟨mixDryWet_same hd0 hc0 (.refl x) hy _ _, hb.runFp _ _⟩

theorem SameState.readReg (r : RegName) (h : SameState s t) : Same (readReg r s) (readReg r t) := by
  obtain ⟨⟨ha0, ha1, ha2, hb1, hb2, hc0, hd0⟩, ⟨hs1, hs2, hs3, hs4⟩, htopo, halg, hfc, hq, hgain, hfs, hdirty, hprep,
    herr, -⟩ := h
  cases r with
  | a0 => exact ha0
  | a1 => exact ha1
  | a2 => exact ha2
  | b1 => exact hb1
  | b2 => exact hb2
  | c0 => exact hc0
  | d0 => exact hd0
  | s1 => exact hs1
  | s2 => exact hs2
  | s3 => exact hs3
  | s4 => exact hs4
  | alg => exact .inl (by simp only [Machine.readReg, halg])
  | fc => exact .inl hfc
  | q => exact .inl hq
  | gain => exact .inl hgain
  | fs => exact .inl hfs
  | topo => exact .inl (by simp only [Machine.readReg, htopo])
  | status => exact .inl (by simp only [Machine.readReg, statusWord, hdirty, hprep, herr])

theorem SameState.readNumber (n : BitVec 8) (h : SameState s t) : Same (readNumber n s) (readNumber n t) := by
  unfold Machine.readNumber
  split
  · exact h.readReg _
  · exact .refl _

/-! #### Commands and steps -/

/-- One command from two related states: no command looks at the bits of a NaN result (R10). -/
theorem SameState.exec_next (i : Instr) (h : SameState s t) :
    ∃ s' t', exec i s = .next s' ∧ exec i t = .next t' ∧ SameState s' t' := by
  cases i with
  | nop => exact ⟨_, _, rfl, rfl, h⟩
  | bqReset | fltReset => exact ⟨_, _, rfl, rfl, h.clearHistory⟩
  | errClr => exact ⟨_, _, rfl, rfl, h.clearCmderr⟩
  | bqProcess x =>
    obtain ⟨hy, hs⟩ := h.runBiquad x
    exact ⟨_, _, rfl, rfl, hs.respWrite hy⟩
  | fltProcess x =>
    obtain ⟨hy, hs⟩ := h.runFilter x
    exact ⟨_, _, rfl, rfl, hs.respWrite hy⟩
  | rdReg n =>
    have hs := h.respWrite (h.readNumber n)
    refine ⟨_, _, rfl, rfl, ?_⟩
    split
    · exact hs.setCmderr
    · exact hs
  | fltPrepare fs =>
    have hs : SameState { s with fs := fs } { t with fs := fs } := by simp_all [SameState]
    exact ⟨_, _, rfl, rfl, hs.clearHistory.recompute.setPrepared⟩
  | bqSetcoef | bqSettopo | fltSetalg | fltSetfc | fltSetq | fltSetgain =>
    refine ⟨_, _, rfl, rfl, ?_⟩
    simp_all [SameState, SameCoefs.refl]

end

/-- Settles O40: related states decode the same words, so they take the same branch of the step, and every command keeps the
relation (`SameState.exec_next`). -/
theorem nanBitsDoNotSpread : Obligations.NanBitsDoNotSpread := by
  intro s t h
  cases hrst : s.rst with
  | true => exact ⟨s, t, step_rst hrst, step_rst (h.rst_eq ▸ hrst), h⟩
  | false =>
    have hrst' : t.rst = false := h.rst_eq ▸ hrst
    cases hd : decode (unconsumed s) with
    | ok p =>
      obtain ⟨i, rest⟩ := p
      rw [step_command hrst hd, step_command hrst' (h.unconsumed_eq ▸ hd)]
      exact (h.consume i.length).exec_next i
    | error e =>
      cases e with
      | unassignedOpcode c =>
        exact ⟨_, _, step_unassigned hrst hd, step_unassigned hrst' (h.unconsumed_eq ▸ hd), (h.consume 1).illegalCommand⟩
      | incomplete got need =>
        exact ⟨_, _, step_incomplete hrst hd, step_incomplete hrst' (h.unconsumed_eq ▸ hd), h.holdPartial⟩

end Sys2Proof.Machine
end

section
/-! PROOF. What one command may change, how the numbered registers read back, and the invariant that every step keeps
(R29, R32 to R41, R53, R65). -/

namespace Sys2Proof.Machine

/-! ### RD.REG and STATUS (R32, R36, R202) -/

/-- A register number of an unassigned range of R36 names no register. -/
theorem ofNumber?_eq_none_of_unassigned {n : BitVec 8}
    (h : n = 0x07 ∨ (0x0C ≤ n.toNat ∧ n.toNat ≤ 0x0F) ∨ (0x15 ≤ n.toNat ∧ n.toNat ≤ 0x17) ∨ 0x1A ≤ n.toNat) :
    RegName.ofNumber? n = none := by
  rw [RegName.ofNumber?, List.find?_eq_none]
  intro r _ hr
  obtain rfl : r.number = n := by simpa using hr
  revert h
  cases r <;> decide

@[simp] theorem readNumber_number (r : RegName) (s : State) : readNumber r.number s = readReg r s := by
  simp [readNumber]

/-- RD.REG of a number that names a register: its image, and nothing else. -/
theorem exec_rdReg_number (r : RegName) (s : State) :
    exec (.rdReg r.number) s = .next (respWrite (readReg r s) s) := by
  simp [exec, execRdReg, unassignedNumber]

/-- RD.REG of a number that names none: zero, and CMDERR. -/
theorem exec_rdReg_unassigned {n : BitVec 8} (h : RegName.ofNumber? n = none) (s : State) :
    exec (.rdReg n) s = .next (setCmderr (respWrite 0 s)) := by
  simp [exec, execRdReg, unassignedNumber, readNumber, h]

/-- STATUS as a number. -/
theorem statusWord_eq_ofNat (s : State) :
    statusWord s = BitVec.ofNat 64 (s.dirty.toNat + 2 * s.prepared.toNat + 4 * s.cmderr.toNat) := by
  unfold statusWord
  cases s.dirty <;> cases s.prepared <;> cases s.cmderr <;> rfl

theorem statusWord_getLsbD (s : State) (i : Nat) :
    (statusWord s).getLsbD i =
      if i = 0 then s.dirty else if i = 1 then s.prepared else if i = 2 then s.cmderr else false := by
  simp only [statusWord, BitVec.getLsbD_setWidth, BitVec.getLsbD_append, BitVec.getLsbD_ofBool]
  match i with
  | 0 | 1 | 2 | _ + 3 => simp

/-- Settles O18: `exec_rdReg_number` at each register, and `exec_rdReg_unassigned` on the other numbers. -/
theorem registerReadback : Obligations.RegisterReadback := by
  intro s
  have hreg (r : RegName) := exec_rdReg_number r s
  refine ⟨hreg .a0, hreg .a1, hreg .a2, hreg .b1, hreg .b2, hreg .c0, hreg .d0, hreg .s1, hreg .s2, hreg .s3, hreg .s4,
    hreg .alg, hreg .fc, hreg .q, hreg .gain, hreg .fs, hreg .topo, ?_, ?_⟩
  · rw [← statusWord_eq_ofNat]
    exact hreg .status
  · intro n hn
    exact exec_rdReg_unassigned (ofNumber?_eq_none_of_unassigned hn) s

/-- Settles O19: number 0x19 reads STATUS, whose bits `statusWord_getLsbD` gives. -/
theorem statusLayout : Obligations.StatusLayout := by
  intro s
  have hread : readNumber 0x19 s = statusWord s := readNumber_number .status s
  simp only [hread, statusWord_getLsbD]
  refine ⟨rfl, rfl, rfl, fun i hi => ?_⟩
  rw [if_neg (by omega), if_neg (by omega), if_neg (by omega)]

/-- Settles O13: each image of the reset state is evaluated. -/
theorem resetRegisterValues : Obligations.ResetRegisterValues := ⟨rfl, rfl, rfl, rfl⟩

/-! ### What one command may change (R33, R41, R53, R122) -/

/-- RD.REG of any number writes a response and CMDERR only. -/
theorem exec_rdReg (n : BitVec 8) (s : State) :
    exec (.rdReg n) s = .next { s with
      responses := s.responses ++ operandWords (readNumber n s), cmderr := s.cmderr || unassignedNumber n } := by
  simp only [exec, execRdReg]
  split
  next h => simp [respWrite, setCmderr, h]
  next h => simp [respWrite, h]

/-- Settles O38: command by command, from what each update leaves in each field (Laws/State.lean). -/
theorem onlyTheseCommandsWrite : Obligations.OnlyTheseCommandsWrite := by
  intro i s t h
  cases i with
  | rdReg n =>
    rw [exec_rdReg] at h
    cases h
    simp [Instr.opcode]
  | _ =>
    cases h
    simp [Instr.opcode]

/-- Settles O36: a setter marks the change of its own register, and no other command writes one of the four. -/
theorem dirtyTracksParameterChanges : Obligations.DirtyTracksParameterChanges := by
  intro i s t h
  cases i with
  | rdReg n =>
    rw [exec_rdReg] at h
    cases h
    simp [Instr.opcode]
  | fltSetalg | fltSetfc | fltSetq | fltSetgain =>
    cases h
    simp [Instr.opcode, bne, Bool.beq_eq_decide_eq]
  | _ =>
    cases h
    simp [Instr.opcode]

section

variable {i : Instr} {s t : State}

/-- A command writes no response, or one of two words. -/
theorem exec_responses (h : exec i s = .next t) :
    t.responses = s.responses ∨ ∃ v, t.responses = s.responses ++ operandWords v := by
  cases i with
  | bqProcess x =>
    cases h
    exact .inr ⟨(runBiquad x s).1, rfl⟩
  | fltProcess x =>
    cases h
    exact .inr ⟨(runFilter x s).1, by rw [respWrite_responses, runFilter_responses]⟩
  | rdReg n =>
    rw [exec_rdReg] at h
    cases h
    exact .inr ⟨_, rfl⟩
  | _ =>
    cases h
    exact .inl rfl

/-! ### The invariant (R29, R37, R53, R65) -/

/-- What FLT.SETQ stores is not `≤ 0.0` (R127). -/
theorem substituteQ_not_le_zero (v : F64) : Fp.le (substituteQ v) Fp.zero = false := by
  unfold substituteQ
  split
  next => decide
  next h => simpa using h

theorem exec_qNotNonPositive (hq : QNotNonPositive s) (h : exec i s = .next t) : QNotNonPositive t := by
  by_cases hi : i.opcode = .fltSetq
  · cases i <;> cases hi
    cases h
    exact substituteQ_not_le_zero _
  · obtain ⟨-, -, -, -, -, hframe, -⟩ := onlyTheseCommandsWrite i s t h
    rwa [QNotNonPositive, hframe hi]

theorem exec_responsesPaired (hresp : ResponsesPaired s) (h : exec i s = .next t) : ResponsesPaired t := by
  unfold ResponsesPaired at *
  obtain heq | ⟨v, heq⟩ := exec_responses h
  · rwa [heq]
  · simpa [heq, operandWords] using hresp

/-- A command keeps the invariant: no command touches what its parts on the stream speak of. -/
theorem exec_inv (hs : Inv s) (h : exec i s = .next t) : Inv t := by
  obtain ⟨hq, hrange, hresp, hpart⟩ := hs
  obtain ⟨-, -, -, -, -, -, -, -, -, -, hstream, hpos, hreceived, -⟩ := onlyTheseCommandsWrite i s t h
  refine ⟨exec_qNotNonPositive hq h, ?_, exec_responsesPaired hresp h, ?_⟩
  · simpa only [StreamInRange, hstream, hpos, hreceived] using hrange
  · simpa only [PartialIncomplete, unconsumed, hstream, hpos, hreceived] using hpart

/-- Consuming words that are there keeps the invariant: the position stays in the stream, and none are held after it. -/
theorem consume_inv {n : Nat} (hs : Inv s) (hn : n ≤ (unconsumed s).length) : Inv (consume n s) := by
  obtain ⟨hq, hrange, hresp, -⟩ := hs
  refine ⟨hq, ?_, hresp, fun hne => absurd (consume_received s n) hne⟩
  simp only [StreamInRange, unconsumed, List.length_drop, consume_pos, consume_received, consume_stream] at *
  omega

theorem illegalCommand_inv (hs : Inv s) : Inv (illegalCommand s) := hs

/-- Waiting keeps the invariant: the words held are then all that are there, and they lack a part of the command. -/
theorem holdPartial_inv {got need : Nat} (hs : Inv s) (hd : decode (unconsumed s) = .error (.incomplete got need)) :
    Inv (holdPartial s) := by
  obtain ⟨hq, hrange, hresp, -⟩ := hs
  refine ⟨hq, ?_, hresp, fun _ => ⟨need, ?_⟩⟩
  · simp only [StreamInRange, unconsumed, List.length_drop, holdPartial_pos, holdPartial_received, holdPartial_stream] at *
    omega
  · obtain ⟨rfl, -⟩ := decode_incomplete hd
    have hall : (unconsumed (holdPartial s)).take (holdPartial s).received = unconsumed s := List.take_length
    rw [hall, hd, holdPartial_received]

end

/-- Settles O41: Q is `Q_DEFAULT`, and both streams are empty. -/
theorem resetMeetsInvariant : Obligations.ResetMeetsInvariant :=
  ⟨(by decide : Fp.le State.reset.q Fp.zero = false), Nat.le_refl 0, rfl, fun hne => absurd rfl hne⟩

/-- Settles O42: the four things a step can do (`step_cases`), each made of operations that keep the invariant. -/
theorem stepKeepsInvariant : Obligations.StepKeepsInvariant := by
  intro s t hs h
  obtain ⟨-, rfl⟩ | ⟨-, i, rest, hd, hexec⟩ | ⟨-, c, hd, rfl⟩ | ⟨-, got, need, hd, rfl⟩ := step_cases h
  · exact hs
  · obtain ⟨w, tail, -, -, -, hlength, -⟩ := decode_ok hd
    exact exec_inv (consume_inv hs hlength) hexec
  · obtain ⟨w, tail, hwords, -⟩ := decode_unassigned hd
    exact illegalCommand_inv (consume_inv hs (by simp [hwords]))
  · exact holdPartial_inv hs hd

end Sys2Proof.Machine
end

section
/-! PROOF. The command stream (R37, R51 to R54, R65, 20_memory.md): the words of a command read back, whole commands executed in
order, commands that arrive in part, and what the host can do. -/

namespace Sys2Proof.Machine

/-! ### The words of a command (R70, R73, R74) -/

theorem length_encode (i : Instr) : (encode i).length = i.length := by cases i <;> rfl

/-- The topology field of a command word is the low end of IMM8 (R72, R76). -/
theorem topologyField_eq (w : Word) : w.extractLsb' 0 2 = (immField w).setWidth 2 := by
  ext k hk
  have h8 : k < 8 := by omega
  simp [immField, h8]

/-- A command is what its opcode builds from its words, whatever follows them. -/
theorem buildInstr_encode (i : Instr) (rest : List Word) :
    buildInstr i.opcode (commandWord i.opcode i.imm) (encode i ++ rest) = i := by
  cases i with
  | bqSettopo t => simp [buildInstr, Instr.opcode, Instr.imm, topologyField_eq]
  | _ => simp [buildInstr, Instr.opcode, Instr.imm, cmdOperand, encode, Instr.operandList, operandWords]

/-- The decoder gives back the command that the encoder wrote, and the words after it. -/
theorem decode_encode_append (i : Instr) (rest : List Word) : decode (encode i ++ rest) = .ok (i, rest) := by
  have hlen : i.opcode.length = (encode i).length := (length_encode i).symm
  have hopc : Opcode.ofCode? (opcField (commandWord i.opcode i.imm)) = some i.opcode := by simp
  have hdecode : decode (encode i ++ rest) = .ok (buildInstr i.opcode _ (encode i ++ rest), (encode i ++ rest).drop _) :=
    decode_cons_command hopc (hlen.trans_le (List.sublist_append_left (encode i) rest).length_le)
  rw [hdecode, buildInstr_encode, hlen, List.drop_left]

/-- Of a command's words the decoder needs all. -/
theorem decode_incomplete_of_encode {i : Instr} {here missing : List Word} (h : encode i = here ++ missing) (hm : missing ≠ []) :
    ∃ need, decode here = .error (.incomplete here.length need) := by
  cases here with
  | nil => exact ⟨1, decode_nil⟩
  | cons w tail =>
    obtain ⟨rfl, -⟩ : commandWord i.opcode i.imm = w ∧ _ := List.cons.inj h
    refine ⟨_, decode_cons_incomplete (o := i.opcode) (by simp) ?_⟩
    calc _ < (commandWord i.opcode i.imm :: tail).length + missing.length :=
          Nat.lt_add_of_pos_right (List.length_pos_iff.2 hm)
      _ = (encode i).length := by rw [h, List.length_append]
      _ = i.opcode.length := length_encode i

/-! ### Steps (R37, R52) -/

/-- Every step completes. -/
theorem exists_step_next (s : State) : ∃ t, step s = .next t := by
  cases hrst : s.rst with
  | true => exact ⟨s, step_rst hrst⟩
  | false =>
    cases hd : decode (unconsumed s) with
    | ok p =>
      obtain ⟨t, ht, -⟩ := exec_next p.1 (consume p.1.length s)
      exact ⟨t, (step_command hrst hd).trans ht⟩
    | error e =>
      cases e with
      | unassignedOpcode c => exact ⟨_, step_unassigned hrst hd⟩
      | incomplete got need => exact ⟨_, step_incomplete hrst hd⟩

/-- Consuming a command leaves the words after it. -/
theorem unconsumed_consume (n : Nat) (s : State) : unconsumed (consume n s) = (unconsumed s).drop n := by
  simp [unconsumed]

/-- Settles O9: the step is the one `step_command` gives, and the decoder's rest is what is left past the command's words. -/
theorem stepRunsTheDecodedCommand : Obligations.StepRunsTheDecodedCommand := by
  intro s i rest hrst hd
  obtain ⟨-, -, -, -, -, -, hrest⟩ := decode_ok hd
  exact ⟨step_command hrst hd, by rw [hrest, List.drop_drop]⟩

/-- One command whose words are at the stream position: the step executes it, and the words after it are left. -/
theorem step_encode {s : State} {i : Instr} {rest : List Word} (hrst : s.rst = false)
    (hwords : unconsumed s = encode i ++ rest) :
    ∃ t, step s = .next t ∧ exec i (consume i.length s) = .next t ∧ t.rst = false ∧ unconsumed t = rest := by
  have hstep := step_command hrst (hwords ▸ decode_encode_append i rest)
  obtain ⟨t, hexec, hstream, hpos, -, htrst⟩ := exec_next i (consume i.length s)
  refine ⟨t, hstep.trans hexec, hexec, htrst.trans hrst, ?_⟩
  calc unconsumed t = unconsumed (consume i.length s) := by rw [unconsumed, hstream, hpos, ← unconsumed]
    _ = rest := by rw [unconsumed_consume, hwords, ← length_encode, List.drop_left]

theorem runSteps_succ {s t : State} (k : Nat) (h : step s = .next t) : runSteps (k + 1) s = runSteps k t := by
  simp only [runSteps, h]

theorem execAll_cons {i : Instr} {s t : State} (is : List Instr) (h : exec i (consume i.length s) = .next t) :
    execAll (i :: is) s = execAll is t := by
  simp only [execAll, h]

/-- Settles O15, by induction on the commands: the first step executes the first of them (`step_encode`). -/
theorem commandStreamRunsInOrder : Obligations.CommandStreamRunsInOrder := by
  intro is rest
  induction is with
  | nil => exact fun s _ hwords => ⟨s, rfl, rfl, hwords⟩
  | cons i is ih =>
    intro s hrst hwords
    have hfirst : unconsumed s = encode i ++ (encodeAll is ++ rest) := by
      rw [← List.append_assoc]
      exact hwords
    obtain ⟨u, hstep, hexec, hurst, hleft⟩ := step_encode hrst hfirst
    obtain ⟨t, hrun, hall, htleft⟩ := ih u hurst hleft
    exact ⟨t, (runSteps_succ _ hstep).trans hrun, (execAll_cons _ hexec).trans hall, htleft⟩

/-- Settles O11: the first words of a command do not decode (`decode_incomplete_of_encode`); with the missing ones they do. -/
theorem partialCommandIsHeldThenExecuted : Obligations.PartialCommandIsHeldThenExecuted := by
  intro s i here missing more hrst hpos hencode hmissing hhere
  have hu : unconsumed s = here := hhere
  constructor
  · obtain ⟨need, hd⟩ := decode_incomplete_of_encode hencode hmissing
    rw [step_incomplete hrst (hu ▸ hd), holdPartial, hu]
  · have hall : unconsumed (hostWrite (missing ++ more) { s with received := here.length }) = encode i ++ more := by
      simp [unconsumed, List.drop_append_of_le_length hpos, hhere, hencode]
    exact step_command hrst (hall ▸ decode_encode_append i more)

/-! ### The byte transport (R54) -/

/-- The four bytes of a word, put together again. -/
@[simp] theorem joinBytes_bytes (w : Word) :
    joinBytes (w.extractLsb' 0 8) (w.extractLsb' 8 8) (w.extractLsb' 16 8) (w.extractLsb' 24 8) = w := by
  ext k hk
  simp only [joinBytes, BitVec.getElem_or, BitVec.getElem_shiftLeft, BitVec.getElem_setWidth,
    BitVec.getLsbD_extractLsb']
  obtain h | h | h | h : k < 8 ∨ (8 ≤ k ∧ k < 16) ∨ (16 ≤ k ∧ k < 24) ∨ 24 ≤ k := by omega
  all_goals grind

theorem wordsOfBytes_flatMap_wordBytes (ws : List Word) : wordsOfBytes (ws.flatMap wordBytes) = ws := by
  induction ws with
  | nil => rfl
  | cons w ws ih => simpa [wordBytes, wordsOfBytes] using ih

/-- Settles O7, by induction on the words (`wordsOfBytes_flatMap_wordBytes`). -/
theorem byteTransportRoundTrip : Obligations.ByteTransportRoundTrip :=
  fun _ ws => ⟨wordsOfBytes_flatMap_wordBytes ws, rfl⟩

/-! ### Responses (R53) -/

/-- What a command appends to the response stream: one response for three commands, nothing for the others. -/
theorem responses_of_exec {i : Instr} {s t : State} (h : exec i s = .next t) :
    if i.opcode ∈ [.bqProcess, .fltProcess, .rdReg] then ∃ v, t.responses = s.responses ++ operandWords v
    else t.responses = s.responses := by
  cases i with
  | bqProcess x =>
    cases h
    exact ⟨(runBiquad x s).1, rfl⟩
  | fltProcess x =>
    cases h
    exact ⟨(runFilter x s).1, by rw [respWrite_responses, runFilter_responses]⟩
  | rdReg n =>
    rw [exec_rdReg] at h
    cases h
    exact ⟨_, rfl⟩
  | _ =>
    cases h
    rfl

/-- A step writes no response, unless it executes a command that writes one. -/
theorem step_responses {s t : State} (h : step s = .next t) :
    t.responses = s.responses ∨
      ∃ i rest v, decode (unconsumed s) = .ok (i, rest) ∧ t.responses = s.responses ++ operandWords v := by
  obtain ⟨-, rfl⟩ | ⟨-, i, rest, hd, hexec⟩ | ⟨-, c, -, rfl⟩ | ⟨-, got, need, -, rfl⟩ := step_cases h
  · exact .inl rfl
  · obtain heq | ⟨v, heq⟩ := exec_responses hexec
    · exact .inl heq
    · exact .inr ⟨i, rest, v, hd, heq⟩
  · exact .inl rfl
  · exact .inl rfl

/-- Settles O39: `responses_of_exec` for a command, `step_responses` for a step. -/
theorem responsesOnlyGrow : Obligations.ResponsesOnlyGrow := by
  refine ⟨fun i s t => responses_of_exec, fun s t h hnone => ?_, fun s t h => ?_⟩
  · obtain heq | ⟨i, rest, v, hd, -⟩ := step_responses h
    · exact heq
    · exact absurd hd (hnone i rest)
  · obtain heq | ⟨i, rest, v, -, heq⟩ := step_responses h
    · exact ⟨[], by rw [heq, List.append_nil]⟩
    · exact ⟨operandWords v, heq⟩

/-! ### What the host can do (R51, R54, R235) -/

/-- Words written after them do not change the words held. -/
theorem hostWrite_inv {s : State} (ws : List Word) (hs : Inv s) : Inv (hostWrite ws s) := by
  obtain ⟨hq, hrange, hresp, hpart⟩ := hs
  unfold StreamInRange at hrange
  have hheld : (unconsumed (hostWrite ws s)).take s.received = (unconsumed s).take s.received := by
    have hle : s.received ≤ (s.stream.drop s.pos).length := by
      rw [List.length_drop]
      omega
    rw [unconsumed, hostWrite_stream, hostWrite_pos, List.drop_append_of_le_length (by omega),
      List.take_append_of_le_length hle, ← unconsumed]
  refine ⟨hq, ?_, hresp, fun hne => ?_⟩
  · rw [StreamInRange, hostWrite_stream, List.length_append]
    exact hrange.trans (Nat.le_add_right ..)
  · rw [hostWrite_received, hheld]
    exact hpart hne

theorem assertRst_inv {s : State} (hs : Inv s) : Inv (assertRst s) := hs

/-- After a reset no words are held, the position has moved past those that were, and Q is `Q_DEFAULT` (R235). -/
theorem deassertRst_inv {s : State} (hs : Inv s) : Inv (deassertRst s) := by
  unfold deassertRst
  split
  · obtain ⟨-, hrange, hresp, -⟩ := hs
    obtain ⟨hq, -⟩ := resetMeetsInvariant
    exact ⟨hq, hrange, hresp, fun hne => absurd rfl hne⟩
  · exact hs

/-- Settles O43, one lemma per action; bytes are written as the words they carry. -/
theorem hostActionsKeepInvariant : Obligations.HostActionsKeepInvariant :=
  fun _ ws bs hs => ⟨hostWrite_inv ws hs, hostWrite_inv (wordsOfBytes bs) hs, assertRst_inv hs, deassertRst_inv hs⟩

/-! ### Channels (R63, R223) -/

/-- Where `f` says what a step gives, channel `k` steps by applying it to its own state. -/
theorem stepChannel_eq_modify {f : State → State} (hf : ∀ s, step s = .next (f s)) (k : Nat) (sys : Channels) :
    stepChannel k sys = .next (sys.modify k f) := by
  unfold stepChannel
  cases hk : sys[k]? with
  | none => rw [List.modify_eq_self (List.getElem?_eq_none_iff.1 hk)]
  | some s => simp only [hf, List.modify_eq_set_getElem?, hk]; rfl

/-- Settles O16: the step of one channel is a `List.modify` at its own number. -/
theorem channelsAreIndependent : Obligations.ChannelsAreIndependent := by
  intro sys i j hij
  choose f hf using exists_step_next
  refine ⟨_, _, _, stepChannel_eq_modify hf i sys, stepChannel_eq_modify hf j sys, stepChannel_eq_modify hf j _, ?_, ?_, ?_⟩
  · rw [List.modify_modify_ne _ _ _ hij]
    exact stepChannel_eq_modify hf i _
  · exact fun k hk => List.getElem?_modify_ne _ _ hk.symm
  · intro s hs
    exact ⟨f s, hf s, by rw [List.getElem?_modify_eq, hs]; rfl⟩

end Sys2Proof.Machine
end

section
/-! PROOF. The encoding (R70 to R83, 30_encoding.md): decoder and encoder undo each other, which bits of a command word a
command uses, and the assembler's pseudo-commands. -/

namespace Sys2Proof.Machine

/-! ### The encoder's words decode (R73 to R75) -/

/-- Settles O1: `decode_encode_append`, which rests on `buildInstr_encode`, command by command. -/
theorem decodeOfEncodeIsTheCommand : Obligations.DecodeOfEncodeIsTheCommand := decode_encode_append

theorem decode_encode (i : Instr) : decode (encode i) = .ok (i, []) := by
  simpa using decode_encode_append i []

theorem encode_injective : Function.Injective encode := by
  intro i j h
  have hd := decode_encode i
  rw [h, decode_encode] at hd
  cases hd
  rfl

/-! ### The fields of a command word (R70) -/

/-- The three fields are the whole word. -/
theorem word_ext_fields {w w' : Word} (hopc : opcField w = opcField w') (hrsv : rsvField w = rsvField w')
    (himm : immField w = immField w') : w = w' := by
  have hopc := congrArg BitVec.toNat hopc
  have hrsv := congrArg BitVec.toNat hrsv
  have himm := congrArg BitVec.toNat himm
  simp only [opcField, rsvField, immField, BitVec.extractLsb'_toNat, Nat.shiftRight_eq_div_pow] at hopc hrsv himm
  apply BitVec.eq_of_toNat_eq
  omega

/-- A command word is its opcode and IMM8 where RSV is zero. -/
theorem commandWord_immField {w : Word} {o : Opcode} (hopc : opcField w = o.code) (hrsv : rsvField w = 0) :
    commandWord o (immField w) = w :=
  word_ext_fields (by rw [opcField_commandWord, hopc]) (by rw [rsvField_commandWord, hrsv]) (immField_commandWord o _)

/-- IMM8[1:0] as the bits of IMM8 that BQ.SETTOPO uses (R72). -/
theorem setWidth_topologyField (w : Word) : (w.extractLsb' 0 2).setWidth 8 = immField w &&& Opcode.bqSettopo.immMask := by
  rw [topologyField_eq]
  generalize immField w = c
  revert c
  decide

/-! ### The parts of the command that an opcode builds -/

/-- A built command has the IMM8 bits that its opcode uses (R72). -/
@[simp] theorem buildInstr_imm (o : Opcode) (w : Word) (ws : List Word) :
    (buildInstr o w ws).imm = immField w &&& o.immMask := by
  cases o with
  | bqSettopo => simp [buildInstr, Instr.imm, setWidth_topologyField]
  | fltSetalg | rdReg => exact (BitVec.and_allOnes (x := immField w)).symm
  | _ => exact BitVec.and_zero.symm

/-- A built command has the operands that R75 counts for its opcode. -/
@[simp] theorem buildInstr_operandList (o : Opcode) (w : Word) (ws : List Word) :
    (buildInstr o w ws).operandList = (List.range o.operands).map (cmdOperand ws) := by
  cases o <;> rfl

/-- The low half of a joined operand. -/
@[simp] theorem joinWords_low (hi lo : Word) : (joinWords hi lo).extractLsb' 0 32 = lo := by
  ext k hk
  simp [joinWords, hk, show k < 64 by omega]

/-- The high half of a joined operand. -/
@[simp] theorem joinWords_high (hi lo : Word) : (joinWords hi lo).extractLsb' 32 32 = hi := by
  ext k hk
  simp [joinWords, hk, show 32 + k < 64 by omega]

/-- The operands are the words after the command word, whatever that is. -/
theorem cmdOperand_cons (w w' : Word) (ws : List Word) (k : Nat) : cmdOperand (w :: ws) k = cmdOperand (w' :: ws) k := by
  simp [cmdOperand, Nat.add_comm _ (2 * k)]

/-- Past the first operand the operands are those of the words after it. -/
theorem cmdOperand_succ (w lo hi : Word) (ws : List Word) (k : Nat) :
    cmdOperand (w :: lo :: hi :: ws) (k + 1) = cmdOperand (w :: ws) k := by
  simp [cmdOperand, Nat.mul_add, Nat.add_comm _ (2 * k + 2), Nat.add_comm _ (2 * k)]

/-- The words of the operands read are the words they were read from (R74), by induction on the number of operands. -/
theorem flatMap_operandWords_cmdOperand (w : Word) (rest : List Word) (n : Nat) :
    ∀ ops : List Word, ops.length = 2 * n →
      ((List.range n).map (cmdOperand (w :: (ops ++ rest)))).flatMap operandWords = ops := by
  induction n with
  | zero => simp
  | succ n ih =>
    intro ops hlen
    match ops, hlen with
    | lo :: hi :: ops, hlen =>
      have hfirst : operandWords (cmdOperand (w :: lo :: hi :: (ops ++ rest)) 0) = [lo, hi] := by
        simp [cmdOperand, operandWords]
      have hothers := ih ops (by simpa [Nat.mul_add] using hlen)
      simp only [List.cons_append, List.range_succ_eq_map, List.map_cons, List.map_map, List.flatMap_cons, hfirst,
        List.nil_append]
      simpa [Function.comp_def, cmdOperand_succ] using hothers

/-- Encoding a built command gives the words it was built from, with RSV and unused IMM8 bits zero (R71, R81). -/
theorem encode_buildInstr {o : Opcode} (w : Word) {ops : List Word} (rest : List Word) (hlen : ops.length = 2 * o.operands) :
    encode (buildInstr o w (w :: (ops ++ rest))) = commandWord o (immField w &&& o.immMask) :: ops := by
  simp [encode, flatMap_operandWords_cmdOperand w rest _ ops hlen]

/-- A command uses of its command word the opcode and the IMM8 bits of R72 alone. -/
theorem buildInstr_congr {o : Opcode} {w w' : Word} (ws : List Word)
    (himm : immField w &&& o.immMask = immField w' &&& o.immMask) :
    buildInstr o w (w :: ws) = buildInstr o w' (w' :: ws) := by
  apply encode_injective
  simp [encode, himm, funext (cmdOperand_cons w w' ws)]

/-! ### What the decoder reads (R71 to R75) -/

/-- An assigned opcode and its operands' words decode to the command built from them (R73, R75). -/
theorem decode_cons_append {o : Opcode} {w : Word} (ops rest : List Word) (hopc : opcField w = o.code)
    (hlen : ops.length = 2 * o.operands) : decode (w :: (ops ++ rest)) = .ok (buildInstr o w (w :: ops), rest) := by
  have ho : Opcode.ofCode? (opcField w) = some o := by rw [hopc, Opcode.ofCode?_code]
  have hwords : o.length = (w :: ops).length := by simp [Opcode.length, hlen, Nat.add_comm]
  have hbuild : buildInstr o w (w :: (ops ++ rest)) = buildInstr o w (w :: ops) := by
    apply encode_injective
    rw [encode_buildInstr w rest hlen, ← encode_buildInstr w [] hlen, List.append_nil]
  rw [decode_cons_command ho (by simp [hwords]), hbuild, hwords, ← List.cons_append, List.drop_left]

/-- Command words with one opcode and the same used IMM8 bits decode alike. -/
theorem decode_cons_congr {w w' : Word} (ws : List Word) (hopc : opcField w = opcField w')
    (himm : ∀ o : Opcode, opcField w = o.code → immField w &&& o.immMask = immField w' &&& o.immMask) :
    decode (w :: ws) = decode (w' :: ws) := by
  cases ho : Opcode.ofCode? (opcField w) with
  | none =>
    have ho' : Opcode.ofCode? (opcField w') = none := hopc ▸ ho
    rw [decode_cons_unassigned ho, decode_cons_unassigned ho', hopc]
  | some o =>
    have ho' : Opcode.ofCode? (opcField w') = some o := hopc ▸ ho
    by_cases hl : (w :: ws).length < o.length
    · rw [decode_cons_incomplete ho hl, decode_cons_incomplete ho' hl, List.length_cons, List.length_cons]
    · have hbuild := buildInstr_congr ws (himm o (Opcode.code_of_ofCode? ho).symm)
      have hdrop : (w :: ws).drop o.length = (w' :: ws).drop o.length := by
        simp [Opcode.length, Nat.add_comm 1]
      rw [decode_cons_command ho (Nat.not_lt.1 hl), decode_cons_command ho' (Nat.not_lt.1 hl), hbuild, hdrop]

/-- What the words of a conforming host say. -/
theorem exists_of_commandWellFormed {ws : List Word} (h : commandWellFormed ws = true) :
    ∃ (o : Opcode) (w : Word) (ops : List Word), ws = w :: ops ∧ opcField w = o.code ∧ rsvField w = 0 ∧
      immField w &&& ~~~ o.immMask = 0 ∧ ops.length = 2 * o.operands := by
  cases ws with
  | nil => cases h
  | cons w ops =>
    cases ho : Opcode.ofCode? (opcField w) with
    | none => simp [commandWellFormed, opcodeAssigned, ho] at h
    | some o =>
      obtain ⟨⟨hrsv, himm⟩, hlen⟩ : (rsvField w = 0 ∧ immField w &&& ~~~ o.immMask = 0) ∧ (w :: ops).length = o.length := by
        simpa [commandWellFormed, opcodeAssigned, rsvZero, immUsed, lengthExact, ho] using h
      refine ⟨o, w, ops, rfl, (Opcode.code_of_ofCode? ho).symm, hrsv, himm, ?_⟩
      simpa [Opcode.length, Nat.add_comm 1] using hlen

/-- Settles O2: the command is the one built from the words, and `encode_buildInstr` writes them again. -/
theorem encodeOfDecodeIsTheWords : Obligations.EncodeOfDecodeIsTheWords := by
  intro ws hws
  obtain ⟨o, w, ops, rfl, hopc, hrsv, hunused, hlen⟩ := exists_of_commandWellFormed hws
  have hused : immField w &&& o.immMask = immField w := by
    ext k hk
    simpa using congrArg (·[k]) hunused
  refine ⟨buildInstr o w (w :: ops), ?_, ?_⟩
  · simpa using decode_cons_append ops [] hopc hlen
  · have hencode := encode_buildInstr w [] hlen
    rwa [List.append_nil, hused, commandWord_immField hopc hrsv] at hencode

/-- Settles O3, by `decode_cons_append` at each opcode and its operands' words. -/
theorem opcodeMapAndOperandAssembly : Obligations.OpcodeMapAndOperandAssembly := by
  intro w l0 h0 l1 h1 l2 h2 l3 h3 l4 h4 l5 h5 l6 h6 rest
  have hmap (o : Opcode) (ops : List Word) (hlen : ops.length = 2 * o.operands) (hopc : opcField w = o.code) :=
    decode_cons_append ops rest hopc hlen
  exact ⟨hmap .nop [] rfl, hmap .bqReset [] rfl, hmap .bqSetcoef [l0, h0, l1, h1, l2, h2, l3, h3, l4, h4, l5, h5, l6, h6] rfl,
    hmap .bqSettopo [] rfl, hmap .bqProcess [l0, h0] rfl, hmap .fltPrepare [l0, h0] rfl, hmap .fltReset [] rfl,
    hmap .fltSetalg [] rfl, hmap .fltSetfc [l0, h0] rfl, hmap .fltSetq [l0, h0] rfl, hmap .fltSetgain [l0, h0] rfl,
    hmap .fltProcess [l0, h0] rfl, hmap .rdReg [] rfl, hmap .errClr [] rfl, joinWords_low h0 l0, joinWords_high h0 l0⟩

/-- Settles O6: `decode_cons_congr`, the bits used being those the clauses name; and `decode_cons_append` for the three commands
that take the field. -/
theorem immediateFieldUse : Obligations.ImmediateFieldUse := by
  refine ⟨fun w w' rest hopc htopo hfull => decode_cons_congr rest hopc fun o ho => ?_, fun w rest hw => ?_, fun w rest hw => ?_,
    fun w rest hw => ?_⟩
  · cases o with
    | bqSettopo => rw [← setWidth_topologyField, ← setWidth_topologyField, htopo ho]
    | fltSetalg => rw [hfull (.inl ho)]
    | rdReg => rw [hfull (.inr ho)]
    | _ => exact BitVec.and_zero.trans BitVec.and_zero.symm
  · exact ⟨_, decode_cons_append (o := .bqSettopo) [] rest hw rfl, Topology.code_ofCode _⟩
  · exact decode_cons_append (o := .fltSetalg) [] rest hw rfl
  · exact decode_cons_append (o := .rdReg) [] rest hw rfl

/-! ### RSV and the step (R71) -/

theorem recomputeIfDirty_withStream (ws : List Word) (s : State) :
    recomputeIfDirty { s with stream := ws } = { recomputeIfDirty s with stream := ws } := by
  unfold recomputeIfDirty
  by_cases hd : s.dirty = true
  · rw [if_pos hd, if_pos hd]
    rfl
  · rw [if_neg hd, if_neg hd]

theorem runFilter_withStream (x : F64) (ws : List Word) (s : State) :
    runFilter x { s with stream := ws } = ((runFilter x s).1, { (runFilter x s).2 with stream := ws }) := by
  simp only [runFilter, recomputeIfDirty_withStream]
  rfl

/-- A command does the same whatever words the stream holds: none reads them. -/
theorem exec_withStream {i : Instr} {s t : State} (ws : List Word) (h : exec i s = .next t) :
    exec i { s with stream := ws } = .next { t with stream := ws } := by
  cases i with
  | fltProcess x =>
    cases h
    simp only [exec, execFltProcess, runFilter_withStream]
    rfl
  | rdReg n =>
    rw [exec_rdReg] at h
    cases h
    exact exec_rdReg n _
  | _ =>
    cases h
    rfl

/-- A step takes from the stream what the decoder reads there and the count of the words held, nothing else. -/
theorem step_withStream {s t : State} {ws : List Word} (hd : decode (unconsumed { s with stream := ws }) = decode (unconsumed s))
    (hlen : (unconsumed { s with stream := ws }).length = (unconsumed s).length) (h : step s = .next t) :
    step { s with stream := ws } = .next { t with stream := ws } := by
  obtain ⟨hrst, rfl⟩ | ⟨hrst, i, rest, hi, hexec⟩ | ⟨hrst, c, hc, rfl⟩ | ⟨hrst, got, need, hpart, rfl⟩ := step_cases h
  · exact step_rst hrst
  · exact (step_command (s := { s with stream := ws }) hrst (hd.trans hi)).trans (exec_withStream ws hexec)
  · exact step_unassigned hrst (hd.trans hc)
  · rw [step_incomplete (s := { s with stream := ws }) hrst (hd.trans hpart), holdPartial, holdPartial, hlen]

/-- Settles O5: the two words decode alike (`decode_cons_congr`), so the two streams step alike (`step_withStream`). -/
theorem reservedBitsIgnored : Obligations.ReservedBitsIgnored := by
  intro s w w' rest hopc himm
  obtain ⟨t, ht⟩ := exists_step_next { s with stream := w :: rest, pos := 0 }
  have hd : decode (w' :: rest) = decode (w :: rest) := (decode_cons_congr rest hopc fun _ _ => by rw [himm]).symm
  exact ⟨t, ht, step_withStream (s := { s with stream := w :: rest, pos := 0 }) hd rfl ht⟩

/-! ### The worked encodings (R83) -/

theorem decode_of_encode {i : Instr} {ws : List Word} (h : encode i = ws) : decode ws = .ok (i, []) := h ▸ decode_encode i

/-- Settles O4: the three literals are rounded, each command is encoded, and its words decode to it (`decode_encode`). -/
theorem workedEncodings : Obligations.WorkedEncodings := by
  have hq : Asm.decimalValue false 707 (-3) = 0x3FE69FBE76C8B439 := by decide +kernel
  have hone : Asm.decimalValue false 10 (-1) = 0x3FF0000000000000 := by decide +kernel
  have hfs : Asm.decimalValue false 48000 0 = 0x40E7700000000000 := by decide +kernel
  unfold Obligations.WorkedEncodings
  rw [hq, hone, hfs]
  have hboth {i : Instr} {ws : List Word} (h : encode i = ws) : encode i = ws ∧ decode ws = .ok (i, []) :=
    ⟨h, decode_of_encode h⟩
  exact ⟨hboth rfl, hboth rfl, hboth rfl, hboth rfl, hboth rfl, hboth rfl⟩

/-! ### Pseudo-commands (R82) -/

/-- Settles O8: each line is assembled; the two expansions with operands hold by definition. -/
theorem pseudoCommandExpansions : Obligations.PseudoCommandExpansions := by
  refine ⟨?_, ?_, fun _ _ _ _ _ => ⟨rfl, rfl⟩, ⟨?_, ?_, ?_, ?_⟩, ?_, ?_, ?_, ?_⟩ <;> decide +kernel

end Sys2Proof.Machine
end

section
/-! PROOF. The four topologies in exact arithmetic (R101, 41_biquad.md): each history is the image of one delay line, and a step
of any topology is a shift of that line with the same output. -/

namespace Sys2Proof.Machine

section

variable {R : Type} [CommRing R] (c : CoefsOf R)

/-- What the all-pole part `1 / (1 + b1·z⁻¹ + b2·z⁻²)` gives for an input and its last results, newest first in `d`. -/
def allPole (d : HistoryOf R) (x : R) : R := x - c.b1 * d.s1 - c.b2 * d.s2

/-- The output, formed from the newest result of the all-pole part and the two before it. -/
def allZero (w w1 w2 : R) : R := c.a0 * w + c.a1 * w1 + c.a2 * w2

/-- The delay line after one more sample. -/
def shiftLine (d : HistoryOf R) (x : R) : HistoryOf R := ⟨allPole c d x, d.s1, d.s2, d.s3⟩

/-- The history of each topology whose all-pole part has given the last four results `d`: the inputs and outputs that belong to
them under Direct, the results themselves under Canonical, and the sums still to be output under the transposed two. -/
def lineHistory (t : Topology) (d : HistoryOf R) : HistoryOf R :=
  let x1 := d.s1 + c.b1 * d.s2 + c.b2 * d.s3
  let x2 := d.s2 + c.b1 * d.s3 + c.b2 * d.s4
  let y1 := allZero c d.s1 d.s2 d.s3
  let y2 := allZero c d.s2 d.s3 d.s4
  match t with
  | .direct => ⟨x1, x2, y1, y2⟩
  | .canonical => ⟨d.s1, d.s2, 0, 0⟩
  | .transposeDirect => ⟨c.a1 * d.s1 + c.a2 * d.s2, c.a2 * d.s1, -(c.b1 * d.s1) - c.b2 * d.s2, -(c.b2 * d.s1)⟩
  | .transposeCanonical => ⟨c.a1 * x1 - c.b1 * y1 + (c.a2 * x2 - c.b2 * y2), c.a2 * x1 - c.b2 * y1, 0, 0⟩

theorem lineHistory_zero (t : Topology) : lineHistory c t ⟨0, 0, 0, 0⟩ = ⟨0, 0, 0, 0⟩ := by
  cases t <;> simp [lineHistory, allZero]

/-- A step of any topology on the history of a delay line outputs from the line and leaves the history of the shifted line. -/
theorem stepTopology_exactArith (t : Topology) (d : HistoryOf R) (x : R) :
    stepTopology (exactArith R) t c (lineHistory c t d) x =
      pure (allZero c (allPole c d x) d.s1 d.s2, lineHistory c t (shiftLine c d x)) := by
  cases t with
  | canonical => rfl
  | direct | transposeDirect | transposeCanonical =>
    simp only [stepTopology, stepDirect, stepTransposeDirect, stepTransposeCanonical, exactArith, pure_bind, lineHistory,
      shiftLine, allPole, allZero]
    congr 2
    · ring
    · congr 1 <;> ring

/-- On the histories of one delay line any two topologies give the same outputs, by induction on the samples. -/
theorem topologyOutputs_exactArith (t u : Topology) (xs : List R) (d : HistoryOf R) :
    topologyOutputs (exactArith R) t c (lineHistory c t d) xs = topologyOutputs (exactArith R) u c (lineHistory c u d) xs := by
  induction xs generalizing d with
  | nil => rfl
  | cons x xs ih => simp only [topologyOutputs, stepTopology_exactArith, pure_bind, ih]

end

/-- Settles O29: zero history is the history of the delay line of zeros under every topology. -/
theorem topologiesAgreeExactly : Obligations.TopologiesAgreeExactly := by
  intro R _ c t u xs
  have hagree := topologyOutputs_exactArith c t u xs ⟨0, 0, 0, 0⟩
  rw [lineHistory_zero, lineHistory_zero] at hagree
  rw [exactOutputs, exactOutputs, hagree]

end Sys2Proof.Machine
end

section
/-! PROOF. The biquad core commands (R90 to R100, 41_biquad.md): BQ.PROCESS under each topology, the output flush, and the
commands that clear the history, replace the coefficients and select the topology. -/

namespace Sys2Proof.Machine

/-! ### What a recurrence yields, up to NaN bits (R10) -/

/-- From any free-value index the recurrence gives an output and a history that satisfy `P`. -/
def Yields (m : FpM (F64 × History)) (P : F64 → History → Prop) : Prop := ∀ n, P (Fp.eval m n).1.1 (Fp.eval m n).1.2

section

variable {P : F64 → History → Prop}

theorem Yields.pure {y : F64} {h : History} (hP : P y h) : Yields (Pure.pure (y, h)) P := fun _ => hP

theorem Yields.bind {m : FpM F64} {v : F64} {f : F64 → FpM (F64 × History)} (hm : Gives m v)
    (hf : ∀ a, Same a v → Yields (f a) P) : Yields (m >>= f) P := fun n => hf _ (hm n) _

end

/-! ### The recurrences (R96 to R99) -/

section

variable (c : Coefs) (h : History) (x : F64)

theorem stepDirect_yields : Yields (stepDirect f64Arith c h x) fun y h' =>
    h' = ⟨x, h.s1, y, h.s3⟩ ∧
    Same y (flush
      (Plain.sub
        (Plain.sub
          (Plain.add (Plain.add (Plain.mul c.a0 x) (Plain.mul c.a1 h.s1)) (Plain.mul c.a2 h.s2))
          (Plain.mul c.b1 h.s3))
        (Plain.mul c.b2 h.s4))) :=
  .bind (Same.mul_plain (.refl _) (.refl _)) fun _ p => .bind (Same.mul_plain (.refl _) (.refl _)) fun _ q =>
  .bind (Same.add_plain p q) fun _ p => .bind (Same.mul_plain (.refl _) (.refl _)) fun _ q =>
  .bind (Same.add_plain p q) fun _ p => .bind (Same.mul_plain (.refl _) (.refl _)) fun _ q =>
  .bind (Same.sub_plain p q) fun _ p => .bind (Same.mul_plain (.refl _) (.refl _)) fun _ q =>
  .bind (Same.sub_plain p q) fun _ hy => .pure ⟨rfl, flush_same hy⟩

theorem stepCanonical_yields : Yields (stepCanonical f64Arith c h x) fun y h' =>
    h' = ⟨h'.s1, h.s1, h.s3, h.s4⟩ ∧
    Same h'.s1 (Plain.sub (Plain.sub x (Plain.mul c.b1 h.s1)) (Plain.mul c.b2 h.s2)) ∧
    Same y (flush
      (Plain.add (Plain.add (Plain.mul c.a0 h'.s1) (Plain.mul c.a1 h.s1)) (Plain.mul c.a2 h.s2))) :=
  .bind (Same.mul_plain (.refl _) (.refl _)) fun _ q => .bind (Same.sub_plain (.refl _) q) fun _ p =>
  .bind (Same.mul_plain (.refl _) (.refl _)) fun _ q => .bind (Same.sub_plain p q) fun _ w =>
  .bind (Same.mul_plain (.refl _) (.refl _)) fun _ p => .bind (Same.mul_plain (.refl _) (.refl _)) fun _ q =>
  .bind (Same.add_plain p q) fun _ p => .bind (Same.mul_plain (.refl _) (.refl _)) fun _ q =>
  .bind (Same.add_plain p q) fun _ hy => .pure ⟨rfl, w, flush_same hy⟩

theorem stepTransposeDirect_yields : Yields (stepTransposeDirect f64Arith c h x) fun y h' =>
    let w := Plain.add x h.s3
    Same y (flush (Plain.add (Plain.mul c.a0 w) h.s1)) ∧
    Same h'.s3 (Plain.sub h.s4 (Plain.mul c.b1 w)) ∧
    Same h'.s4 (Fp.neg (Plain.mul c.b2 w)) ∧
    Same h'.s1 (Plain.add h.s2 (Plain.mul c.a1 w)) ∧
    Same h'.s2 (Plain.mul c.a2 w) :=
  .bind (Same.add_plain (.refl _) (.refl _)) fun _ w => .bind (Same.mul_plain (.refl _) w) fun _ p =>
  .bind (Same.add_plain p (.refl _)) fun _ hy => .bind (Same.mul_plain (.refl _) w) fun _ p =>
  .bind (Same.sub_plain (.refl _) p) fun _ s3 => .bind (Same.mul_plain (.refl _) w) fun _ s4 =>
  .bind (Same.mul_plain (.refl _) w) fun _ p => .bind (Same.add_plain (.refl _) p) fun _ s1 =>
  .bind (Same.mul_plain (.refl _) w) fun _ s2 => .pure ⟨flush_same hy, s3, s4.neg, s1, s2⟩

theorem stepTransposeCanonical_yields : Yields (stepTransposeCanonical f64Arith c h x) fun y h' =>
    h' = ⟨h'.s1, h'.s2, h.s3, h.s4⟩ ∧
    Same y (flush (Plain.add (Plain.mul c.a0 x) h.s1)) ∧
    Same h'.s1 (Plain.add (Plain.sub (Plain.mul c.a1 x) (Plain.mul c.b1 y)) h.s2) ∧
    Same h'.s2 (Plain.sub (Plain.mul c.a2 x) (Plain.mul c.b2 y)) :=
  .bind (Same.mul_plain (.refl _) (.refl _)) fun _ p => .bind (Same.add_plain p (.refl _)) fun _ hy =>
  .bind (Same.mul_plain (.refl _) (.refl _)) fun _ p => .bind (Same.mul_plain (.refl _) (.refl _)) fun _ q =>
  .bind (Same.sub_plain p q) fun _ p => .bind (Same.add_plain p (.refl _)) fun _ s1 =>
  .bind (Same.mul_plain (.refl _) (.refl _)) fun _ p => .bind (Same.mul_plain (.refl _) (.refl _)) fun _ q =>
  .bind (Same.sub_plain p q) fun _ s2 => .pure ⟨rfl, flush_same hy, s1, s2⟩

end

/-! ### BQ.PROCESS (R93) -/

/-- BQ.PROCESS writes the history, one response and the free-value counter, with what the recurrence that TOPO selects yields. -/
theorem exec_bqProcess_yields {s : State} {x : F64} {t : Topology} {P : F64 → History → Prop} (ht : s.topo = t)
    (hP : Yields (biquadStep t s.coef s.hist x) P) :
    ∃ y h n, exec (.bqProcess x) s = .next { s with
      hist := h, responses := s.responses ++ [y.extractLsb' 0 32, y.extractLsb' 32 32], nanIx := n } ∧ P y h := by
  subst ht
  exact ⟨_, _, _, rfl, hP s.nanIx⟩

/-- Settles O24: the recurrence is followed operation by operation in `stepDirect_yields`. -/
theorem processUnderDirect : Obligations.ProcessUnderDirect := by
  intro s x ht
  obtain ⟨y, h, n, hexec, rfl, hy⟩ := exec_bqProcess_yields ht (stepDirect_yields s.coef s.hist x)
  exact ⟨y, n, hexec, hy⟩

/-- Settles O25, by `stepCanonical_yields`: its `w` is the new S1. -/
theorem processUnderCanonical : Obligations.ProcessUnderCanonical := by
  intro s x ht
  obtain ⟨y, h, n, hexec, hh, hw, hy⟩ := exec_bqProcess_yields ht (stepCanonical_yields s.coef s.hist x)
  exact ⟨h.s1, y, n, hh ▸ hexec, hw, hy⟩

/-- Settles O26, by `stepTransposeDirect_yields`. -/
theorem processUnderTransposeDirect : Obligations.ProcessUnderTransposeDirect := by
  intro s x ht
  obtain ⟨y, h, n, hexec, hvalues⟩ := exec_bqProcess_yields ht (stepTransposeDirect_yields s.coef s.hist x)
  exact ⟨y, h, n, hexec, hvalues⟩

/-- Settles O27, by `stepTransposeCanonical_yields`. -/
theorem processUnderTransposeCanonical : Obligations.ProcessUnderTransposeCanonical := by
  intro s x ht
  obtain ⟨y, h, n, hexec, hh, hvalues⟩ := exec_bqProcess_yields ht (stepTransposeCanonical_yields s.coef s.hist x)
  exact ⟨y, h.s1, h.s2, n, hh ▸ hexec, hvalues⟩

/-! ### The output flush (R100) -/

/-- A value that is not finite is a NaN or an infinity. -/
theorem Fp.isNaN_or_eq_infinity {v : F64} (h : Fp.isFinite v = false) : Fp.isNaN v = true ∨ ∃ n, v = Fp.infinity n := by
  have hexp : Fp.expField v = 2047 := by simpa [Fp.isFinite] using h
  by_cases hfrac : Fp.fracField v = 0
  · have hmag : v.toNat % 2 ^ 63 = Fp.infMagnitude := by
      unfold Fp.expField at hexp
      unfold Fp.fracField at hfrac
      unfold Fp.infMagnitude
      omega
    exact .inr ⟨Fp.signBit v, by rw [Fp.infinity, ← hmag, Fp.pack_self]⟩
  · exact .inl (by simp [Fp.isNaN, hexp, hfrac])

/-- The test of the flush on a finite value, as one on its number. -/
theorem flushWith_true_of_isFinite {y : F64} (hy : Fp.isFinite y = true) :
    flushWith true y = if toRat y ≠ 0 ∧ |toRat y| < toRat Fp.tFlush then Fp.zero else y := by
  have hzero : Fp.isFinite Fp.zero = true := by decide
  have hT : Fp.isFinite Fp.tFlush = true := by decide
  have hnegT : Fp.isFinite (Fp.neg Fp.tFlush) = true := by decide
  have htest : ((0 < toRat y ∧ toRat y < toRat Fp.tFlush) ∨ (toRat y < 0 ∧ -toRat Fp.tFlush < toRat y)) ↔
      toRat y ≠ 0 ∧ |toRat y| < toRat Fp.tFlush := by
    grind [abs_lt]
  simp only [flushWith, Bool.and_true, Bool.or_eq_true, Bool.and_eq_true, Fp.lt_iff_toRat hzero hy, Fp.lt_iff_toRat hy hT,
    Fp.lt_iff_toRat hy hzero, Fp.lt_iff_toRat hnegT hy, Fp.toRat_neg hT, Fp.toRat_of_isZero (z := Fp.zero) (by decide), htest]

/-- Infinities and NaNs are kept. -/
theorem flushWith_true_of_not_isFinite {y : F64} (hy : Fp.isFinite y = false) : flushWith true y = y := by
  obtain hnan | ⟨n, rfl⟩ := Fp.isNaN_or_eq_infinity hy
  · simp [flushWith, Fp.lt, hnan]
  · cases n <;> decide

/-- Settles O28: the test of the flush is one on the number of a finite value (`flushWith_true_of_isFinite`). -/
theorem flushRule : Obligations.FlushRule := by
  refine ⟨fun y => ?_, fun y hy hne hlt => ?_, fun y hy hkeep => ?_, fun _ => flushWith_true_of_not_isFinite, fun _ => rfl⟩
  · simp [flushWith]
  · rw [flushWith_true_of_isFinite hy, if_pos ⟨hne, hlt⟩]
    rfl
  · rw [flushWith_true_of_isFinite hy, if_neg]
    rintro ⟨hne, hlt⟩
    exact hkeep.elim hne hlt.not_ge

/-! ### BQ.RESET, FLT.RESET, BQ.SETCOEF and BQ.SETTOPO (R90 to R92, R124) -/

/-- Settles O21: both commands are `clearHistory`. -/
theorem historyResets : Obligations.HistoryResets := fun _ => ⟨rfl, rfl⟩

/-- Settles O22: the command writes the coefficient set as one value. -/
theorem setcoefReplacesTheSet : Obligations.SetcoefReplacesTheSet := fun _ _ _ _ _ _ _ _ => rfl

/-- Settles O23: the word decodes by `decode_cons_append`, and TOPO reads back as the code of the topology it selects. -/
theorem settopoSelectsTopology : Obligations.SettopoSelectsTopology := by
  intro w rest s hw
  refine ⟨Topology.ofCode (w.extractLsb' 0 2), decode_cons_append (o := .bqSettopo) [] rest hw rfl, rfl, ?_⟩
  have hread := readNumber_number .topo { s with topo := Topology.ofCode (w.extractLsb' 0 2) }
  exact hread.trans (congrArg (BitVec.setWidth 64) (Topology.code_ofCode _))

end Sys2Proof.Machine
end

section
/-! PROOF. The filter commands (R120 to R129, 42_filter.md): FLT.PREPARE, the four setters of a parameter, and FLT.PROCESS. -/

namespace Sys2Proof.Machine

/-! ### FLT.SETALG, FLT.SETFC, FLT.SETQ and FLT.SETGAIN (R122, R125 to R128) -/

/-- The mark of a change, as the choice that R122 states. -/
theorem or_bne_eq_ite {α : Type} [DecidableEq α] (dirty : Bool) (new old : α) :
    (dirty || new != old) = if new = old then dirty else true := by
  by_cases h : new = old
  · simp [h]
  · simp [h]

/-- Settles O33: each setter writes its register and `markChanged` of the change. -/
theorem settersStoreAndMark : Obligations.SettersStoreAndMark := by
  intro a v s
  simp only [← or_bne_eq_ite]
  exact ⟨rfl, rfl, rfl⟩

/-- The bit patterns that are `≤ 0.0`: +0.0, and from −0.0 through the negative values to −Infinity (R9, R127). -/
theorem Fp.le_zero_iff_toNat (v : F64) :
    Fp.le v Fp.zero = true ↔
      v.toNat = 0 ∨ (0x8000000000000000 ≤ v.toNat ∧ v.toNat ≤ 0xFFF0000000000000) := by
  have hzero : Fp.isNaN Fp.zero = false ∧ Fp.orderKey Fp.zero = 0 := by decide
  have hlt := v.isLt
  have hle : Fp.le v Fp.zero = true ↔
      ¬(Fp.expField v = 2047 ∧ Fp.fracField v ≠ 0) ∧ Fp.orderKey v ≤ 0 := by
    simp [Fp.le, hzero, ← Fp.isNaN_iff]
  rw [hle, Fp.orderKey, Fp.signedInt, Fp.signBit, BitVec.msb_eq_decide, Fp.expField, Fp.fracField]
  simp only [decide_eq_true_eq]
  split <;> omega

/-- FLT.SETQ stores the operand after the substitution and marks the change. -/
theorem exec_fltSetq (v : F64) (s : State) :
    exec (.fltSetq v) s =
      .next { s with q := substituteQ v, dirty := if s.q = substituteQ v then s.dirty else true } := by
  simp only [eq_comm (a := s.q), ← or_bne_eq_ite]
  rfl

/-- Settles O34: the two ranges of bit patterns are the two cases of the test `≤ 0.0` (`Fp.le_zero_iff_toNat`). -/
theorem setqSubstitutesNonPositive : Obligations.SetqSubstitutesNonPositive := by
  intro v s
  rw [exec_fltSetq, substituteQ]
  constructor
  · intro h
    rw [if_pos ((Fp.le_zero_iff_toNat v).2 h)]
    rfl
  · intro h
    rw [if_neg (by rw [Fp.le_zero_iff_toNat]; omega)]

/-! ### The recompute (R120, R150) -/

/-- `recompute` writes the coefficients, DIRTY and the free-value counter only. -/
theorem recompute_frame (s : State) :
    recompute s = { s with coef := (recompute s).coef, dirty := false, nanIx := (recompute s).nanIx } := rfl

/-- `recompute` loads `Derive` of the parameters, up to NaN bits. -/
theorem recompute_coef_same (s : State) :
    SameCoefs (recompute s).coef (Plain.derive s.alg s.fc s.q s.gain s.fs) := by
  rw [recompute_coef]
  exact deriveWith_same _ _ _ _ _ _ _ _

theorem recomputeIfDirty_of_clean {s : State} (h : s.dirty = false) : recomputeIfDirty s = s := by
  simp [recomputeIfDirty, h]

theorem recomputeIfDirty_of_dirty {s : State} (h : s.dirty = true) : recomputeIfDirty s = recompute s := by
  simp [recomputeIfDirty, h]

/-! ### FLT.PREPARE (R123) -/

/-- Settles O32: the coefficients are those of `recompute` on the state with the new FS and the history cleared. -/
theorem prepareRecomputes : Obligations.PrepareRecomputes := by
  intro v s
  have hcoef := recompute_coef_same (clearHistory { s with fs := v })
  have hexec : exec (.fltPrepare v) s = .next (setPrepared (recompute (clearHistory { s with fs := v }))) := rfl
  rw [hexec, recompute_frame]
  exact ⟨_, _, rfl, hcoef⟩

/-! ### FLT.PROCESS (R129) -/

/-- The biquad step on the registers gives the output and the history of `BiquadStep`, up to NaN bits (R95). -/
theorem runBiquad_same (x : F64) (s : State) :
    Same (runBiquad x s).1 (Plain.biquadStep s.topo s.coef s.hist x).1 ∧
      SameHistory (runBiquad x s).2.hist (Plain.biquadStep s.topo s.coef s.hist x).2 :=
  biquadStep_same s.topo (.refl _) (.refl _) (.refl x) _ _

/-- The mix gives `(D0·x) + (C0·b)`, up to NaN bits. -/
theorem mixDryWet_gives (d0 c0 x b : F64) :
    Gives (mixDryWet d0 c0 x b) (Plain.add (Plain.mul d0 x) (Plain.mul c0 b)) := by
  intro n
  simp only [mixDryWet, Fp.eval_bind]
  with_reducible exact Same.add_plain (.mul_plain (.refl _) (.refl _) _) (.mul_plain (.refl _) (.refl _) _) _

/-- Settles O35: what FLT.PROCESS writes is `runFilter_frame`; the values are those of the recompute, of the biquad step that
follows it, and of the mix with the coefficients then in force. -/
theorem processRecomputesAndMixes : Obligations.ProcessRecomputesAndMixes := by
  intro x s
  have hexec : exec (.fltProcess x) s = .next (respWrite (runFilter x s).1 (runFilter x s).2) := rfl
  obtain ⟨hb, hh⟩ := runBiquad_same x (recomputeIfDirty s)
  rw [recomputeIfDirty_topo, recomputeIfDirty_hist] at hb hh
  rw [hexec, runFilter_frame]
  refine ⟨_, _, _, _, _, rfl, fun hd => ?_, fun hd => ?_, hb, hh, ?_⟩
  · rw [recomputeIfDirty_of_dirty hd]
    exact recompute_coef_same s
  · rw [recomputeIfDirty_of_clean hd]
  · rw [runFilter_result]
    exact mixDryWet_gives _ _ _ _ _

end Sys2Proof.Machine
end

section
/-! PROOF. The pass-through set (R182): unrecognized codes give it, and it returns every finite sample, equal as a real
(R100; C7 of 90_conflicts.md). -/

namespace Sys2Proof.Machine

/-! ### Unrecognized codes (R77, R182) -/

theorem Algorithm.code_lt (a : Algorithm) : a.code.toNat < 29 := by cases a <;> decide

theorem Algorithm.ofCode?_eq_none {c : BitVec 8} (h : 29 ≤ c.toNat) : Algorithm.ofCode? c = none := by
  rw [Algorithm.ofCode?, List.find?_eq_none]
  intro a _ hc
  have hlt := Algorithm.code_lt a
  rw [eq_of_beq hc] at hlt
  omega

theorem deriveWith_unrecognized {alg : BitVec 8} (h : Algorithm.ofCode? alg = none) (cq : CqMix) (fc q g fs : F64) :
    deriveWith cq alg fc q g fs = pure passThrough := by
  rw [deriveWith, h]

/-- Settles O49: such a code names no algorithm, and `Derive` then computes nothing. -/
theorem unrecognizedCodesPassThrough : Obligations.UnrecognizedCodesPassThrough := by
  intro alg fc q g fs n h
  rw [derive, deriveWith_unrecognized (Algorithm.ofCode?_eq_none h), Fp.eval_pure]
  rfl

/-! ### Operations whose exact result is one of their operands (R9) -/

/-- `v` is finite and stands for the number `x`. -/
def Fp.IsNumber (v : F64) (x : ℚ) : Prop := Fp.isFinite v = true ∧ toRat v = x

theorem Fp.isNumber_zero : Fp.IsNumber Fp.zero 0 := ⟨by decide, Fp.toRat_of_isZero (by decide)⟩

theorem Fp.isNumber_one : Fp.IsNumber Fp.one 1 := ⟨by decide, Fp.toRat_one⟩

/-- NaN bits aside, a finite value is that value. -/
theorem Fp.IsNumber.of_same {a b : F64} {x : ℚ} (hb : Fp.IsNumber b x) (h : Same a b) : Fp.IsNumber a x := by
  obtain rfl | ⟨-, hnan⟩ := h
  · exact hb
  · rw [Fp.isNaN_of_isFinite hb.1] at hnan
    cases hnan

/-- A number that some finite value stands for is rounded to a value that stands for it. -/
theorem CorrectlyRounded.isNumber {v r : F64} {x y : ℚ} (hv : Fp.IsNumber v x) (hxy : y = x) (h : CorrectlyRounded y r) :
    Fp.IsNumber r x := by
  obtain ⟨hfin, rfl⟩ := hv
  exact CorrectlyRounded.exact hfin (hxy ▸ h)

section

variable {a b : F64} {x : ℚ}

theorem Plain.add_number_zero (ha : Fp.IsNumber a x) (hb : Fp.IsNumber b 0) : Fp.IsNumber (Plain.add a b) x := by
  obtain ⟨r, hr, hround, -⟩ := Fp.addCore_correct ha.1 hb.1
  rw [Plain.add, hr, Option.getD_some]
  exact hround.isNumber ha (by rw [ha.2, hb.2, add_zero])

theorem Plain.add_zero_number (ha : Fp.IsNumber a 0) (hb : Fp.IsNumber b x) : Fp.IsNumber (Plain.add a b) x := by
  obtain ⟨r, hr, hround, -⟩ := Fp.addCore_correct ha.1 hb.1
  rw [Plain.add, hr, Option.getD_some]
  exact hround.isNumber hb (by rw [ha.2, hb.2, zero_add])

theorem Plain.sub_number_zero (ha : Fp.IsNumber a x) (hb : Fp.IsNumber b 0) : Fp.IsNumber (Plain.sub a b) x := by
  obtain ⟨r, hr, hround, -⟩ := Fp.subCore_correct ha.1 hb.1
  rw [Plain.sub, hr, Option.getD_some]
  exact hround.isNumber ha (by rw [ha.2, hb.2, sub_zero])

theorem Plain.one_mul_number (hb : Fp.IsNumber b x) : Fp.IsNumber (Plain.mul Fp.one b) x := by
  obtain ⟨r, hr, hround, -⟩ := Fp.mulCore_correct Fp.isNumber_one.1 hb.1
  rw [Plain.mul, hr, Option.getD_some]
  exact hround.isNumber hb (by rw [Fp.toRat_one, hb.2, one_mul])

theorem Plain.zero_mul_finite (hb : Fp.isFinite b = true) : Fp.IsNumber (Plain.mul Fp.zero b) 0 := by
  obtain ⟨r, hr, hround, -⟩ := Fp.mulCore_correct Fp.isNumber_zero.1 hb
  rw [Plain.mul, hr, Option.getD_some]
  exact hround.isNumber Fp.isNumber_zero (by rw [Fp.isNumber_zero.2, zero_mul])

end

/-! ### The biquad step with the pass-through set (R96 to R100) -/

/-- The flush looks at the number of a finite value only. -/
theorem Fp.IsNumber.flush {x y : F64} (hx : Fp.isFinite x = true) (hy : Fp.IsNumber y (toRat x)) :
    Fp.isFinite (flush x) = true ∧ Fp.IsNumber (flush y) (toRat (flush x)) := by
  obtain ⟨hy, hyx⟩ := hy
  unfold Machine.flush
  cases Config.underflowFlush with
  | false => simpa [flushWith, hx] using ⟨hy, hyx⟩
  | true =>
    rw [flushWith_true_of_isFinite hx, flushWith_true_of_isFinite hy, hyx]
    split
    · exact ⟨Fp.isNumber_zero.1, Fp.isNumber_zero.1, rfl⟩
    · exact ⟨hx, hy, hyx⟩

/-- A history whose slots do not reach the output of the pass-through set: any finite one in Direct and Canonical, which
multiply each slot by zero, and zero history in the others, which add a slot to the output. -/
def HistoryUnheard (t : Topology) (h : History) : Prop :=
  h = ⟨0, 0, 0, 0⟩ ∨ ((t = .direct ∨ t = .canonical) ∧ Fp.isFinite h.s1 = true ∧ Fp.isFinite h.s2 = true ∧
    Fp.isFinite h.s3 = true ∧ Fp.isFinite h.s4 = true)

theorem HistoryUnheard.finite {t : Topology} {h : History} (hh : HistoryUnheard t h) :
    Fp.isFinite h.s1 = true ∧ Fp.isFinite h.s2 = true ∧ Fp.isFinite h.s3 = true ∧ Fp.isFinite h.s4 = true := by
  obtain rfl | ⟨-, hfin⟩ := hh
  · decide
  · exact hfin

theorem HistoryUnheard.eq_zero {t : Topology} {h : History} (hh : HistoryUnheard t h) (hd : t ≠ .direct)
    (hc : t ≠ .canonical) : h = ⟨0, 0, 0, 0⟩ := by
  obtain hz | ⟨rfl | rfl, -⟩ := hh
  · exact hz
  · exact absurd rfl hd
  · exact absurd rfl hc

/-- The step outputs its input, flushed: the other products are zeros. -/
theorem biquadStep_passThrough {t : Topology} {h : History} {x : F64} (hh : HistoryUnheard t h)
    (hx : Fp.isFinite x = true) :
    Yields (biquadStep t passThrough h x) fun y _ => Fp.IsNumber y (toRat (flush x)) := by
  intro n
  obtain ⟨h1, h2, h3, h4⟩ := hh.finite
  have hxn : Fp.IsNumber x (toRat x) := ⟨hx, rfl⟩
  have z1 := Plain.zero_mul_finite h1
  have z2 := Plain.zero_mul_finite h2
  have z3 := Plain.zero_mul_finite h3
  have z4 := Plain.zero_mul_finite h4
  cases t with
  | direct =>
    obtain ⟨-, hy⟩ := stepDirect_yields passThrough h x n
    refine Fp.IsNumber.of_same (Fp.IsNumber.flush hx ?_).2 hy
    exact Plain.sub_number_zero (Plain.sub_number_zero
      (Plain.add_number_zero (Plain.add_number_zero (Plain.one_mul_number hxn) z1) z2) z3) z4
  | canonical =>
    obtain ⟨-, hw, hy⟩ := stepCanonical_yields passThrough h x n
    have hw := Fp.IsNumber.of_same (Plain.sub_number_zero (Plain.sub_number_zero hxn z1) z2) hw
    refine Fp.IsNumber.of_same (Fp.IsNumber.flush hx ?_).2 hy
    exact Plain.add_number_zero (Plain.add_number_zero (Plain.one_mul_number hw) z1) z2
  | transposeDirect =>
    obtain rfl := hh.eq_zero nofun nofun
    obtain ⟨hy, -⟩ := stepTransposeDirect_yields passThrough ⟨0, 0, 0, 0⟩ x n
    refine Fp.IsNumber.of_same (Fp.IsNumber.flush hx ?_).2 hy
    exact Plain.add_number_zero (Plain.one_mul_number (Plain.add_number_zero hxn Fp.isNumber_zero)) Fp.isNumber_zero
  | transposeCanonical =>
    obtain rfl := hh.eq_zero nofun nofun
    obtain ⟨-, hy, -⟩ := stepTransposeCanonical_yields passThrough ⟨0, 0, 0, 0⟩ x n
    refine Fp.IsNumber.of_same (Fp.IsNumber.flush hx ?_).2 hy
    exact Plain.add_number_zero (Plain.one_mul_number hxn) Fp.isNumber_zero

/-! ### FLT.PROCESS with the pass-through set (R129) -/

/-- The set is in force where DIRTY is clear and it is in the registers, or DIRTY is set and the code is unrecognized. -/
theorem recomputeIfDirty_passThrough {s : State} (hdirty : s.dirty = true → 29 ≤ s.alg.toNat)
    (hclean : s.dirty = false → s.coef = passThrough) : (recomputeIfDirty s).coef = passThrough := by
  cases hd : s.dirty with
  | false => rw [recomputeIfDirty_of_clean hd, hclean hd]
  | true =>
    rw [recomputeIfDirty_of_dirty hd, recompute_coef, derive,
      deriveWith_unrecognized (Algorithm.ofCode?_eq_none (hdirty hd)), Fp.eval_pure]

theorem runFilter_passThrough {s : State} {x : F64} (hcoef : (recomputeIfDirty s).coef = passThrough)
    (hh : HistoryUnheard s.topo s.hist) (hx : Fp.isFinite x = true) :
    Fp.IsNumber (runFilter x s).1 (toRat (flush x)) := by
  have hb : Fp.IsNumber (runBiquad x (recomputeIfDirty s)).1 (toRat (flush x)) := by
    rw [runBiquad_result, recomputeIfDirty_topo, recomputeIfDirty_hist, hcoef]
    exact biquadStep_passThrough hh hx _
  rw [runFilter_result, hcoef]
  exact .of_same (Plain.add_zero_number (Plain.zero_mul_finite hx) (Plain.one_mul_number hb)) (mixDryWet_gives _ _ _ _ _)

/-- Settles O37: the biquad output is the flushed input (`biquadStep_passThrough`), and the mix adds a zero to it. -/
theorem passThroughIdentity : Obligations.PassThroughIdentity := by
  intro s x hdirty hclean hh hx
  obtain ⟨hfin, hy⟩ := runFilter_passThrough (recomputeIfDirty_passThrough hdirty hclean) hh hx
  have hexec : exec (.fltProcess x) s = .next (respWrite (runFilter x s).1 (runFilter x s).2) := rfl
  refine ⟨_, (runFilter x s).1, hexec, ?_, ?_⟩
  · rw [respWrite_responses, runFilter_responses, operandWords]
  · exact (Fp.feq_iff_toRat hfin (Fp.IsNumber.flush hx ⟨hx, rfl⟩).1).2 hy

end Sys2Proof.Machine
end

section
/-! PROOF. The frame of `Derive` (R150, R151, R183): the wet/dry pair of every code, and the parameters that a code reads. -/

namespace Sys2Proof.Machine

/-! ### Recognized codes (R77) -/

theorem Algorithm.code_of_ofCode? {c : BitVec 8} {a : Algorithm} (h : Algorithm.ofCode? c = some a) : a.code = c := by
  have hfound := List.find?_some h
  exact eq_of_beq hfound

/-! ### The wet/dry rule (R151) -/

theorem overridesMix_iff (cq : CqMix) (a : Algorithm) : overridesMix cq a = true ↔
    a.code = 13 ∨ a.code = 14 ∨ a.code = 15 ∨ (a.code = 16 ∧ cq = .doc) := by
  cases a <;> cases cq <;> decide

/-- `Derive` for a recognized code takes its wet/dry pair from `mixOf`. -/
theorem deriveWith_mix {cq : CqMix} {alg : BitVec 8} {a : Algorithm} (ha : Algorithm.ofCode? alg = some a)
    (fc q g fs : F64) (n : Nat) : ∃ m,
    (Fp.eval (deriveWith cq alg fc q g fs) n).1.c0 = (Fp.eval (mixOf cq a g) m).1.1 ∧
    (Fp.eval (deriveWith cq alg fc q g fs) n).1.d0 = (Fp.eval (mixOf cq a g) m).1.2 := by
  simp only [deriveWith, ha, Fp.eval_bind, Fp.eval_pure]
  exact ⟨_, rfl, rfl⟩

theorem mixOf_of_not_overridden {cq : CqMix} {a : Algorithm} (h : overridesMix cq a = false) (g : F64) (n : Nat) :
    (Fp.eval (mixOf cq a g) n).1 = (Fp.one, Fp.zero) := by
  rw [mixOf, h]
  rfl

/-- An overridden pair: the wet weight is the difference `mu − 1.0` as it is computed. -/
theorem mixOf_of_overridden {cq : CqMix} {a : Algorithm} (h : overridesMix cq a = true) (g : F64) (n : Nat) :
    (Fp.eval (mixOf cq a g) n).1 =
      ((Fp.eval (linearGain g >>= fun mu => Fp.sub mu Fp.one) n).1, Fp.one) := by
  rw [mixOf, h]
  rfl

/-- A zero gain over 20.0 is a zero. -/
theorem Fp.divCore_twenty_of_isZero {z : F64} (hz : Fp.isZero z = true) :
    Fp.divCore z Fp.twenty = some (Fp.signedZero z.msb) := by
  obtain ⟨m, e, hd, -⟩ := Fp.exists_datum_fin (Fp.isFinite_of_isZero hz)
  have hm : m = 0 := (Fp.toRat_eq_zero_iff hd).1 (Fp.toRat_of_isZero hz)
  have htwenty : Fp.datum Fp.twenty = .fin false (5 * 2 ^ 50) (-48) := by decide
  simp [Fp.divCore, hd, htwenty, hm]

/-- At zero gain `mu` is 1.0 and the wet weight +0.0, exactly. -/
theorem wet_of_isZero {g : F64} (hg : Fp.isZero g = true) (n : Nat) :
    (Fp.eval (linearGain g >>= fun mu => Fp.sub mu Fp.one) n).1 = Fp.zero := by
  have hzero : Fp.isZero (Fp.signedZero g.msb) = true := by cases g.msb <;> decide
  have hone : Fp.subCore Fp.one Fp.one = some Fp.zero := by decide
  simp only [linearGain, Fp.eval_bind, Fp.div, Fp.pow, Fp.sub, Fp.eval_settle_of_eq_some (Fp.divCore_twenty_of_isZero hg),
    Fp.eval_settle_of_eq_some (Fp.powCore_ten_zero hzero), Fp.eval_settle_of_eq_some hone]

/-- Settles O50, by what `mixOf` gives for the algorithm of the code; an unrecognized code has the pair of the pass-through
set. -/
theorem wetDryRule : Obligations.WetDryRule := by
  intro cq alg fc q g fs n c overridden
  cases ha : Algorithm.ofCode? alg with
  | none =>
    have hc : c = passThrough := by simp only [c, deriveWith_unrecognized ha, Fp.eval_pure]
    have hno : ¬ overridden := by
      rintro (rfl | rfl | rfl | ⟨rfl, -⟩) <;> exact absurd ha (by decide)
    exact ⟨fun _ => hc ▸ ⟨rfl, rfl⟩, fun h => absurd h hno, fun h => absurd h hno⟩
  | some a =>
    have hiff : overridesMix cq a = true ↔ overridden := by
      simp only [overridden, ← Algorithm.code_of_ofCode? ha, overridesMix_iff]
    obtain ⟨m, hwet, hdry⟩ := deriveWith_mix (cq := cq) ha fc q g fs n
    refine ⟨fun h => ?_, fun h => ?_, fun h hg => ?_⟩
    · rw [mixOf_of_not_overridden (Bool.eq_false_iff.2 (mt hiff.1 h))] at hwet hdry
      exact ⟨hwet, hdry⟩
    · obtain ⟨hsame, -⟩ := mixOf_overridden g (hiff.2 h) m
      rw [mixOf_of_overridden (hiff.2 h)] at hdry
      exact ⟨hwet ▸ hsame, hdry⟩
    · rw [mixOf_of_overridden (hiff.2 h), wet_of_isZero hg] at hwet
      exact hwet

/-! ### The parameters a code reads (R183) -/

/-- The algorithms whose row of R183 lists Q. -/
def readsQ : Algorithm → Bool
  | .lpf1p | .lpf1 | .hpf1 | .butterLpf2 | .butterHpf2 | .lowShelf | .hiShelf | .lwrLpf2 | .lwrHpf2 | .apf1
  | .impInvLp1 => false
  | _ => true

/-- The algorithms whose row of R183 lists GAIN. -/
def readsGain : Algorithm → Bool
  | .lowShelf | .hiShelf | .ncqParaEq | .cqParaEq => true
  | _ => false

theorem formula_q_unread {a : Algorithm} (h : readsQ a = false) (fc q q' g fs : F64) :
    formula a fc q g fs = formula a fc q' g fs := by
  cases a with
  | lpf1p | lpf1 | hpf1 | butterLpf2 | butterHpf2 | lowShelf | hiShelf | lwrLpf2 | lwrHpf2 | apf1 | impInvLp1 => rfl
  | _ => cases h

theorem formula_gain_unread {a : Algorithm} (h : readsGain a = false) (fc q g g' fs : F64) :
    formula a fc q g fs = formula a fc q g' fs := by
  cases a with
  | lowShelf | hiShelf | ncqParaEq | cqParaEq => cases h
  | _ => rfl

/-- A pair that is not overridden does not come from the gain. -/
theorem mixOf_gain_unread {a : Algorithm} (h : readsGain a = false) (cq : CqMix) (g g' : F64) :
    mixOf cq a g = mixOf cq a g' := by
  have hmix : overridesMix cq a = false := by
    cases a with
    | lowShelf | hiShelf | ncqParaEq | cqParaEq => cases h
    | _ => rfl
  simp only [mixOf, hmix, Bool.false_eq_true, if_false]

section

variable {alg : BitVec 8}

theorem derive_q_unread (h : ∀ a : Algorithm, a.code = alg → readsQ a = false) (fc q q' g fs : F64) :
    derive alg fc q g fs = derive alg fc q' g fs := by
  cases ha : Algorithm.ofCode? alg with
  | none => rw [derive, derive, deriveWith_unrecognized ha, deriveWith_unrecognized ha]
  | some a =>
    have hformula := formula_q_unread (h a (Algorithm.code_of_ofCode? ha)) fc q q' g fs
    simp only [derive, deriveWith, ha, hformula]

theorem derive_gain_unread (h : ∀ a : Algorithm, a.code = alg → readsGain a = false) (fc q g g' fs : F64) :
    derive alg fc q g fs = derive alg fc q g' fs := by
  cases ha : Algorithm.ofCode? alg with
  | none => rw [derive, derive, deriveWith_unrecognized ha, deriveWith_unrecognized ha]
  | some a =>
    have hreads := h a (Algorithm.code_of_ofCode? ha)
    simp only [derive, deriveWith, ha, formula_gain_unread hreads fc q g g' fs, mixOf_gain_unread hreads _ g g']

end

/-! The groups of R183 that leave a parameter out. -/

theorem readsNeither_of_code {a : Algorithm} (h : a.code.toNat ∈ [0, 1, 2, 7, 8, 17, 18, 19, 27]) :
    readsQ a = false ∧ readsGain a = false := by
  revert h
  cases a <;> decide

theorem readsGain_of_code {a : Algorithm}
    (h : a.code.toNat ∈ [3, 4, 5, 6, 9, 10, 11, 12, 20, 21, 22, 23, 24, 25, 26, 28]) : readsGain a = false := by
  revert h
  cases a <;> decide

theorem readsQ_of_code {a : Algorithm} (h : a.code.toNat ∈ [13, 14]) : readsQ a = false := by
  revert h
  cases a <;> decide

/-- Settles O51: the algorithm of a code in a group does not read the parameter, so no part of `Derive` does. -/
theorem unlistedParametersAreNotRead : Obligations.UnlistedParametersAreNotRead := by
  intro alg fc q g fs fc' q' g' fs' n
  refine ⟨fun h => ?_, fun h => ?_, fun h => ?_, fun h => ?_⟩
  · have hreads : ∀ a : Algorithm, a.code = alg → readsQ a = false ∧ readsGain a = false :=
      fun a ha => readsNeither_of_code (ha ▸ h)
    rw [derive_q_unread (fun a ha => (hreads a ha).1) fc q q' g fs,
      derive_gain_unread (fun a ha => (hreads a ha).2) fc q' g g' fs]
  · rw [derive_gain_unread (fun a ha => readsGain_of_code (ha ▸ h)) fc q g g' fs]
  · rw [derive_q_unread (fun a ha => readsQ_of_code (ha ▸ h)) fc q q' g fs]
  · rw [unrecognizedCodesPassThrough alg fc q g fs n h, unrecognizedCodesPassThrough alg fc' q' g' fs' n h]

end Sys2Proof.Machine
end

section
/-! PROOF. The formulas of the one-pole, two-pole, Butterworth and resonant lowpass designs (R153 to R165): each is followed to
its plain value, one bind per operation in the order of its rule; the parts that formulas share are followed once. -/

namespace Sys2Proof.Machine

open Fp (zero half one two negTwo ten twenty pi sqrt2)
open Plain (add sub mul div sqrt sin cos pow)
open Same (add_plain sub_plain mul_plain div_plain sqrt_plain sin_plain cos_plain tan_plain pow_plain)

/-! ### Following a computation -/

protected theorem Same.rfl {a : F64} : Same a a := .refl a

theorem Gives.bind {m : FpM F64} {v w : F64} {f : F64 → FpM F64} (hm : Gives m v) (hf : ∀ a, Same a v → Gives (f a) w) :
    Gives (m >>= f) w := fun n => hf _ (hm n) _

/-- From any free-value index the computation gives a result that satisfies `P`. -/
def Ensures {α : Type} (m : FpM α) (P : α → Prop) : Prop := ∀ n, P (Fp.eval m n).1

section

variable {α : Type} {P : α → Prop}

theorem Ensures.pure {a : α} (h : P a) : Ensures (Pure.pure a) P := fun _ => h

theorem Ensures.bind {m : FpM F64} {v : F64} {f : F64 → FpM α} (hm : Gives m v) (hf : ∀ a, Same a v → Ensures (f a) P) :
    Ensures (m >>= f) P := fun n => hf _ (hm n) _

theorem GivesTaps.bind_ensures {m : FpM α} {f : α → FpM Taps} {t : Taps} (hm : Ensures m P)
    (hf : ∀ a, P a → GivesTaps (f a) t) : GivesTaps (m >>= f) t := fun n => hf _ (hm n) _

end

/-! ### The angles (R153, R158, R162, R173) -/

theorem theta2_gives (fc fs : F64) : Gives (theta2 fc fs) (div (mul (mul two pi) fc) fs) :=
  .bind (mul_plain .rfl .rfl) fun _ p => .bind (mul_plain p .rfl) fun _ p => div_plain p .rfl

theorem theta1_gives (fc fs : F64) : Gives (theta1 fc fs) (div (mul pi fc) fs) :=
  .bind (mul_plain .rfl .rfl) fun _ p => div_plain p .rfl

theorem bandwidthAngle_gives (fc q fs : F64) :
    Gives (bandwidthAngle fc q fs)
      (let angle := div (mul pi (div fc q)) fs
       if Fp.le Fp.clamp angle then Fp.clamp else angle) :=
  .bind (div_plain .rfl .rfl) fun _ p => .bind (mul_plain .rfl p) fun _ p => .bind (div_plain p .rfl) fun _ angle =>
  fun _ => .ite (Fp.le_iff .rfl angle) .rfl angle

/-! ### One-pole and two-pole designs (R153 to R159) -/

theorem onePoleGamma_gives (fc fs : F64) :
    Gives (onePoleGamma fc fs)
      (let theta := div (mul (mul two pi) fc) fs
       div (cos theta) (add one (sin theta))) :=
  .bind (theta2_gives fc fs) fun _ theta =>
  .bind (cos_plain theta) fun _ num => .bind (sin_plain theta) fun _ p => .bind (add_plain .rfl p) fun _ den =>
  div_plain num den

/-- Settles O52; codes 1 and 2 share `onePoleGamma_gives`. -/
theorem onePoleFormulas : Obligations.OnePoleFormulas := by
  intro cq fc q g fs n theta
  refine ⟨?_, ?_⟩
  · intro gamma b1
    refine deriveWith_gives .lpf1p rfl (mixOf_plain g rfl) ?_ n
    exact .bind (theta2_gives fc fs) fun _ theta =>
      .bind (cos_plain theta) fun _ p => .bind (sub_plain .rfl p) fun _ gamma =>
      .bind (mul_plain gamma gamma) fun _ p => .bind (sub_plain p .rfl) fun _ p => .bind (pow_plain p .rfl) fun _ p =>
      .bind (sub_plain p gamma) fun _ b1 =>
      .bind (add_plain .rfl b1) fun _ a0 =>
      .pure a0 .rfl .rfl b1 .rfl
  · intro gamma
    refine ⟨deriveWith_gives .lpf1 rfl (mixOf_plain g rfl) ?_ n, deriveWith_gives .hpf1 rfl (mixOf_plain g rfl) ?_ n⟩
    · exact .bind (onePoleGamma_gives fc fs) fun _ gamma =>
        .bind (sub_plain .rfl gamma) fun _ p => .bind (div_plain p .rfl) fun _ a0 =>
        .bind (sub_plain .rfl gamma) fun _ p => .bind (div_plain p .rfl) fun _ a1 =>
        .pure a0 a1 .rfl gamma.neg .rfl
    · exact .bind (onePoleGamma_gives fc fs) fun _ gamma =>
        .bind (add_plain .rfl gamma) fun _ p => .bind (div_plain p .rfl) fun _ a0 =>
        .bind (add_plain .rfl gamma) fun _ p => .bind (div_plain p .rfl) fun _ a1 =>
        .pure a0 a1.neg .rfl gamma.neg .rfl

theorem betaGamma_ensures (fc q fs : F64) :
    Ensures (betaGamma fc q fs) fun r =>
      let theta := div (mul (mul two pi) fc) fs
      let d := div one q
      let betaNum := sub one (mul (div d two) (sin theta))
      let betaDen := add one (mul (div d two) (sin theta))
      let beta := mul half (div betaNum betaDen)
      Same r.1 beta ∧ Same r.2 (mul (add half beta) (cos theta)) :=
  .bind (theta2_gives fc fs) fun _ theta =>
  .bind (div_plain .rfl .rfl) fun _ d =>
  .bind (div_plain d .rfl) fun _ p => .bind (sin_plain theta) fun _ r => .bind (mul_plain p r) fun _ p =>
  .bind (sub_plain .rfl p) fun _ num =>
  .bind (div_plain d .rfl) fun _ p => .bind (sin_plain theta) fun _ r => .bind (mul_plain p r) fun _ p =>
  .bind (add_plain .rfl p) fun _ den =>
  .bind (div_plain num den) fun _ p => .bind (mul_plain .rfl p) fun _ beta =>
  .bind (add_plain .rfl beta) fun _ p => .bind (cos_plain theta) fun _ r => .bind (mul_plain p r) fun _ gamma =>
  .pure ⟨beta, gamma⟩

section

variable {k k' delta delta' : F64} (hk : Same k k') (hd : Same delta delta') (q : F64)
include hk

theorem bandDelta_gives : Gives (bandDelta k q) (add (add (mul (mul k' k') q) k') q) :=
  .bind (mul_plain hk hk) fun _ p => .bind (mul_plain p .rfl) fun _ p => .bind (add_plain p hk) fun _ p => add_plain p .rfl

include hd

theorem bandB1_gives : Gives (bandB1 k q delta) (div (mul (mul two q) (sub (mul k' k') one)) delta') :=
  .bind (mul_plain .rfl .rfl) fun _ p => .bind (mul_plain hk hk) fun _ r => .bind (sub_plain r .rfl) fun _ r =>
  .bind (mul_plain p r) fun _ p => div_plain p hd

theorem bandB2_gives : Gives (bandB2 k q delta) (div (add (sub (mul (mul k' k') q) k') q) delta') :=
  .bind (mul_plain hk hk) fun _ p => .bind (mul_plain p .rfl) fun _ p => .bind (sub_plain p hk) fun _ p =>
  .bind (add_plain p .rfl) fun _ p => div_plain p hd

end

/-- Settles O53; codes 3 and 4 share `betaGamma_ensures`, codes 5 and 6 the denominator and the feedback pair. -/
theorem twoPoleFormulas : Obligations.TwoPoleFormulas := by
  intro cq fc q g fs n
  refine ⟨?_, ?_⟩
  · intro theta d betaNum betaDen beta gamma low high
    refine ⟨deriveWith_gives .lpf2 rfl (mixOf_plain g rfl) ?_ n, deriveWith_gives .hpf2 rfl (mixOf_plain g rfl) ?_ n⟩
    · exact .bind_ensures (betaGamma_ensures fc q fs) fun ⟨_, _⟩ ⟨beta, gamma⟩ =>
        .bind (add_plain .rfl beta) fun _ p => .bind (sub_plain p gamma) fun _ p => .bind (div_plain p .rfl) fun _ alpha =>
        .bind (mul_plain .rfl alpha) fun _ a1 =>
        .bind (mul_plain .rfl gamma) fun _ b1 => .bind (mul_plain .rfl beta) fun _ b2 =>
        .pure alpha a1 alpha b1 b2
    · exact .bind_ensures (betaGamma_ensures fc q fs) fun ⟨_, _⟩ ⟨beta, gamma⟩ =>
        .bind (add_plain .rfl beta) fun _ p => .bind (add_plain p gamma) fun _ p => .bind (div_plain p .rfl) fun _ alpha =>
        .bind (mul_plain .rfl alpha) fun _ a1 =>
        .bind (mul_plain .rfl gamma) fun _ b1 => .bind (mul_plain .rfl beta) fun _ b2 =>
        .pure alpha a1 alpha b1 b2
  · intro k delta b1 b2 edge
    refine ⟨deriveWith_gives .bpf2 rfl (mixOf_plain g rfl) ?_ n, deriveWith_gives .bsf2 rfl (mixOf_plain g rfl) ?_ n⟩
    · exact .bind (theta1_gives fc fs) fun _ p => .bind (tan_plain p) fun _ k => .bind (bandDelta_gives k q) fun _ delta =>
        .bind (div_plain k delta) fun _ a0 => .bind (div_plain k.neg delta) fun _ a2 =>
        .bind (bandB1_gives k delta q) fun _ b1 => .bind (bandB2_gives k delta q) fun _ b2 =>
        .pure a0 .rfl a2 b1 b2
    · exact .bind (theta1_gives fc fs) fun _ p => .bind (tan_plain p) fun _ k => .bind (bandDelta_gives k q) fun _ delta =>
        .bind (mul_plain k k) fun _ p => .bind (add_plain .rfl p) fun _ p => .bind (mul_plain .rfl p) fun _ p =>
        .bind (div_plain p delta) fun _ a0 =>
        .bind (bandB1_gives k delta q) fun _ a1 =>
        .bind (mul_plain k k) fun _ p => .bind (add_plain .rfl p) fun _ p => .bind (mul_plain .rfl p) fun _ p =>
        .bind (div_plain p delta) fun _ a2 =>
        .bind (bandB1_gives k delta q) fun _ b1 => .bind (bandB2_gives k delta q) fun _ b2 =>
        .pure a0 a1 a2 b1 b2

/-! ### Butterworth designs (R160 to R163) -/

section

variable {a0 a0' c c' : F64} (ha : Same a0 a0') (hc : Same c c')

include hc in
theorem butterA0_gives : Gives (butterA0 c) (div one (add (add one (mul sqrt2 c')) (mul c' c'))) :=
  .bind (mul_plain .rfl hc) fun _ p => .bind (add_plain .rfl p) fun _ p => .bind (mul_plain hc hc) fun _ r =>
  .bind (add_plain p r) fun _ p => div_plain .rfl p

include ha hc in
theorem butterB2_gives : Gives (butterB2 a0 c) (mul a0' (add (sub one (mul sqrt2 c')) (mul c' c'))) :=
  .bind (mul_plain .rfl hc) fun _ p => .bind (sub_plain .rfl p) fun _ p => .bind (mul_plain hc hc) fun _ r =>
  .bind (add_plain p r) fun _ p => mul_plain ha p

end

/-- Settles O54; codes 7 and 8 share `butterA0_gives` and `butterB2_gives`, codes 9 and 10 the clamped angle. -/
theorem butterworthFormulas : Obligations.ButterworthFormulas := by
  intro cq fc q g fs n
  refine ⟨?_, ?_, ?_⟩
  · intro c a0
    refine deriveWith_gives .butterLpf2 rfl (mixOf_plain g rfl) ?_ n
    exact .bind (theta1_gives fc fs) fun _ p => .bind (tan_plain p) fun _ p => .bind (div_plain .rfl p) fun _ c =>
      .bind (butterA0_gives c) fun _ a0 => .bind (mul_plain .rfl a0) fun _ a1 =>
      .bind (mul_plain .rfl a0) fun _ p => .bind (mul_plain c c) fun _ r => .bind (sub_plain .rfl r) fun _ r =>
      .bind (mul_plain p r) fun _ b1 => .bind (butterB2_gives a0 c) fun _ b2 =>
      .pure a0 a1 a0 b1 b2
  · intro c a0
    refine deriveWith_gives .butterHpf2 rfl (mixOf_plain g rfl) ?_ n
    exact .bind (theta1_gives fc fs) fun _ p => .bind (tan_plain p) fun _ c =>
      .bind (butterA0_gives c) fun _ a0 => .bind (mul_plain .rfl a0) fun _ a1 =>
      .bind (mul_plain .rfl a0) fun _ p => .bind (mul_plain c c) fun _ r => .bind (sub_plain r .rfl) fun _ r =>
      .bind (mul_plain p r) fun _ b1 => .bind (butterB2_gives a0 c) fun _ b2 =>
      .pure a0 a1 a0 b1 b2
  · intro theta angle deltaC d
    refine ⟨?_, ?_⟩
    · intro c a0
      refine deriveWith_gives .butterBpf2 rfl (mixOf_plain g rfl) ?_ n
      exact .bind (theta2_gives fc fs) fun _ theta => .bind (bandwidthAngle_gives fc q fs) fun _ deltaC =>
        .bind (tan_plain deltaC) fun _ p => .bind (div_plain .rfl p) fun _ c =>
        .bind (cos_plain theta) fun _ p => .bind (mul_plain .rfl p) fun _ d =>
        .bind (add_plain .rfl c) fun _ p => .bind (div_plain .rfl p) fun _ a0 =>
        .bind (mul_plain c d) fun _ p => .bind (mul_plain a0.neg p) fun _ b1 =>
        .bind (sub_plain c .rfl) fun _ p => .bind (mul_plain a0 p) fun _ b2 =>
        .pure a0 .rfl a0.neg b1 b2
    · intro c a0
      refine deriveWith_gives .butterBsf2 rfl (mixOf_plain g rfl) ?_ n
      exact .bind (theta2_gives fc fs) fun _ theta => .bind (bandwidthAngle_gives fc q fs) fun _ deltaC =>
        .bind (tan_plain deltaC) fun _ c =>
        .bind (cos_plain theta) fun _ p => .bind (mul_plain .rfl p) fun _ d =>
        .bind (add_plain .rfl c) fun _ p => .bind (div_plain .rfl p) fun _ a0 =>
        .bind (mul_plain a0.neg d) fun _ a1 => .bind (mul_plain a0.neg d) fun _ b1 =>
        .bind (sub_plain .rfl c) fun _ p => .bind (mul_plain a0 p) fun _ b2 =>
        .pure a0 a1 a0 b1 b2

/-! ### Resonant lowpass designs (R164, R165) -/

section

variable {theta theta' : F64} (ht : Same theta theta')
include ht

theorem resonance_gives {rdB rdB' : F64} (hr : Same rdB rdB') :
    Gives (resonance theta rdB)
      (div (add (cos theta') (mul (sin theta') (sqrt (sub (pow ten (div rdB' ten)) one))))
        (add (mul (pow ten (div rdB' twenty)) (sin theta')) one)) :=
  .bind (cos_plain ht) fun _ c => .bind (sin_plain ht) fun _ s =>
  .bind (div_plain hr .rfl) fun _ p => .bind (pow_plain .rfl p) fun _ p => .bind (sub_plain p .rfl) fun _ p =>
  .bind (sqrt_plain p) fun _ p => .bind (mul_plain s p) fun _ p => .bind (add_plain c p) fun _ num =>
  .bind (div_plain hr .rfl) fun _ p => .bind (pow_plain .rfl p) fun _ p =>
  .bind (sin_plain ht) fun _ s => .bind (mul_plain p s) fun _ p => .bind (add_plain p .rfl) fun _ den =>
  div_plain num den

theorem mmaTaps_gives {res res' gc gc' : F64} (hr : Same res res') (hg : Same gc gc') :
    GivesTaps (mmaTaps theta res gc)
      (let b1 := mul (mul negTwo res') (cos theta')
       let b2 := mul res' res'
       ⟨mul gc' (add (add one b1) b2), zero, zero, b1, b2⟩) :=
  .bind (mul_plain .rfl hr) fun _ p => .bind (cos_plain ht) fun _ c => .bind (mul_plain p c) fun _ b1 =>
  .bind (mul_plain hr hr) fun _ b2 =>
  .bind (add_plain .rfl b1) fun _ p => .bind (add_plain p b2) fun _ p => .bind (mul_plain hg p) fun _ a0 =>
  .pure a0 .rfl .rfl b1 b2

end

/-- Settles O55; the two codes differ in the gain compensation that `mmaTaps_gives` takes. -/
theorem resonantLowpassFormulas : Obligations.ResonantLowpassFormulas := by
  intro cq fc q g fs n theta peak rdB res b1 b2 gc
  refine ⟨deriveWith_gives .mmaLpf2 rfl (mixOf_plain g rfl) ?_ n, deriveWith_gives .mmaLpf2b rfl (mixOf_plain g rfl) ?_ n⟩
  · exact .bind (theta2_gives fc fs) fun _ theta => .bind (Gives.resonanceDb q) fun _ rdB =>
      .bind (resonance_gives theta rdB) fun _ res =>
      .bind (div_plain rdB.neg .rfl) fun _ p => .bind (pow_plain .rfl p) fun _ gc =>
      mmaTaps_gives theta res gc
  · exact .bind (theta2_gives fc fs) fun _ theta => .bind (Gives.resonanceDb q) fun _ rdB =>
      .bind (resonance_gives theta rdB) fun _ res =>
      mmaTaps_gives theta res .rfl

end Sys2Proof.Machine
end

section
/-! PROOF. The formulas of the shelving, parametric, Linkwitz-Riley, all-pass, resonator, matched and impulse-invariant designs
(R152, R166 to R181), followed as the ones before. -/

namespace Sys2Proof.Machine

open Fp (zero half one two negTwo four negFour ten twenty pi)
open Plain (add sub mul div sin cos tan exp pow)
open Same (add_plain sub_plain mul_plain div_plain sin_plain cos_plain tan_plain exp_plain pow_plain)

/-! ### Shelving and parametric designs (R166 to R169) -/

theorem linearGain_gives (g : F64) : Gives (linearGain g) (pow ten (div g twenty)) :=
  .bind (div_plain .rfl .rfl) fun _ p => pow_plain .rfl p

theorem shelfGamma_gives {theta theta' beta beta' : F64} (ht : Same theta theta') (hb : Same beta beta') :
    Gives (shelfGamma theta beta)
      (let delta := mul beta' (tan (div theta' two))
       div (sub one delta) (add one delta)) :=
  .bind (div_plain ht .rfl) fun _ p => .bind (tan_plain p) fun _ p => .bind (mul_plain hb p) fun _ delta =>
  .bind (sub_plain .rfl delta) fun _ num => .bind (add_plain .rfl delta) fun _ den => div_plain num den

section

variable {r r' k k' : F64} (hr : Same r r') (hk : Same k k')
include hr hk

theorem eqPlus_gives : Gives (eqPlus r k) (add (add one (mul r' k')) (mul k' k')) :=
  .bind (mul_plain hr hk) fun _ p => .bind (add_plain .rfl p) fun _ p => .bind (mul_plain hk hk) fun _ s => add_plain p s

theorem eqMinus_gives : Gives (eqMinus r k) (add (sub one (mul r' k')) (mul k' k')) :=
  .bind (mul_plain hr hk) fun _ p => .bind (sub_plain .rfl p) fun _ p => .bind (mul_plain hk hk) fun _ s => add_plain p s

end

/-- The mix of CQParaEQ under either reading of `P_CQ_MIX` (R151). -/
theorem mixOf_cqParaEq (cq : CqMix) (g : F64) (n : Nat) :
    Same (Fp.eval (mixOf cq .cqParaEq g) n).1.1 (if cq = .doc then sub (pow ten (div g twenty)) one else one) ∧
      Same (Fp.eval (mixOf cq .cqParaEq g) n).1.2 (if cq = .doc then one else zero) := by
  cases cq with
  | doc => exact mixOf_overridden g rfl n
  | unity => exact mixOf_plain g rfl n

/-- Settles O56; CQParaEQ is followed once to the choice between its boost and cut forms, then split by the sign of the gain. -/
theorem shelvingFormulas : Obligations.ShelvingFormulas := by
  intro cq fc q g fs n theta mu wet
  refine ⟨?_, ?_, ?_, ?_⟩
  · intro delta gamma
    refine deriveWith_gives .lowShelf rfl (mixOf_overridden g rfl) ?_ n
    exact .bind (theta2_gives fc fs) fun _ theta => .bind (linearGain_gives g) fun _ mu =>
      .bind (add_plain .rfl mu) fun _ p => .bind (div_plain .rfl p) fun _ beta =>
      .bind (shelfGamma_gives theta beta) fun _ gamma =>
      .bind (sub_plain .rfl gamma) fun _ p => .bind (div_plain p .rfl) fun _ a0 =>
      .bind (sub_plain .rfl gamma) fun _ p => .bind (div_plain p .rfl) fun _ a1 =>
      .pure a0 a1 .rfl gamma.neg .rfl
  · intro delta gamma
    refine deriveWith_gives .hiShelf rfl (mixOf_overridden g rfl) ?_ n
    exact .bind (theta2_gives fc fs) fun _ theta => .bind (linearGain_gives g) fun _ mu =>
      .bind (add_plain .rfl mu) fun _ p => .bind (div_plain p .rfl) fun _ beta =>
      .bind (shelfGamma_gives theta beta) fun _ gamma =>
      .bind (add_plain .rfl gamma) fun _ p => .bind (div_plain p .rfl) fun _ a0 =>
      .pure a0 a0.neg .rfl gamma.neg .rfl
  · intro arg tanArg zeta beta gamma alpha
    refine deriveWith_gives .ncqParaEq rfl (mixOf_overridden g rfl) ?_ n
    exact .bind (theta2_gives fc fs) fun _ theta => .bind (linearGain_gives g) fun _ mu =>
      .bind (mul_plain .rfl .rfl) fun _ p => .bind (div_plain theta p) fun _ arg =>
      have tanArg := Same.ite (Fp.le_iff .rfl arg) .rfl arg
      .bind (add_plain .rfl mu) fun _ p => .bind (div_plain .rfl p) fun _ zeta =>
      .bind (tan_plain tanArg) fun _ p => .bind (mul_plain zeta p) fun _ p => .bind (sub_plain .rfl p) fun _ num =>
      .bind (tan_plain tanArg) fun _ p => .bind (mul_plain zeta p) fun _ p => .bind (add_plain .rfl p) fun _ den =>
      .bind (div_plain num den) fun _ p => .bind (mul_plain .rfl p) fun _ beta =>
      .bind (add_plain .rfl beta) fun _ p => .bind (cos_plain theta) fun _ c => .bind (mul_plain p c) fun _ gamma =>
      .bind (sub_plain .rfl beta) fun _ alpha =>
      .bind (mul_plain .rfl gamma) fun _ b1 => .bind (mul_plain .rfl beta) fun _ b2 =>
      .pure alpha .rfl alpha.neg b1 b2
  · intro k vo d0c e0c alpha beta gamma delta eta mixWet mixDry
    have hformula : GivesTaps (formula .cqParaEq fc q g fs)
        (if Fp.le zero g then ⟨div alpha d0c, div beta d0c, div gamma d0c, div beta d0c, div delta d0c⟩
        else ⟨div d0c e0c, div beta e0c, div delta e0c, div beta e0c, div eta e0c⟩) := by
      refine .bind (theta1_gives fc fs) fun _ p => .bind (tan_plain p) fun _ k => .bind (linearGain_gives g) fun _ vo =>
        .bind (div_plain .rfl .rfl) fun _ p => .bind (eqPlus_gives p k) fun _ d0c =>
        .bind (mul_plain vo .rfl) fun _ p => .bind (div_plain .rfl p) fun _ p => .bind (eqPlus_gives p k) fun _ e0c =>
        .bind (div_plain vo .rfl) fun _ p => .bind (eqPlus_gives p k) fun _ alpha =>
        .bind (mul_plain k k) fun _ p => .bind (sub_plain p .rfl) fun _ p => .bind (mul_plain .rfl p) fun _ beta =>
        .bind (div_plain vo .rfl) fun _ p => .bind (eqMinus_gives p k) fun _ gamma =>
        .bind (div_plain .rfl .rfl) fun _ p => .bind (eqMinus_gives p k) fun _ delta =>
        .bind (mul_plain vo .rfl) fun _ p => .bind (div_plain .rfl p) fun _ p => .bind (eqMinus_gives p k) fun _ eta => ?_
      split
      · exact .bind (div_plain alpha d0c) fun _ a0 => .bind (div_plain beta d0c) fun _ a1 =>
          .bind (div_plain gamma d0c) fun _ a2 => .bind (div_plain beta d0c) fun _ b1 =>
          .bind (div_plain delta d0c) fun _ b2 => .pure a0 a1 a2 b1 b2
      · exact .bind (div_plain d0c e0c) fun _ a0 => .bind (div_plain beta e0c) fun _ a1 =>
          .bind (div_plain delta e0c) fun _ a2 => .bind (div_plain beta e0c) fun _ b1 =>
          .bind (div_plain eta e0c) fun _ b2 => .pure a0 a1 a2 b1 b2
    by_cases hg : Fp.le zero g = true
    · rw [if_pos hg] at hformula ⊢
      exact deriveWith_gives .cqParaEq rfl (mixOf_cqParaEq cq g) hformula n
    · rw [if_neg hg] at hformula ⊢
      exact deriveWith_gives .cqParaEq rfl (mixOf_cqParaEq cq g) hformula n

/-! ### Linkwitz-Riley designs (R170, R171) -/

theorem linkwitzRiley_ensures (fc fs : F64) :
    Ensures (linkwitzRiley fc fs) fun r =>
      let omegaC := mul pi fc
      let k := div omegaC (tan (div (mul pi fc) fs))
      let den := add (add (mul k k) (mul omegaC omegaC)) (mul (mul two k) omegaC)
      Same r.omegaC omegaC ∧ Same r.k k ∧ Same r.den den ∧
      Same r.b1 (div (add (mul (mul negTwo k) k) (mul (mul two omegaC) omegaC)) den) ∧
      Same r.b2 (div (add (add (mul (mul negTwo k) omegaC) (mul k k)) (mul omegaC omegaC)) den) :=
  .bind (mul_plain .rfl .rfl) fun _ omegaC => .bind (theta1_gives fc fs) fun _ thetaC =>
  .bind (tan_plain thetaC) fun _ p => .bind (div_plain omegaC p) fun _ k =>
  .bind (mul_plain k k) fun _ p => .bind (mul_plain omegaC omegaC) fun _ r => .bind (add_plain p r) fun _ p =>
  .bind (mul_plain .rfl k) fun _ r => .bind (mul_plain r omegaC) fun _ r => .bind (add_plain p r) fun _ den =>
  .bind (mul_plain .rfl k) fun _ p => .bind (mul_plain p k) fun _ p =>
  .bind (mul_plain .rfl omegaC) fun _ r => .bind (mul_plain r omegaC) fun _ r => .bind (add_plain p r) fun _ num1 =>
  .bind (mul_plain .rfl k) fun _ p => .bind (mul_plain p omegaC) fun _ p => .bind (mul_plain k k) fun _ r =>
  .bind (add_plain p r) fun _ p => .bind (mul_plain omegaC omegaC) fun _ r => .bind (add_plain p r) fun _ num2 =>
  .bind (div_plain num1 den) fun _ b1 => .bind (div_plain num2 den) fun _ b2 =>
  .pure ⟨omegaC, k, den, b1, b2⟩

/-- Settles O57; both codes start from `linkwitzRiley_ensures`. -/
theorem linkwitzRileyFormulas : Obligations.LinkwitzRileyFormulas := by
  intro cq fc q g fs n omegaC thetaC k den b1 b2 low high
  refine ⟨deriveWith_gives .lwrLpf2 rfl (mixOf_plain g rfl) ?_ n, deriveWith_gives .lwrHpf2 rfl (mixOf_plain g rfl) ?_ n⟩
  · exact .bind_ensures (linkwitzRiley_ensures fc fs) fun _ ⟨omegaC, _, den, b1, b2⟩ =>
      .bind (mul_plain omegaC omegaC) fun _ p => .bind (div_plain p den) fun _ a0 =>
      .bind (mul_plain .rfl omegaC) fun _ p => .bind (mul_plain p omegaC) fun _ p => .bind (div_plain p den) fun _ a1 =>
      .pure a0 a1 a0 b1 b2
  · exact .bind_ensures (linkwitzRiley_ensures fc fs) fun _ ⟨_, k, den, b1, b2⟩ =>
      .bind (mul_plain k k) fun _ p => .bind (div_plain p den) fun _ a0 =>
      .bind (mul_plain .rfl k) fun _ p => .bind (mul_plain p k) fun _ p => .bind (div_plain p den) fun _ a1 =>
      .pure a0 a1 a0 b1 b2

/-! ### All-pass and resonator designs (R172 to R175) -/

theorem allPassAlpha_gives {v v' : F64} (hv : Same v v') :
    Gives (allPassAlpha v) (div (sub (tan v') one) (add (tan v') one)) :=
  .bind (tan_plain hv) fun _ p => .bind (sub_plain p .rfl) fun _ num =>
  .bind (tan_plain hv) fun _ p => .bind (add_plain p .rfl) fun _ den => div_plain num den

theorem resonPoles_ensures (fc q fs : F64) :
    Ensures (resonPoles fc q fs) fun r =>
      let theta := div (mul (mul two pi) fc) fs
      let rb2 := exp (mul (mul negTwo pi) (div (div fc q) fs))
      Same r.1 (mul (div (mul negFour rb2) (add one rb2)) (cos theta)) ∧ Same r.2 rb2 :=
  .bind (theta2_gives fc fs) fun _ theta =>
  .bind (mul_plain .rfl .rfl) fun _ p => .bind (div_plain .rfl .rfl) fun _ r => .bind (div_plain r .rfl) fun _ r =>
  .bind (mul_plain p r) fun _ p => .bind (exp_plain p) fun _ rb2 =>
  .bind (mul_plain .rfl rb2) fun _ num => .bind (add_plain .rfl rb2) fun _ den => .bind (div_plain num den) fun _ p =>
  .bind (cos_plain theta) fun _ c => .bind (mul_plain p c) fun _ rb1 =>
  .pure ⟨rb1, rb2⟩

/-- Settles O58; codes 21 and 22 share `resonPoles_ensures`. -/
theorem allPassAndResonatorFormulas : Obligations.AllPassAndResonatorFormulas := by
  intro cq fc q g fs n theta
  refine ⟨?_, ?_, ?_⟩
  · intro t alpha
    refine deriveWith_gives .apf1 rfl (mixOf_plain g rfl) ?_ n
    exact .bind (theta1_gives fc fs) fun _ p => .bind (allPassAlpha_gives p) fun _ alpha =>
      .pure alpha .rfl .rfl alpha .rfl
  · intro arg argTan alpha beta
    refine deriveWith_gives .apf2 rfl (mixOf_plain g rfl) ?_ n
    exact .bind (theta2_gives fc fs) fun _ theta => .bind (bandwidthAngle_gives fc q fs) fun _ argTan =>
      .bind (allPassAlpha_gives argTan) fun _ alpha => .bind (cos_plain theta) fun _ c =>
      .bind (sub_plain .rfl alpha) fun _ p => .bind (mul_plain c.neg p) fun _ a1 =>
      .bind (sub_plain .rfl alpha) fun _ p => .bind (mul_plain c.neg p) fun _ b1 =>
      .pure alpha.neg a1 .rfl b1 alpha.neg
  · intro rb2 rb1
    refine ⟨deriveWith_gives .resonA rfl (mixOf_plain g rfl) ?_ n, deriveWith_gives .resonB rfl (mixOf_plain g rfl) ?_ n⟩
    · exact .bind_ensures (resonPoles_ensures fc q fs) fun ⟨_, _⟩ ⟨rb1, rb2⟩ =>
        .bind (sub_plain .rfl rb2) fun _ s =>
        .bind (mul_plain rb1 rb1) fun _ p => .bind (mul_plain .rfl rb2) fun _ r => .bind (div_plain p r) fun _ p =>
        .bind (sub_plain .rfl p) fun _ p => .bind (pow_plain p .rfl) fun _ p => .bind (mul_plain s p) fun _ a0 =>
        .pure a0 .rfl .rfl rb1 rb2
    · exact .bind_ensures (resonPoles_ensures fc q fs) fun ⟨_, _⟩ ⟨rb1, rb2⟩ =>
        .bind (pow_plain rb2 .rfl) fun _ p => .bind (sub_plain .rfl p) fun _ a0 =>
        .pure a0 .rfl a0.neg rb1 rb2

/-! ### Matched designs (R176 to R179) -/

/-- The plain energies of R176 and R178 over the pole pair. -/
def plainEnergy (theta b1 b2 : F64) : MatchEnergy :=
  let sn := sin (div theta two)
  { b0 := mul (add (add one b1) b2) (add (add one b1) b2)
    b1 := mul (add (sub one b1) b2) (add (sub one b1) b2)
    b2 := mul negFour b2
    phi0 := sub one (mul sn sn)
    phi1 := mul sn sn
    phi2 := mul (mul four (sub one (mul sn sn))) (mul sn sn) }

/-- The same energies up to NaN bits. -/
def SameEnergy (m m' : MatchEnergy) : Prop :=
  Same m.b0 m'.b0 ∧ Same m.b1 m'.b1 ∧ Same m.b2 m'.b2 ∧
    Same m.phi0 m'.phi0 ∧ Same m.phi1 m'.phi1 ∧ Same m.phi2 m'.phi2

theorem matchEnergy_ensures {theta theta' b1 b1' b2 b2' : F64} (ht : Same theta theta') (h1 : Same b1 b1')
    (h2 : Same b2 b2') : Ensures (matchEnergy theta b1 b2) fun m => SameEnergy m (plainEnergy theta' b1' b2') :=
  .bind (add_plain .rfl h1) fun _ p => .bind (add_plain p h2) fun _ p =>
  .bind (add_plain .rfl h1) fun _ r => .bind (add_plain r h2) fun _ r => .bind (mul_plain p r) fun _ e0 =>
  .bind (sub_plain .rfl h1) fun _ p => .bind (add_plain p h2) fun _ p =>
  .bind (sub_plain .rfl h1) fun _ r => .bind (add_plain r h2) fun _ r => .bind (mul_plain p r) fun _ e1 =>
  .bind (mul_plain .rfl h2) fun _ e2 =>
  .bind (div_plain ht .rfl) fun _ p => .bind (sin_plain p) fun _ sn =>
  .bind (mul_plain sn sn) fun _ p => .bind (sub_plain .rfl p) fun _ phi0 =>
  .bind (mul_plain sn sn) fun _ phi1 =>
  .bind (mul_plain .rfl phi0) fun _ p => .bind (mul_plain p phi1) fun _ phi2 =>
  .pure ⟨e0, e1, e2, phi0, phi1, phi2⟩

theorem matchSum_gives {m m' : MatchEnergy} (hm : SameEnergy m m') :
    Gives (matchSum m) (add (add (mul m'.b0 m'.phi0) (mul m'.b1 m'.phi1)) (mul m'.b2 m'.phi2)) :=
  have ⟨e0, e1, e2, phi0, phi1, phi2⟩ := hm
  .bind (mul_plain e0 phi0) fun _ p => .bind (mul_plain e1 phi1) fun _ r => .bind (add_plain p r) fun _ p =>
  .bind (mul_plain e2 phi2) fun _ r => add_plain p r

theorem matchDen_gives {f0 f0' : F64} (hf : Same f0 f0') (q : F64) :
    Gives (matchDen f0 q)
      (pow (add (mul (sub one (mul f0' f0')) (sub one (mul f0' f0'))) (div (mul f0' f0') (mul q q))) half) :=
  .bind (mul_plain hf hf) fun _ p => .bind (sub_plain .rfl p) fun _ p =>
  .bind (mul_plain hf hf) fun _ r => .bind (sub_plain .rfl r) fun _ r => .bind (mul_plain p r) fun _ square =>
  .bind (mul_plain hf hf) fun _ p => .bind (mul_plain .rfl .rfl) fun _ r => .bind (div_plain p r) fun _ p =>
  .bind (add_plain square p) fun _ p => pow_plain p .rfl

theorem clampNegative_same {v v' : F64} (hv : Same v v') :
    Same (clampNegative v) (if Fp.lt v' zero then zero else v') := .ite (Fp.lt_iff hv .rfl) .rfl hv

/-- Settles O59; the two branches of the poles are in `GivesTaps.poles`, and the tight fits share the energies. -/
theorem matchedFormulas : Obligations.MatchedFormulas := by
  intro cq fc q g fs n theta qd b2 b1 e0 e1 e2 sn phi0 phi1 phi2 sum f0 den
  refine ⟨?_, ?_, ?_, ?_⟩
  · intro r1 big1 big0' big1' a0
    refine deriveWith_gives .matchLp2a rfl (mixOf_plain g rfl) ?_ n
    exact .bind (theta2_gives fc fs) fun _ theta => .poles theta .rfl fun _ _ b1 b2 =>
      .bind_ensures (matchEnergy_ensures theta b1 b2) fun _ hm =>
      have ⟨e0, _, _, phi0, phi1, _⟩ := hm
      .bind (matchSum_gives hm) fun _ p => .bind (mul_plain .rfl .rfl) fun _ r => .bind (mul_plain p r) fun _ r1 =>
      .bind (mul_plain e0 phi0) fun _ p => .bind (sub_plain r1 p) fun _ p => .bind (div_plain p phi1) fun _ big1 =>
      have big0' := clampNegative_same e0
      have big1' := clampNegative_same big1
      .bind (pow_plain big0' .rfl) fun _ p => .bind (pow_plain big1' .rfl) fun _ r => .bind (add_plain p r) fun _ p =>
      .bind (mul_plain .rfl p) fun _ a0 =>
      .bind (pow_plain big0' .rfl) fun _ p => .bind (sub_plain p a0) fun _ a1 =>
      .pure a0 a1 .rfl b1 b2
  · intro r0 r1 a0
    refine deriveWith_gives .matchLp2b rfl (mixOf_plain g rfl) ?_ n
    exact .bind (theta2_gives fc fs) fun _ theta => .poles theta .rfl fun _ _ b1 b2 =>
      .bind (div_plain theta .rfl) fun _ f0 =>
      .bind (add_plain .rfl b1) fun _ p => .bind (add_plain p b2) fun _ r0 => .bind (matchDen_gives f0 q) fun _ den =>
      .bind (sub_plain .rfl b1) fun _ p => .bind (add_plain p b2) fun _ p =>
      .bind (mul_plain p f0) fun _ p => .bind (mul_plain p f0) fun _ p => .bind (div_plain p den) fun _ r1 =>
      .bind (add_plain r0 r1) fun _ p => .bind (div_plain p .rfl) fun _ a0 =>
      .bind (sub_plain r0 a0) fun _ a1 =>
      .pure a0 a1 .rfl b1 b2
  · intro r2 big2 big1 a1 a0
    refine deriveWith_gives .matchBp2a rfl (mixOf_plain g rfl) ?_ n
    exact .bind (theta2_gives fc fs) fun _ theta => .poles theta .rfl fun _ _ b1 b2 =>
      .bind_ensures (matchEnergy_ensures theta b1 b2) fun _ hm =>
      have ⟨e0, e1, e2, phi0, phi1, _⟩ := hm
      .bind (matchSum_gives hm) fun _ r1 =>
      .bind (add_plain e0.neg e1) fun _ p => .bind (sub_plain phi0 phi1) fun _ r => .bind (mul_plain .rfl r) fun _ r =>
      .bind (mul_plain r e2) fun _ r => .bind (add_plain p r) fun _ r2 =>
      .bind (mul_plain r2 phi1) fun _ p => .bind (sub_plain r1 p) fun _ num =>
      .bind (mul_plain .rfl phi1) fun _ p => .bind (mul_plain p phi1) fun _ den => .bind (div_plain num den) fun _ big2 =>
      .bind (sub_plain phi1 phi0) fun _ p => .bind (mul_plain .rfl p) fun _ p => .bind (mul_plain p big2) fun _ p =>
      .bind (add_plain r2 p) fun _ big1 =>
      .bind (pow_plain big1 .rfl) fun _ p => .bind (mul_plain .rfl p) fun _ a1 =>
      .bind (mul_plain a1 a1) fun _ p => .bind (add_plain big2 p) fun _ p => .bind (pow_plain p .rfl) fun _ p =>
      .bind (sub_plain p a1) fun _ p => .bind (mul_plain .rfl p) fun _ a0 =>
      .bind (sub_plain a0.neg a1) fun _ a2 =>
      .pure a0 a1 a2 b1 b2
  · intro r0 r1 a1 a0
    refine deriveWith_gives .matchBp2b rfl (mixOf_plain g rfl) ?_ n
    exact .bind (theta2_gives fc fs) fun _ theta => .poles theta .rfl fun _ _ b1 b2 =>
      .bind (div_plain theta .rfl) fun _ f0 =>
      .bind (add_plain .rfl b1) fun _ p => .bind (add_plain p b2) fun _ num =>
      .bind (mul_plain .rfl f0) fun _ p => .bind (mul_plain p .rfl) fun _ p => .bind (div_plain num p) fun _ r0 =>
      .bind (matchDen_gives f0 q) fun _ den =>
      .bind (sub_plain .rfl b1) fun _ p => .bind (add_plain p b2) fun _ p => .bind (div_plain f0 .rfl) fun _ r =>
      .bind (mul_plain p r) fun _ p => .bind (div_plain p den) fun _ r1 =>
      .bind (div_plain r1.neg .rfl) fun _ a1 =>
      .bind (sub_plain r0 a1) fun _ p => .bind (div_plain p .rfl) fun _ a0 =>
      .bind (sub_plain a0.neg a1) fun _ a2 =>
      .pure a0 a1 a2 b1 b2

/-! ### Impulse-invariant designs (R180, R181) -/

/-- Settles O60; the two formulas share no part, so each is followed from its parameters. -/
theorem impulseInvariantFormulas : Obligations.ImpulseInvariantFormulas := by
  intro cq fc q g fs n
  refine ⟨?_, ?_⟩
  · intro eT
    refine deriveWith_gives .impInvLp1 rfl (mixOf_plain g rfl) ?_ n
    exact .bind (div_plain .rfl .rfl) fun _ t => .bind (mul_plain .rfl .rfl) fun _ p =>
      .bind (mul_plain p .rfl) fun _ omega => .bind (mul_plain t.neg omega) fun _ p => .bind (exp_plain p) fun _ eT =>
      .bind (sub_plain .rfl eT) fun _ a0 =>
      .pure a0 .rfl .rfl eT.neg .rfl
  · intro al pRe zeta r pIm cIm eP
    refine deriveWith_gives .impInvLp2 rfl (mixOf_plain g rfl) ?_ n
    exact .bind (theta2_gives fc fs) fun _ al =>
      .bind (mul_plain .rfl .rfl) fun _ p => .bind (div_plain al.neg p) fun _ pRe =>
      .bind (mul_plain .rfl .rfl) fun _ p => .bind (div_plain .rfl p) fun _ zeta =>
      .bind (mul_plain zeta zeta) fun _ p => .bind (sub_plain .rfl p) fun _ p => .bind (pow_plain p .rfl) fun _ r =>
      .bind (mul_plain al r) fun _ pIm =>
      .bind (mul_plain .rfl r) fun _ p => .bind (div_plain al p) fun _ cIm =>
      .bind (exp_plain pRe) fun _ eP =>
      .bind (sin_plain pIm) fun _ p => .bind (mul_plain cIm p) fun _ p => .bind (mul_plain .rfl p) fun _ p =>
      .bind (mul_plain p eP) fun _ a1 =>
      .bind (mul_plain .rfl eP) fun _ p => .bind (cos_plain pIm) fun _ r => .bind (mul_plain p r) fun _ b1 =>
      .bind (mul_plain eP eP) fun _ b2 =>
      .pure .rfl a1 .rfl b1 b2

end Sys2Proof.Machine
end

section
/-! PROOF. The system commands without an operand, and command words whose opcode is unassigned (R78, R200, R201, R203,
44_system.md). -/

namespace Sys2Proof.Machine

/-! ### NOP and ERR.CLR (R200, R203) -/

/-- Settles O17: the meaning of NOP is the state itself. -/
theorem nopChangesNothing : Obligations.NopChangesNothing := fun _ => rfl

/-- Settles O20: ERR.CLR is `clearCmderr`, which writes CMDERR only. -/
theorem errClrClearsCmderr : Obligations.ErrClrClearsCmderr := fun _ => rfl

/-! ### Unassigned opcodes (R78, R201) -/

/-- An OPC value of an unassigned range of R78 selects no command. -/
theorem Opcode.ofCode?_eq_none_of_unassigned {c : BitVec 8}
    (h : (0x05 ≤ c.toNat ∧ c.toNat ≤ 0x0F) ∨ (0x17 ≤ c.toNat ∧ c.toNat ≤ 0x1F) ∨ (0x22 ≤ c.toNat ∧ c.toNat ≤ 0xFF)) :
    Opcode.ofCode? c = none := by
  rw [Opcode.ofCode?, List.find?_eq_none]
  intro o _ ho
  obtain rfl : o.code = c := by simpa using ho
  revert h
  cases o <;> decide

/-- Settles O10: the word does not decode, since no command has its OPC, so the step is `illegalCommand` past that one word. -/
theorem unassignedOpcodeSetsCmderr : Obligations.UnassignedOpcodeSetsCmderr := by
  intro s w rest hrst hwords hrange
  have hdecode : decode (unconsumed s) = .error (.unassignedOpcode (opcField w)) := by
    rw [unconsumed, hwords]
    exact decode_cons_unassigned (Opcode.ofCode?_eq_none_of_unassigned hrange)
  exact step_unassigned hrst hdecode

end Sys2Proof.Machine
end

section
/-! PROOF. No command and no step stops (R215, 60_exceptions.md). -/

namespace Sys2Proof.Machine

/-- Settles O14: every branch of the step completes (`exists_step_next`), and so does every command (`exec_next`). -/
theorem everyStepAnswersNext : Obligations.EveryStepAnswersNext := by
  refine ⟨exists_step_next, fun i s => ?_⟩
  obtain ⟨t, hexec, -⟩ := exec_next i s
  exact ⟨t, hexec⟩

end Sys2Proof.Machine
end

section
/-! PROOF. Hardware reset, a NaN in the history, and instances after a reset of their history (R235, R236, R243,
70_reset_and_hazards.md). -/

namespace Sys2Proof.Machine

/-! ### Hardware reset (R40, R235) -/

/-- Settles O12: under RST a step is `step_rst`, and `deassertRst` writes the reset values. -/
theorem hardwareResetRestoresRegisters : Obligations.HardwareResetRestoresRegisters :=
  ⟨fun _ hrst => step_rst hrst, fun s => step_rst (assertRst_rst s), fun _ => rfl⟩

/-! ### Operations on a NaN (R10, R100) -/

section

variable {a b : F64}

/-- An operation without a result gives the NaN that stands for every NaN result. -/
theorem Plain.isNaN_getD_none {r : Option F64} (h : r = none) : Fp.isNaN (r.getD Plain.aNaN) = true := by
  subst h
  decide

theorem Plain.isNaN_add (h : Fp.isNaN a = true ∨ Fp.isNaN b = true) : Fp.isNaN (Plain.add a b) = true :=
  have ⟨hadd, _⟩ := Fp.arith_nan h
  Plain.isNaN_getD_none hadd

theorem Plain.isNaN_sub (h : Fp.isNaN a = true ∨ Fp.isNaN b = true) : Fp.isNaN (Plain.sub a b) = true :=
  have ⟨_, hsub, _⟩ := Fp.arith_nan h
  Plain.isNaN_getD_none hsub

theorem Plain.isNaN_mul (h : Fp.isNaN a = true ∨ Fp.isNaN b = true) : Fp.isNaN (Plain.mul a b) = true :=
  have ⟨_, _, hmul, _⟩ := Fp.arith_nan h
  Plain.isNaN_getD_none hmul

theorem isNaN_flush (h : Fp.isNaN a = true) : Fp.isNaN (flush a) = true := by
  simp [flush, flushWith, Fp.lt, h]

end

/-! ### A NaN in a slot that is fed back (R96 to R99, R243) -/

/-- The biquad step on the registers gives what the recurrence that TOPO selects yields. -/
theorem runBiquad_yields {s : State} {t : Topology} {x : F64} {P : F64 → History → Prop} (ht : s.topo = t)
    (hP : Yields (biquadStep t s.coef s.hist x) P) : P (runBiquad x s).1 (runBiquad x s).2.hist := by
  subst ht
  exact hP s.nanIx

section

variable {s : State} (x : F64)

/-- Direct: each slot is a term of the output, which is the new S3. -/
theorem runBiquad_direct_isNaN (ht : s.topo = .direct)
    (h : Fp.isNaN s.hist.s1 ∨ Fp.isNaN s.hist.s2 ∨ Fp.isNaN s.hist.s3 ∨ Fp.isNaN s.hist.s4) :
    Fp.isNaN (runBiquad x s).1 ∧ Fp.isNaN (runBiquad x s).2.hist.s3 := by
  obtain ⟨hhist, hy⟩ := runBiquad_yields ht (stepDirect_yields s.coef s.hist x)
  have hnan : Fp.isNaN (runBiquad x s).1 = true := by
    rw [hy.isNaN_eq]
    refine isNaN_flush (Plain.isNaN_sub ?_)
    rcases h with h | h | h | h
    · exact .inl (Plain.isNaN_sub (.inl (Plain.isNaN_add (.inl (Plain.isNaN_add (.inr (Plain.isNaN_mul (.inr h))))))))
    · exact .inl (Plain.isNaN_sub (.inl (Plain.isNaN_add (.inr (Plain.isNaN_mul (.inr h))))))
    · exact .inl (Plain.isNaN_sub (.inr (Plain.isNaN_mul (.inr h))))
    · exact .inr (Plain.isNaN_mul (.inr h))
  rw [hhist]
  exact ⟨hnan, hnan⟩

/-- Canonical: S1 and S2 are terms of `w`, which is the new S1 and a factor of the output. -/
theorem runBiquad_canonical_isNaN (ht : s.topo = .canonical) (h : Fp.isNaN s.hist.s1 ∨ Fp.isNaN s.hist.s2) :
    Fp.isNaN (runBiquad x s).1 ∧ Fp.isNaN (runBiquad x s).2.hist.s1 := by
  obtain ⟨-, hw, hy⟩ := runBiquad_yields ht (stepCanonical_yields s.coef s.hist x)
  have hnan : Fp.isNaN (runBiquad x s).2.hist.s1 = true := by
    rw [hw.isNaN_eq]
    refine Plain.isNaN_sub ?_
    rcases h with h | h
    · exact .inl (Plain.isNaN_sub (.inr (Plain.isNaN_mul (.inr h))))
    · exact .inr (Plain.isNaN_mul (.inr h))
  refine ⟨?_, hnan⟩
  rw [hy.isNaN_eq]
  exact isNaN_flush (Plain.isNaN_add (.inl (Plain.isNaN_add (.inl (Plain.isNaN_mul (.inr hnan))))))

/-- TransposeCanonical: S1 is a term of the output, which is a factor of the new S1; S2 is a term of the new S1. -/
theorem runBiquad_transposeCanonical_isNaN (ht : s.topo = .transposeCanonical) :
    (Fp.isNaN s.hist.s1 → Fp.isNaN (runBiquad x s).1 ∧ Fp.isNaN (runBiquad x s).2.hist.s1) ∧
      (Fp.isNaN s.hist.s2 → Fp.isNaN (runBiquad x s).2.hist.s1) := by
  obtain ⟨-, hy, hs1, -⟩ := runBiquad_yields ht (stepTransposeCanonical_yields s.coef s.hist x)
  rw [hs1.isNaN_eq]
  refine ⟨fun h => ?_, fun h => Plain.isNaN_add (.inr h)⟩
  have hnan : Fp.isNaN (runBiquad x s).1 = true := by
    rw [hy.isNaN_eq]
    exact isNaN_flush (Plain.isNaN_add (.inr h))
  exact ⟨hnan, Plain.isNaN_add (.inl (Plain.isNaN_sub (.inr (Plain.isNaN_mul (.inr hnan)))))⟩

/-- TransposeDirect: S3 is a term of `w`, a factor of the output and of the new S3; S4 is a term of the new S3. -/
theorem runBiquad_transposeDirect_isNaN (ht : s.topo = .transposeDirect) :
    (Fp.isNaN s.hist.s3 → Fp.isNaN (runBiquad x s).1 ∧ Fp.isNaN (runBiquad x s).2.hist.s3) ∧
      (Fp.isNaN s.hist.s4 → Fp.isNaN (runBiquad x s).2.hist.s3) := by
  obtain ⟨hy, hs3, -⟩ := runBiquad_yields ht (stepTransposeDirect_yields s.coef s.hist x)
  rw [hy.isNaN_eq, hs3.isNaN_eq]
  refine ⟨fun h => ?_, fun h => Plain.isNaN_sub (.inl h)⟩
  have hw : Fp.isNaN (Plain.add x s.hist.s3) = true := Plain.isNaN_add (.inr h)
  exact ⟨isNaN_flush (Plain.isNaN_add (.inl (Plain.isNaN_mul (.inr hw)))),
    Plain.isNaN_sub (.inr (Plain.isNaN_mul (.inr hw)))⟩

end

/-! ### Slots that are not read (R97 to R99, R243) -/

/-- Under Canonical and TransposeCanonical neither the output nor the new S1 and S2 depend on S3 and S4, whatever the
arithmetic. -/
theorem stepTopology_s3_s4_unread {V : Type} {t : Topology} (ht : t = .canonical ∨ t = .transposeCanonical) (A : Arith V)
    (c : CoefsOf V) (h : HistoryOf V) (x v w : V) (n : ℕ) :
    let r := (Fp.eval (stepTopology A t c h x) n).1
    let r' := (Fp.eval (stepTopology A t c { h with s3 := v, s4 := w } x) n).1
    r'.1 = r.1 ∧ r'.2.s1 = r.2.s1 ∧ r'.2.s2 = r.2.s2 := by
  rcases ht with rfl | rfl
  · exact ⟨rfl, rfl, rfl⟩
  · exact ⟨rfl, rfl, rfl⟩

/-- A sum advances the free-value index by one, whatever its terms. -/
theorem eval_f64Arith_add_index (a b : F64) (n : ℕ) : (Fp.eval (f64Arith.add a b) n).2 = n + 1 := rfl

/-- Under TransposeDirect S1 is read by the output only, and S2 by the new S1 only; the free-value indexes are the same too, so
that no NaN bits differ. -/
theorem stepTransposeDirect_s1_s2_reach (c : Coefs) (h : History) (x v w : F64) (n : ℕ) :
    let r := (Fp.eval (stepTransposeDirect f64Arith c h x) n).1
    let r' := (Fp.eval (stepTransposeDirect f64Arith c { h with s1 := v, s2 := w } x) n).1
    r'.2.s2 = r.2.s2 ∧ r'.2.s3 = r.2.s3 ∧ r'.2.s4 = r.2.s4 ∧ (w = h.s2 → r'.2.s1 = r.2.s1) ∧ (v = h.s1 → r'.1 = r.1) := by
  simp only [stepTransposeDirect, Fp.eval_bind, Fp.eval_pure, eval_f64Arith_add_index, true_and]
  exact ⟨fun hw => by rw [hw], fun hv => by rw [hv]⟩

/-- Settles O30: `runBiquad_direct_isNaN` and its companions say where a NaN stays, `stepTopology_s3_s4_unread` and
`stepTransposeDirect_s1_s2_reach` which slots are not read. -/
theorem nanPersistence : Obligations.NanPersistence := by
  refine fun s x => ⟨runBiquad_direct_isNaN x, runBiquad_canonical_isNaN x, runBiquad_transposeCanonical_isNaN x,
    runBiquad_transposeDirect_isNaN x, fun ht v w => ?_, fun ht v w => ?_⟩
  · simpa [biquadStep] using stepTopology_s3_s4_unread ht f64Arith s.coef s.hist x v w s.nanIx
  · simpa [biquadStep, stepTopology, ht] using stepTransposeDirect_s1_s2_reach s.coef s.hist x v w s.nanIx

/-! ### The registers that a sample reads (R94, R129, R236) -/

/-- Two instances that a biquad step does not tell apart: one topology, and coefficients and history equal up to NaN bits. -/
def SameBiquad (s t : State) : Prop := s.topo = t.topo ∧ SameCoefs s.coef t.coef ∧ SameHistory s.hist t.hist

section

variable {s t : State}

theorem SameBiquad.runBiquad (x : F64) (h : SameBiquad s t) :
    Same (runBiquad x s).1 (runBiquad x t).1 ∧ SameBiquad (runBiquad x s).2 (runBiquad x t).2 := by
  obtain ⟨htopo, hcoef, hhist⟩ := h
  obtain ⟨hy, hhist'⟩ := biquadStep_same s.topo hcoef hhist (.refl x) s.nanIx t.nanIx
  rw [SameBiquad, runBiquad_result, runBiquad_result, runBiquad_hist, runBiquad_hist, ← htopo]
  exact ⟨hy, htopo, hcoef, hhist'⟩

theorem SameBiquad.biquadOutputs (xs : List F64) (h : SameBiquad s t) :
    List.Forall₂ Same (biquadOutputs xs s) (biquadOutputs xs t) := by
  induction xs generalizing s t with
  | nil => exact .nil
  | cons x xs ih =>
    obtain ⟨hy, hnext⟩ := h.runBiquad x
    exact .cons hy (ih hnext)

/-- A sample through the filter gives the same output where the instances are the same once either has recomputed if dirty, and
they stay so: after the sample both are clean. -/
theorem SameBiquad.runFilter (x : F64) (h : SameBiquad (recomputeIfDirty s) (recomputeIfDirty t)) :
    Same (runFilter x s).1 (runFilter x t).1 ∧ SameBiquad (runFilter x s).2 (runFilter x t).2 := by
  obtain ⟨hb, hnext⟩ := h.runBiquad x
  have ⟨_, ⟨_, _, _, _, _, hc0, hd0⟩, _⟩ := hnext
  exact ⟨mixDryWet_same hd0 hc0 (.refl x) hb _ _, hnext⟩

theorem SameBiquad.filterOutputs (xs : List F64) (h : SameBiquad (recomputeIfDirty s) (recomputeIfDirty t)) :
    List.Forall₂ Same (filterOutputs xs s) (filterOutputs xs t) := by
  induction xs generalizing s t with
  | nil => exact .nil
  | cons x xs ih =>
    obtain ⟨hy, hnext⟩ := h.runFilter x
    rw [← recomputeIfDirty_of_clean (runFilter_dirty x s), ← recomputeIfDirty_of_clean (runFilter_dirty x t)] at hnext
    exact .cons hy (ih hnext)

theorem recompute_coef_same_of_parameters
    (h : s.alg = t.alg ∧ s.fc = t.fc ∧ s.q = t.q ∧ s.gain = t.gain ∧ s.fs = t.fs) :
    SameCoefs (recompute s).coef (recompute t).coef := by
  obtain ⟨halg, hfc, hq, hgain, hfs⟩ := h
  rw [recompute_coef, recompute_coef, halg, hfc, hq, hgain, hfs]
  exact deriveWith_same _ _ _ _ _ _ _ _

/-- Coefficients in force are the same where both instances keep the same ones, and where both derive them from the same
parameters. -/
theorem recomputeIfDirty_coef_same (hdirty : s.dirty = t.dirty) (hclean : s.dirty = false → s.coef = t.coef)
    (hparams : s.dirty = true → s.alg = t.alg ∧ s.fc = t.fc ∧ s.q = t.q ∧ s.gain = t.gain ∧ s.fs = t.fs) :
    SameCoefs (recomputeIfDirty s).coef (recomputeIfDirty t).coef := by
  cases hs : s.dirty with
  | false =>
    rw [recomputeIfDirty_of_clean hs, recomputeIfDirty_of_clean (hdirty ▸ hs), hclean hs]
    exact .refl _
  | true =>
    rw [recomputeIfDirty_of_dirty hs, recomputeIfDirty_of_dirty (hdirty ▸ hs)]
    exact recompute_coef_same_of_parameters (hparams hs)

end

/-- Settles O31: with the history cleared in both, the topology and the coefficients in force are all that the outputs depend on
(`SameBiquad.biquadOutputs`, `SameBiquad.filterOutputs`). -/
theorem resetIdempotence : Obligations.ResetIdempotence := by
  intro s t xs htopo
  refine ⟨clearHistory s, clearHistory t, rfl, rfl, fun hcoef => ?_, fun hdirty hclean hparams => ?_⟩
  · have hsame : SameBiquad (clearHistory s) (clearHistory t) := ⟨htopo, hcoef ▸ .refl _, .refl _⟩
    exact hsame.biquadOutputs xs
  · have hcoef := recomputeIfDirty_coef_same (s := clearHistory s) (t := clearHistory t) hdirty hclean hparams
    refine SameBiquad.filterOutputs xs ⟨?_, hcoef, ?_⟩
    · rw [recomputeIfDirty_topo, recomputeIfDirty_topo]
      exact htopo
    · rw [recomputeIfDirty_hist, recomputeIfDirty_hist]
      exact .refl _

end Sys2Proof.Machine
end
